-- ==== Sys2Proof/Word.lean ====
section
/-! DEFINITION. The word types of the block and the one signed reading of a 16-bit operand.

Framebuffer, font, text and packet bytes are 8 bits wide (`20_memory.md` R46); an operand field is 8 or
16 bits wide (`30_encoding.md` R64). -/

namespace Sys2Proof

/-- One byte: of a packet, of `FB`, of `FONT`, of `MQ_TEXT`. -/
abbrev Byte := BitVec 8

/-- A 16-bit operand field of a packet, and the width of `RES` and `FONTBASE`. -/
abbrev Half := BitVec 16

/-- A 32-bit marquee register (`10_state.md` R16). -/
abbrev Word := BitVec 32

end Sys2Proof
end

