-- ==== Sys2Proof/Config.lean ====
section
/-! DEFINITION. The implementation parameters of the block (`00_scope.md` R4) and the one free value of
the model. Which parameters are legal is in `WellFormed.lean`; the constants derived from them (R5) are in
`Machine/Geometry.lean`. -/

namespace Sys2Proof

/-- `GLYPH_PARTIAL_ALIGN` (`00_scope.md` R4, `42_font.md` R136): where the rows of the last byte of a glyph
column stand when the height is not a multiple of 8. -/
inductive PartialAlign where
  | top
  | bottom
deriving DecidableEq, Repr

/-- The parameters of the block (`00_scope.md` R4), "Immutable after construction". The model carries them
in its state, where nothing writes them, so that one step function covers every topology and every font.
DESIGN CHOICE, log entry 1. -/
structure Config where
  /-- `PW`, tiles per row of tiles. -/
  pw : Nat
  /-- `PH`, rows of tiles. -/
  ph : Nat
  /-- `FONT`, the bytes of the font space at addresses `0 .. FONT_BYTES-1`; its length is `FONT_BYTES`. -/
  font : List Byte
  /-- `SCAN_GATED`, whether SCAN_STEP consults `ser_ready`. -/
  scanGated : Bool
  /-- `GLYPH_PARTIAL_ALIGN`. -/
  partialAlign : PartialAlign
deriving DecidableEq, Repr

/-- The level of `ser_ready` at the `n`-th sample since the run began, where the run's list of levels does
not give it: "chosen by the environment, so a model takes one free boolean per SCAN_STEP"
(`10_state.md` R23(b)). It has no body: nothing can be proved of its value. Safe; log entry 4. -/
opaque Config.serReadyBeyond : Nat → Bool

/-- The fixed-width test font F1 of `95_test_vectors.md`: height 8, codes 'A' to 'C', width 5. -/
def Config.fontF1 : List Byte :=
  [0x00, 0x00, 0x05, 0x08, 0x41, 0x03,
   0x3F, 0x48, 0x88, 0x48, 0x3F,
   0xFF, 0x91, 0x91, 0x91, 0x6E,
   0x7E, 0x81, 0x81, 0x81, 0x42]

/-- The parameters `State.reset` starts from: one tile, the font F1, no gate, `top`, which are the
defaults of `95_test_vectors.md`. Every statement but those about `State.reset` itself holds for any
parameters. DESIGN CHOICE, log entry 1. -/
def Config.standard : Config :=
  { pw := 1, ph := 1, font := Config.fontF1, scanGated := false, partialAlign := .top }

end Sys2Proof
end

