-- ==== Sys2Proof/Syntax.lean ====
section
/-! DEFINITION. The fourteen commands (`30_encoding.md` R62), one constructor for each row of the opcode
table. An operand has the width its field has in the packet (R64), less the bits that must be 0. -/

namespace Sys2Proof

/-- The compositing modes, in the order of their codes 0 to 4 (`30_encoding.md` R65). -/
inductive Mode where
  | normal
  | inverse
  | toggle
  | or
  | nor
deriving DecidableEq, Repr

/-- A command with its operands. A reserved operand value (`30_encoding.md` R79) is no term of this type:
the decoder rejects it. -/
inductive Instr where
  | clear (toBlank : Bool)
  | setPixel (x y : Half) (mode : Mode) (value : Bool)
  | line (x0 y0 x1 y1 : Half) (mode : Mode)
  | circle (xc yc r : Half) (mode : Mode)
  | box (x0 y0 x1 y1 : Half) (mode : Mode)
  | filledBox (x0 y0 x1 y1 : Half) (mode : Mode)
  | testPattern (pattern : BitVec 2)
  | selectFont (base : Half)
  | charWidth (code : Byte)
  | drawChar (x y : Half) (code : Byte) (mode : Mode)
  | drawString (x y : Half) (mode : Mode) (text : List Byte)
  | marqueeBegin (left top : Half) (text : List Byte)
  | marqueeStep (dx dy : Half)
  | scanStep
deriving DecidableEq, Repr

end Sys2Proof
end

