-- ==== Sys2Proof/WellFormed.lean ====
section
/-! DEFINITION. Which instructions a packet can carry, and which parameters the block can be built with. -/

namespace Sys2Proof

/-- An instruction a packet can carry. The one bound the types do not give is the text's: its length field
is one byte, so a text has at most 255 characters (`30_encoding.md` R73, R75). -/
def Instr.wellFormed : Instr → Bool
  | .clear _ => true
  | .setPixel _ _ _ _ => true
  | .line _ _ _ _ _ => true
  | .circle _ _ _ _ => true
  | .box _ _ _ _ _ => true
  | .filledBox _ _ _ _ _ => true
  | .testPattern _ => true
  | .selectFont _ => true
  | .charWidth _ => true
  | .drawChar _ _ _ _ => true
  | .drawString _ _ _ text => decide (text.length ≤ 255)
  | .marqueeBegin _ _ text => decide (text.length ≤ 255)
  | .marqueeStep _ _ => true
  | .scanStep => true

/-- Parameters the block can be built with: the legal values of `00_scope.md` R4. Others are "not a legal
configuration of the block" (`93_implementation_defined.md` U14). -/
def Config.wellFormed (c : Config) : Bool :=
  decide (1 ≤ c.pw) && decide (c.pw ≤ 1023) && decide (1 ≤ c.ph) && decide (c.ph ≤ 2047) &&
    decide (c.font.length ≤ 65536)

end Sys2Proof
end

