-- ==== Sys2Proof/Decode.lean ====
section
/-! DEFINITION. The packet decoder of `30_encoding.md` R81, total on every byte list, and after it the
encoder of the same formats (R66 to R76). -/

namespace Sys2Proof

/-- The assigned opcodes (`30_encoding.md` R62, R77), named after their commands. -/
inductive Opcode where
  | clear
  | setPixel
  | line
  | circle
  | box
  | filledBox
  | testPattern
  | selectFont
  | charWidth
  | drawChar
  | drawString
  | marqueeBegin
  | marqueeStep
  | scanStep
deriving DecidableEq, Repr

/-- The opcode byte of each command (`30_encoding.md` R62). -/
def Opcode.byte : Opcode → Byte
  | .clear => 0x01
  | .setPixel => 0x02
  | .line => 0x10
  | .circle => 0x11
  | .box => 0x12
  | .filledBox => 0x13
  | .testPattern => 0x14
  | .selectFont => 0x20
  | .charWidth => 0x21
  | .drawChar => 0x22
  | .drawString => 0x23
  | .marqueeBegin => 0x30
  | .marqueeStep => 0x31
  | .scanStep => 0x40

/-- Every assigned opcode, once. -/
def Opcode.all : List Opcode :=
  [.clear, .setPixel, .line, .circle, .box, .filledBox, .testPattern, .selectFont, .charWidth,
   .drawChar, .drawString, .marqueeBegin, .marqueeStep, .scanStep]

/-- The assigned opcode with a given byte, if there is one (`30_encoding.md` R77). -/
def Opcode.ofByte (b : Byte) : Option Opcode :=
  Opcode.all.find? fun op => op.byte == b

/-- The table `LEN` of `30_encoding.md` R81: the length of a packet without its text. -/
def Opcode.fixedLength : Opcode → Nat
  | .clear => 2
  | .setPixel => 6
  | .line => 10
  | .circle => 8
  | .box => 10
  | .filledBox => 10
  | .testPattern => 2
  | .selectFont => 3
  | .charWidth => 2
  | .drawChar => 7
  | .drawString => 7
  | .marqueeBegin => 6
  | .marqueeStep => 5
  | .scanStep => 1

/-- The place of a packet's length byte: byte 6 of DRAW_STRING, byte 5 of MARQUEE_BEGIN, none in the other
packets (`30_encoding.md` R61, R81). -/
def Opcode.lengthByte : Opcode → Option Nat
  | .drawString => some 6
  | .marqueeBegin => some 5
  | .clear => none
  | .setPixel => none
  | .line => none
  | .circle => none
  | .box => none
  | .filledBox => none
  | .testPattern => none
  | .selectFont => none
  | .charWidth => none
  | .drawChar => none
  | .marqueeStep => none
  | .scanStep => none

/-- How many bytes the packet at the head of the stream has; `none` while its length byte has not arrived
(`30_encoding.md` R81). -/
def packetLength (op : Opcode) (s : List Byte) : Option Nat :=
  match op.lengthByte with
  | none => some op.fixedLength
  | some k => s[k]?.map fun len => op.fixedLength + len.toNat

/-- Byte `k` of a packet, numbered from 0 in arrival order (`30_encoding.md` R64). -/
def byteAt (p : List Byte) (k : Nat) : Byte := p.getD k 0

/-- The 16-bit field whose first byte is byte `k`, most significant byte first (`30_encoding.md` R64). -/
def halfAt (p : List Byte) (k : Nat) : Half := byteAt p k ++ byteAt p (k + 1)

/-- The mode with a given code; codes 5, 6 and 7 are reserved (`30_encoding.md` R65). -/
def modeOfCode (code : BitVec 3) : Option Mode :=
  if code = 0 then some .normal
  else if code = 1 then some .inverse
  else if code = 2 then some .toggle
  else if code = 3 then some .or
  else if code = 4 then some .nor
  else none

/-- The `mode` byte: `bits[7:3]` must be 0 (`30_encoding.md` R64). -/
def modeOfByte (b : Byte) : Option Mode :=
  if b.extractLsb' 3 5 = 0 then modeOfCode (b.extractLsb' 0 3) else none

/-- The `mv` byte: the mode code in `bits[2:0]`, the value in `bit[3]`, `bits[7:4]` must be 0
(`30_encoding.md` R64). -/
def modeValueOfByte (b : Byte) : Option (Mode × Bool) :=
  if b.extractLsb' 4 4 = 0 then (modeOfCode (b.extractLsb' 0 3)).map fun m => (m, b.getLsbD 3)
  else none

/-- The `flag` byte of CLEAR: `bits[7:1]` must be 0 (`30_encoding.md` R64). -/
def flagOfByte (b : Byte) : Option Bool :=
  if b.extractLsb' 1 7 = 0 then some (b.getLsbD 0) else none

/-- The `pattern` byte of TEST_PATTERN: `0 .. 3`, others reserved (`30_encoding.md` R67). -/
def patternOfByte (b : Byte) : Option (BitVec 2) :=
  if b.extractLsb' 2 6 = 0 then some (b.extractLsb' 0 2) else none

/-- The instruction of a complete packet by its format (`30_encoding.md` R66 to R76); `none` where an
operand value is reserved (R79). -/
def parsePacket (op : Opcode) (p : List Byte) : Option Instr :=
  match op with
  | .clear => (flagOfByte (byteAt p 1)).map fun f => .clear f
  | .setPixel =>
    (modeValueOfByte (byteAt p 5)).map fun mv => .setPixel (halfAt p 1) (halfAt p 3) mv.1 mv.2
  | .line =>
    (modeOfByte (byteAt p 9)).map fun m =>
      .line (halfAt p 1) (halfAt p 3) (halfAt p 5) (halfAt p 7) m
  | .circle =>
    (modeOfByte (byteAt p 7)).map fun m => .circle (halfAt p 1) (halfAt p 3) (halfAt p 5) m
  | .box =>
    (modeOfByte (byteAt p 9)).map fun m =>
      .box (halfAt p 1) (halfAt p 3) (halfAt p 5) (halfAt p 7) m
  | .filledBox =>
    (modeOfByte (byteAt p 9)).map fun m =>
      .filledBox (halfAt p 1) (halfAt p 3) (halfAt p 5) (halfAt p 7) m
  | .testPattern => (patternOfByte (byteAt p 1)).map fun k => .testPattern k
  | .selectFont => some (.selectFont (halfAt p 1))
  | .charWidth => some (.charWidth (byteAt p 1))
  | .drawChar =>
    (modeOfByte (byteAt p 6)).map fun m => .drawChar (halfAt p 1) (halfAt p 3) (byteAt p 5) m
  | .drawString =>
    (modeOfByte (byteAt p 5)).map fun m => .drawString (halfAt p 1) (halfAt p 3) m (p.drop 7)
  | .marqueeBegin => some (.marqueeBegin (halfAt p 1) (halfAt p 3) (p.drop 6))
  | .marqueeStep => some (.marqueeStep (halfAt p 1) (halfAt p 3))
  | .scanStep => some .scanStep

/-- What the decoder finds at the head of the byte stream (`30_encoding.md` R81). -/
inductive Decoded where
  /-- The stream ends before or inside a packet: "no effect" (R61). -/
  | incomplete
  /-- An unassigned opcode byte; it is consumed alone (R78). -/
  | illegalOpcode (rest : List Byte)
  /-- A complete packet with a reserved operand value; it is consumed whole (R79). -/
  | reservedOperand (rest : List Byte)
  /-- A complete packet of a command, and the bytes after it. -/
  | instr (i : Instr) (rest : List Byte)
deriving DecidableEq, Repr

/-- `s` holds at least `n` bytes. Only the first `n` are looked at. -/
def hasBytes : Nat → List Byte → Bool
  | 0, _ => true
  | _ + 1, [] => false
  | n + 1, _ :: s => hasBytes n s

/-- One turn of the loop of `30_encoding.md` R81. -/
def decode (s : List Byte) : Decoded :=
  match s with
  | [] => .incomplete
  | b :: t =>
    match Opcode.ofByte b with
    | none => .illegalOpcode t
    | some op =>
      match packetLength op s with
      | none => .incomplete
      | some n =>
        if hasBytes n s then
          match parsePacket op (s.take n) with
          | none => .reservedOperand (s.drop n)
          | some i => .instr i (s.drop n)
        else .incomplete

/-! ## The encoder -/

/-- The two bytes of a 16-bit field, most significant first (`30_encoding.md` R64). -/
def halfBytes (h : Half) : List Byte := [h.extractLsb' 8 8, h.extractLsb' 0 8]

/-- The code of a mode (`30_encoding.md` R65). -/
def codeOfMode : Mode → BitVec 3
  | .normal => 0
  | .inverse => 1
  | .toggle => 2
  | .or => 3
  | .nor => 4

/-- The `mode` byte of a mode (`30_encoding.md` R64). -/
def modeByte (m : Mode) : Byte := (0 : BitVec 5) ++ codeOfMode m

/-- The `mv` byte of a mode and a value (`30_encoding.md` R64). -/
def modeValueByte (m : Mode) (v : Bool) : Byte := (0 : BitVec 4) ++ BitVec.ofBool v ++ codeOfMode m

/-- The packet of a command, by its format (`30_encoding.md` R66 to R76). -/
def encode : Instr → List Byte
  | .clear f => [0x01, (0 : BitVec 7) ++ BitVec.ofBool f]
  | .setPixel x y m v => [0x02] ++ halfBytes x ++ halfBytes y ++ [modeValueByte m v]
  | .line x0 y0 x1 y1 m =>
    [0x10] ++ halfBytes x0 ++ halfBytes y0 ++ halfBytes x1 ++ halfBytes y1 ++ [modeByte m]
  | .circle xc yc r m => [0x11] ++ halfBytes xc ++ halfBytes yc ++ halfBytes r ++ [modeByte m]
  | .box x0 y0 x1 y1 m =>
    [0x12] ++ halfBytes x0 ++ halfBytes y0 ++ halfBytes x1 ++ halfBytes y1 ++ [modeByte m]
  | .filledBox x0 y0 x1 y1 m =>
    [0x13] ++ halfBytes x0 ++ halfBytes y0 ++ halfBytes x1 ++ halfBytes y1 ++ [modeByte m]
  | .testPattern k => [0x14, (0 : BitVec 6) ++ k]
  | .selectFont base => [0x20] ++ halfBytes base
  | .charWidth code => [0x21, code]
  | .drawChar x y code m => [0x22] ++ halfBytes x ++ halfBytes y ++ [code, modeByte m]
  | .drawString x y m text =>
    [0x23] ++ halfBytes x ++ halfBytes y ++ [modeByte m, BitVec.ofNat 8 text.length] ++ text
  | .marqueeBegin left top text =>
    [0x30] ++ halfBytes left ++ halfBytes top ++ [BitVec.ofNat 8 text.length] ++ text
  | .marqueeStep dx dy => [0x31] ++ halfBytes dx ++ halfBytes dy
  | .scanStep => [0x40]

/-! ## The opcode table's words -/

/-- The longest packet: DRAW_STRING with 255 characters (`30_encoding.md` R73). -/
def longestPacket : Nat := 262

/-- The low `count` bytes of a number, the least significant byte first. -/
def lowBytes : Nat → Nat → List Byte
  | 0, _ => []
  | count + 1, w => BitVec.ofNat 8 w :: lowBytes count (w / 256)

/-- The bytes, in arrival order, of an instruction given as the number `w` of its low `nbits` bits (bit 0
of the number is bit 0 of the first byte, bit 8 is bit 0 of the second), every bit above them 0, up to the
longest packet. -/
def tableBytes (nbits w : Nat) : List Byte := lowBytes longestPacket (w % 2 ^ nbits)

/-- The instruction the decoder reads from an instruction word of the opcode table. -/
def decodeTableWord (nbits w : Nat) : Option Instr :=
  match decode (tableBytes nbits w) with
  | .instr i _ => some i
  | .incomplete => none
  | .illegalOpcode _ => none
  | .reservedOperand _ => none

end Sys2Proof
end

