-- ==== Sys2Proof/Machine/State.lean ====
section
/-! DEFINITION. The state of the block (`10_state.md` R17), the reasons a step can stop, and the state
after reset (`70_reset_and_hazards.md` R220). -/

namespace Sys2Proof.Machine

/-- A memory: (address, byte) pairs in one canonical form, strictly rising addresses and no pair equal to
what an unlisted address of that memory reads as. The form is `Memory.wf` in `Machine/Ops.lean`. -/
abbrev Memory := List Host.Cell

/-- An event of the output history (`10_state.md` R24). -/
inductive Event where
  /-- One 4-byte transfer unit sent over the serial link, `b0` first. -/
  | xfer (b0 b1 b2 b3 : Byte)
  /-- Line BLANK set. -/
  | blank (v : Bool)
  /-- Line LATCH set. -/
  | latch (v : Bool)
  /-- Lines ROWSEL set. -/
  | rowSel (v : BitVec 2)
deriving DecidableEq, Repr

/-- The state of the block. The fields from `fb` to `out` are the table of `10_state.md` R17, in its order;
`cfg` is the parameters, which no step writes; the four fields after it are inputs of a run (R23), held as
data because a step takes nothing but a state. -/
structure State where
  /-- `FB`, the framebuffer; an unlisted address reads as 0xFF (R20, R220). -/
  fb : Memory
  /-- `MQ_TEXT`, the marquee text store; an unlisted address reads as 0x00 (R22, R220). -/
  mqText : Memory
  /-- `RES`, the result register (R10). -/
  res : Half
  /-- `ERR`, the code of the first fault since reset (R12). -/
  err : BitVec 3
  /-- `SCANPHASE`, the row group to be transmitted next (R13). -/
  scanPhase : BitVec 2
  /-- `BLANK`, 1 = output disabled (R14). -/
  blank : Bool
  /-- `LATCH` (R14). -/
  latch : Bool
  /-- `ROWSEL[1:0]` (R14). -/
  rowSel : BitVec 2
  /-- `FONTBASE`, the address in `FONT` of the selected font (R15). -/
  fontBase : Half
  /-- `FONT_VALID`, 1 once a SELECT_FONT has succeeded (R15). -/
  fontValid : Bool
  /-- `MQ_LEN`, the number of characters of the marquee text (R16). -/
  mqLen : Byte
  /-- `MQ_WIDTH`, signed (R16). -/
  mqWidth : Word
  /-- `MQ_HEIGHT`, signed (R16). -/
  mqHeight : Word
  /-- `MQ_OFFX`, signed (R16). -/
  mqOffX : Word
  /-- `MQ_OFFY`, signed (R16). -/
  mqOffY : Word
  /-- `OUT`, the output history, oldest event first (R24). -/
  out : List Event
  /-- The parameters the block was built with (`00_scope.md` R4). Log entry 1. -/
  cfg : Config
  /-- The command bytes presented and not executed yet, those in the packet assembly buffer included (R23).
  The model's own field; log entry 2. -/
  input : List Byte
  /-- For each later assertion of the reset input, the command bytes presented after it. The model's own
  field; log entry 3. -/
  afterReset : List (List Byte)
  /-- The levels of `ser_ready` at the next samples (R23). The model's own field; log entry 4. -/
  serReady : List Bool
  /-- How many samples of `ser_ready` have been taken. The model's own field; log entry 4. -/
  serSamples : Nat
deriving DecidableEq, Repr

/-- Why the MODEL stops. The block itself never stops: its four faults are next states
(`60_exceptions.md` R203). -/
inductive Fault where
  /-- Raised by the commands that read the selected font, in a state whose `FONTBASE` names a blob that
  does not lie inside `FONT`. SELECT_FONT's check makes such a state unreachable from reset
  (`42_font.md` R131), so this is safe. Log entry 6. -/
  | fontOutOfSpace
deriving DecidableEq, Repr

/-- Why the MODEL gives no meaning. -/
inductive Refusal where
  /-- Raised by `exec`'s arm of an instruction that has no meaning yet. Safe. -/
  | notModelled (mnemonic : String)
  /-- Raised by `step` where the parameters are not legal values of `00_scope.md` R4: "not a legal
  configuration of the block" (`93_implementation_defined.md` U14). Safe. Log entry 7. -/
  | illegalConfiguration
deriving DecidableEq, Repr

/-- The state after reset of a block built with the parameters `c` (`70_reset_and_hazards.md` R220). The
model's own fields are empty: no byte and no level has been presented yet. -/
def State.resetWith (c : Config) : State :=
  { fb := [], mqText := [], res := 0, err := 0, scanPhase := 0, blank := true, latch := false,
    rowSel := 0, fontBase := 0, fontValid := false, mqLen := 0, mqWidth := 0, mqHeight := 0,
    mqOffX := 0, mqOffY := 0, out := [], cfg := c, input := [], afterReset := [], serReady := [],
    serSamples := 0 }

/-- The state after reset, for the parameters `Config.standard` (log entry 1). -/
def State.reset : State := State.resetWith Config.standard

end Sys2Proof.Machine
end

