-- ==== Sys2Proof/Machine/Geometry.lean ====
section
/-! DEFINITION. The constants derived from the parameters (`00_scope.md` R5), the address translation
(`20_memory.md` R40) and the dots a drawing command plots. -/

namespace Sys2Proof.Machine

/-- `T`, the number of tiles (R5). -/
def tiles (c : Config) : Nat := c.pw * c.ph

/-- `W`, the canvas width in pixels (R5). -/
def canvasW (c : Config) : Nat := 32 * c.pw

/-- `H`, the canvas height in pixels (R5). -/
def canvasH (c : Config) : Nat := 16 * c.ph

/-- `ROWBYTES`, the bytes of one framebuffer row (R5). -/
def rowBytes (c : Config) : Nat := 4 * tiles c

/-- `FBSIZE`, the bytes of the framebuffer (R5). -/
def fbSize (c : Config) : Nat := 64 * tiles c

/-- `SEG`, the bytes of one canvas row inside a framebuffer row (R5). -/
def segBytes (c : Config) : Nat := 4 * c.pw

/-- `FONT_BYTES`, the size of the font space (R4). -/
def fontBytes (c : Config) : Nat := c.font.length

/-- The tile of a pixel, counted left to right and top to bottom (`20_memory.md` R40). -/
def panelOf (c : Config) (x y : Nat) : Nat := x / 32 + c.pw * (y / 16)

/-- `x'` of `20_memory.md` R40: the column counted through all tiles. -/
def unrolledX (c : Config) (x y : Nat) : Nat := x % 32 + panelOf c x y * 32

/-- `byteIdx` of `20_memory.md` R40. -/
def byteIdx (c : Config) (x y : Nat) : Nat := unrolledX c x y / 8 + y % 16 * (tiles c * 4)

/-- `bitMask` of `20_memory.md` R40; the most significant bit is the leftmost pixel (R41). -/
def bitMask (c : Config) (x y : Nat) : Byte := 0x80#8 >>> (unrolledX c x y % 8)

/-- The pixel `(x, y)` is on the canvas (`20_memory.md` R40): the clip test of `Plot`
(`40_framebuffer.md` R92). -/
abbrev onCanvas (c : Config) (x y : Int) : Prop :=
  0 ≤ x ∧ x < canvasW c ∧ 0 ≤ y ∧ y < canvasH c

/-- One `Plot` call of a drawing command, but for the mode: a point, which may lie off the canvas, and the
value plotted. -/
structure Dot where
  x : Int
  y : Int
  v : Bool
deriving DecidableEq, Repr

end Sys2Proof.Machine
end

