-- ==== Sys2Proof/Machine/Operands.lean ====
section
/-! DEFINITION. The values of the operand fields (`30_encoding.md` R64) and of the marquee registers, as
the integers the rules compute with (`00_scope.md` R6), and the narrowing of results into registers. -/

namespace Sys2Proof.Machine

/-- `sext_16` (`00_scope.md` R7): a coordinate, radius or delta operand. -/
def coord (h : Half) : Int := h.toInt

/-- The address operand of SELECT_FONT, unsigned (`30_encoding.md` R64). -/
def address (h : Half) : Nat := h.toNat

/-- A byte read as the number 0 to 255 (`zext_8`, `00_scope.md` R7): a character code, a length, a header
field of a font. -/
def number (b : Byte) : Nat := b.toNat

/-- A 32-bit signed marquee register (`10_state.md` R16). -/
def signedReg (w : Word) : Int := w.toInt

/-- What a marquee register holds after an integer is written to it: the low 32 bits. Every value the rules
write fits (`10_state.md` R16); log entry 9. -/
def toReg (v : Int) : Word := BitVec.ofInt 32 v

/-- What `RES` holds after an integer is written to it: the low 16 bits, so -1 is 0xFFFF (`10_state.md`
R10). Every value the rules write fits; log entry 9. -/
def toRes (v : Int) : Half := BitVec.ofInt 16 v

/-- The code of the space character (`00_scope.md` R7). -/
def spaceCode : Nat := 0x20

/-- The code of 'n', the character whose width a space is given (`42_font.md` R133). -/
def sentinelCode : Nat := 0x6E

end Sys2Proof.Machine
end

