-- ==== Sys2Proof/Machine/Flags.lean ====
section
/-! DEFINITION. The block's one flag, the sticky fault register `ERR` (`10_state.md` R12), and the five
compositing modes as functions of a byte and a mask (`40_framebuffer.md` R91, R92). -/

namespace Sys2Proof.Machine

/-- The faults of the block (`60_exceptions.md` R201). -/
inductive BlockFault where
  | illegalOpcode
  | reservedOperand
  | noFont
  | fontBounds
deriving DecidableEq, Repr

/-- The code of a fault (`60_exceptions.md` R201). -/
def faultCode : BlockFault → BitVec 3
  | .illegalOpcode => 1
  | .reservedOperand => 2
  | .noFont => 3
  | .fontBounds => 4

/-- `ERR` after a fault: the first fault since reset is kept (`60_exceptions.md` R203). -/
def stickyErr (err : BitVec 3) (f : BlockFault) : BitVec 3 :=
  if err = 0 then faultCode f else err

/-- The new byte of a `Plot` from the old byte, the mask of the pixel's bit and the value
(`40_framebuffer.md` R92). -/
def composite (mode : Mode) (v : Bool) (mask old : Byte) : Byte :=
  match mode with
  | .normal => if v then old &&& ~~~mask else old ||| mask
  | .inverse => if v then old ||| mask else old &&& ~~~mask
  | .toggle => if v then old ^^^ mask else old
  | .or => if v then old &&& ~~~mask else old
  | .nor => if v = true ∧ old &&& mask ≠ 0 then old &&& ~~~mask else old

end Sys2Proof.Machine
end

