-- ==== Sys2Proof/Machine/Ops.lean ====
section
/-! DEFINITION. The named operations over the memories and the registers, the pixel operation `Plot`
(`40_framebuffer.md` R92), and taking a fault (`60_exceptions.md` R203). -/

namespace Sys2Proof.Machine

/-! ## Memories

`d` is what an unlisted address of the memory reads as. -/

/-- What an unlisted address of `FB` reads as: the reset contents, every pixel unlit
(`70_reset_and_hazards.md` R220). Log entry 5. -/
def fbBlank : Byte := 0xFF

/-- What an unlisted address of `MQ_TEXT` reads as: the reset contents (`70_reset_and_hazards.md` R220).
Log entry 5. -/
def textBlank : Byte := 0x00

/-- The size of `MQ_TEXT` (`10_state.md` R22). -/
def textSize : Nat := 255

/-- The byte at an address. -/
def Memory.read (d : Byte) : Memory → Nat → Byte
  | [], _ => d
  | cell :: m, a => if a < cell.1 then d else if a = cell.1 then cell.2 else Memory.read d m a

/-- A cell in front of a memory, left out where it holds what an unlisted address reads as. -/
def Memory.cons (d : Byte) (a : Nat) (v : Byte) (m : Memory) : Memory :=
  if v = d then m else (a, v) :: m

/-- Replace the byte at address `a` by `f` of it: the one-byte read-modify-write of `20_memory.md` R47. -/
def Memory.modify (d : Byte) (f : Byte → Byte) (a : Nat) : Memory → Memory
  | [] => Memory.cons d a (f d) []
  | cell :: m =>
    if a < cell.1 then Memory.cons d a (f d) (cell :: m)
    else if a = cell.1 then Memory.cons d a (f cell.2) m
    else cell :: Memory.modify d f a m

/-- Write one byte. -/
def Memory.write (d : Byte) (m : Memory) (a : Nat) (v : Byte) : Memory :=
  Memory.modify d (fun _ => v) a m

/-- The memory whose addresses `0 .. size-1` hold `f 0, f 1, ...`, all written at once. -/
def Memory.tabulate (d : Byte) (size : Nat) (f : Nat → Byte) : Memory :=
  (List.range size).filterMap fun a => if f a = d then none else some (a, f a)

/-- The canonical form of a memory of `size` bytes: strictly rising addresses below `size`, and no cell
equal to what an unlisted address reads as. -/
abbrev Memory.wf (d : Byte) (size : Nat) (m : Memory) : Prop :=
  m.Pairwise (fun p q => p.1 < q.1) ∧ ∀ cell ∈ m, cell.2 ≠ d ∧ cell.1 < size

/-- The framebuffer byte at an address. -/
def fbRead (fb : Memory) (a : Nat) : Byte := Memory.read fbBlank fb a

/-- The marquee text byte at an address. -/
def textRead (text : Memory) (a : Nat) : Byte := Memory.read textBlank text a

/-- The font byte at an address (`10_state.md` R21). Every read the commands make is below `FONT_BYTES`
(`42_font.md` R131, log entry 6). -/
def fontRead (c : Config) (a : Nat) : Byte := c.font.getD a 0

/-- The framebuffer with every byte equal to `v`: CLEAR (`40_framebuffer.md` R94) and `ClearBlank`
(`43_marquee.md` R162). -/
def fbFill (c : Config) (v : Byte) : Memory := Memory.tabulate fbBlank (fbSize c) fun _ => v

/-! ## Pixels -/

/-- `Plot(x, y, mode, v)` of `40_framebuffer.md` R92: the clip comes first. -/
def plot (c : Config) (mode : Mode) (fb : Memory) (dot : Dot) : Memory :=
  if onCanvas c dot.x dot.y then
    Memory.modify fbBlank (composite mode dot.v (bitMask c dot.x.toNat dot.y.toNat))
      (byteIdx c dot.x.toNat dot.y.toNat) fb
  else fb

/-- The `Plot` calls of a drawing command, in order. -/
def plotAll (c : Config) (mode : Mode) (fb : Memory) (dots : List Dot) : Memory :=
  dots.foldl (plot c mode) fb

/-- The dots of a primitive: each of its `Plot` calls uses `v = 1` (`41_graphics.md` R111). -/
def setDots (points : List (Int × Int)) : List Dot := points.map fun p => ⟨p.1, p.2, true⟩

/-- `lit(x, y)` (`20_memory.md` R41), for a pixel on the canvas. -/
def lit (c : Config) (fb : Memory) (x y : Nat) : Bool :=
  fbRead fb (byteIdx c x y) &&& bitMask c x y == 0

/-! ## Faults -/

/-- `raise F` of `60_exceptions.md` R203: record the fault; the command ends with no further effect and the
block goes on. There is no return from it (R207). -/
def raise (f : BlockFault) (s : State) : State := { s with err := stickyErr s.err f }

/-! ## Output lines and serial link (`44_scan.md` R181, R183) -/

/-- Append one event to the output history (`10_state.md` R24). -/
def emit (e : Event) (s : State) : State := { s with out := s.out ++ [e] }

/-- Set line BLANK and emit its event. -/
def setBlank (v : Bool) (s : State) : State := emit (.blank v) { s with blank := v }

/-- Set line LATCH and emit its event. -/
def setLatch (v : Bool) (s : State) : State := emit (.latch v) { s with latch := v }

/-- Set lines ROWSEL and emit their event. -/
def setRowSel (v : BitVec 2) (s : State) : State := emit (.rowSel v) { s with rowSel := v }

/-- Send transfer units over the serial link, in order. Every transfer completes (`44_scan.md` R189, log
entry 8). -/
def sendUnits (units : List Event) (s : State) : State := { s with out := s.out ++ units }

/-- The level of `ser_ready` at the next sample: the run's next level, or where the run gives none a free
value (`10_state.md` R23(b), log entry 4). -/
def serReadyNow (s : State) : Bool := s.serReady.headD (Config.serReadyBeyond s.serSamples)

/-- The state after one sample of `ser_ready` has been taken. -/
def afterSample (s : State) : State :=
  { s with serReady := s.serReady.tail, serSamples := s.serSamples + 1 }

/-- The reset input is asserted (`70_reset_and_hazards.md` R220, R221): every element of the block's state
takes its reset value, a partly received packet is discarded, and the bytes presented after the reset come
next. The parameters and the levels of `ser_ready` still to come are the environment's and stay. -/
def takeReset (next : List Byte) (later : List (List Byte)) (s : State) : State :=
  { State.resetWith s.cfg with
    input := next, afterReset := later, serReady := s.serReady, serSamples := s.serSamples }

end Sys2Proof.Machine
end

