-- ==== Sys2Proof/Machine/Graphics.lean ====
section
/-! DEFINITION. The graphics primitives (`41_graphics.md`): the points each plots, in order, and the
commands LINE, CIRCLE, BOX, FILLED_BOX and TEST_PATTERN. -/

namespace Sys2Proof.Machine

/-! ## Lines -/

/-- `sx`, `sy` of `41_graphics.md` R112: the direction of a step. -/
def stepSign (d : Int) : Int := if d < 0 then -1 else 1

/-- The loop of `41_graphics.md` R112 after the first `Plot`, in terms of the major and the minor axis: `n`
turns from `(major, minor)` with error `f`, where the major extent is `a` and the minor extent is `b`. The
points are (major, minor) pairs. -/
def lineSteps (a b sMajor sMinor : Int) : Nat → Int → Int → Int → List (Int × Int)
  | 0, _, _, _ => []
  | n + 1, major, minor, f =>
    let minor' := if 0 ≤ f then minor + sMinor else minor
    let f' := if 0 ≤ f then f - 2 * a else f
    (major + sMajor, minor') ::
      lineSteps a b sMajor sMinor n (major + sMajor) minor' (f' + 2 * b)

/-- The points `Line(x0, y0, x1, y1, ..)` plots (`41_graphics.md` R112). A loop `while x != x1` makes one
turn for each unit of the major extent; log entry 12. -/
def linePoints (x0 y0 x1 y1 : Int) : List (Int × Int) :=
  let dx := x1 - x0
  let dy := y1 - y0
  let a : Int := dx.natAbs
  let b : Int := dy.natAbs
  (x0, y0) ::
    if b < a then lineSteps a b (stepSign dx) (stepSign dy) dx.natAbs x0 y0 (2 * b - a)
    else (lineSteps b a (stepSign dy) (stepSign dx) dy.natAbs y0 x0 (2 * a - b)).map Prod.swap

/-! ## Circles -/

/-- `Points(xc, yc, x, y, ..)` of `41_graphics.md` R114. -/
def circleOctants (xc yc x y : Int) : List (Int × Int) :=
  if x = 0 then [(xc, yc + y), (xc - y, yc), (xc + y, yc), (xc, yc - y)]
  else if x = y then [(xc + x, yc + y), (xc - x, yc + y), (xc + x, yc - y), (xc - x, yc - y)]
  else if x < y then
    [(xc + x, yc + y), (xc - x, yc + y), (xc + x, yc - y), (xc - x, yc - y),
     (xc + y, yc + x), (xc - y, yc + x), (xc + y, yc - x), (xc - y, yc - x)]
  else []

/-- The loop of `41_graphics.md` R114, at most `n` turns. -/
def circleSteps (xc yc : Int) : Nat → Int → Int → Int → List (Int × Int)
  | 0, _, _, _ => []
  | n + 1, x, y, p =>
    if x < y then
      let x' := x + 1
      let y' := if p < 0 then y else y - 1
      let p' := if p < 0 then p + 2 * x' + 1 else p + 2 * (x' - y') + 1
      circleOctants xc yc x' y' ++ circleSteps xc yc n x' y' p'
    else []

/-- The points `Circle(xc, yc, r, ..)` plots (`41_graphics.md` R114). The loop makes at most `r` turns,
because `x` grows by one each turn and `y` never grows; log entry 12. -/
def circlePoints (xc yc r : Int) : List (Int × Int) :=
  circleOctants xc yc 0 r ++ circleSteps xc yc r.toNat 0 r ((5 - 4 * r).tdiv 4)

/-! ## Boxes -/

/-- The points BOX plots: top, right, bottom, left (`41_graphics.md` R116). -/
def boxPoints (x0 y0 x1 y1 : Int) : List (Int × Int) :=
  linePoints x0 y0 x1 y0 ++ linePoints x1 y0 x1 y1 ++ linePoints x1 y1 x0 y1 ++
    linePoints x0 y1 x0 y0

/-- The points `FilledBox(x0, y0, x1, y1, ..)` plots: vertical lines from `x0` to `x1` ascending, none when
`x0 > x1` (`41_graphics.md` R118). -/
def filledBoxPoints (x0 y0 x1 y1 : Int) : List (Int × Int) :=
  (List.range (x1 - x0 + 1).toNat).flatMap fun (k : Nat) =>
    linePoints (x0 + (k : Int)) y0 (x0 + (k : Int)) y1

/-! ## The test patterns -/

/-- The value of a pixel in a test pattern (`41_graphics.md` R120). -/
def patternValue (pattern : BitVec 2) (x y : Nat) : Bool :=
  if pattern = 0 then (x + y) % 2 == 1
  else if pattern = 1 then (x + y) % 2 == 0
  else if pattern = 2 then x % 2 == 1
  else x % 2 == 0

/-- The dots of TEST_PATTERN: every pixel of the canvas by its linear index (`41_graphics.md` R120). -/
def patternDots (c : Config) (pattern : BitVec 2) : List Dot :=
  (List.range (canvasW c * canvasH c)).map fun i =>
    ⟨(i % canvasW c : Nat), (i / canvasW c : Nat),
      patternValue pattern (i % canvasW c) (i / canvasW c)⟩

/-! ## The commands -/

/-- A framebuffer after the points of a primitive are plotted in a mode (`41_graphics.md` R110, R111). -/
def drawPoints (c : Config) (mode : Mode) (fb : Memory) (points : List (Int × Int)) : Memory :=
  plotAll c mode fb (setDots points)

/-- LINE (`41_graphics.md` R112). -/
def execLine (x0 y0 x1 y1 : Half) (mode : Mode) (s : State) : Host.Outcome State Fault Refusal :=
  .next { s with
    fb := drawPoints s.cfg mode s.fb (linePoints (coord x0) (coord y0) (coord x1) (coord y1)) }

/-- CIRCLE (`41_graphics.md` R114). -/
def execCircle (xc yc r : Half) (mode : Mode) (s : State) : Host.Outcome State Fault Refusal :=
  .next { s with fb := drawPoints s.cfg mode s.fb (circlePoints (coord xc) (coord yc) (coord r)) }

/-- BOX (`41_graphics.md` R116). -/
def execBox (x0 y0 x1 y1 : Half) (mode : Mode) (s : State) : Host.Outcome State Fault Refusal :=
  .next { s with
    fb := drawPoints s.cfg mode s.fb (boxPoints (coord x0) (coord y0) (coord x1) (coord y1)) }

/-- FILLED_BOX (`41_graphics.md` R118). -/
def execFilledBox (x0 y0 x1 y1 : Half) (mode : Mode) (s : State) :
    Host.Outcome State Fault Refusal :=
  .next { s with
    fb := drawPoints s.cfg mode s.fb
      (filledBoxPoints (coord x0) (coord y0) (coord x1) (coord y1)) }

/-- TEST_PATTERN (`41_graphics.md` R120). -/
def execTestPattern (pattern : BitVec 2) (s : State) : Host.Outcome State Fault Refusal :=
  .next { s with fb := plotAll s.cfg .normal s.fb (patternDots s.cfg pattern) }

end Sys2Proof.Machine
end

