-- ==== Sys2Proof/Machine/Font.lean ====
section
/-! DEFINITION. The font unit (`42_font.md`): the header and the glyph storage of a font blob, and the
commands SELECT_FONT, CHAR_WIDTH, DRAW_CHAR and DRAW_STRING. In every function `base` is the address of
the blob's byte 0. -/

namespace Sys2Proof.Machine

/-! ## The font blob -/

/-- `F(o)` of `42_font.md` R130, as a number. -/
def fontField (c : Config) (base o : Nat) : Nat := number (fontRead c (base + o))

/-- `fixed`: both bytes of the total-length field are zero (`42_font.md` R130). -/
def fontFixed (c : Config) (base : Nat) : Bool :=
  fontField c base 0 == 0 && fontField c base 1 == 0

/-- `fw`, the fixed width (`42_font.md` R130). -/
def fontFixedWidth (c : Config) (base : Nat) : Nat := fontField c base 2

/-- `h`, the glyph height in pixels (`42_font.md` R130). -/
def fontHeight (c : Config) (base : Nat) : Nat := fontField c base 3

/-- `first`, the first supported character code (`42_font.md` R130). -/
def fontFirst (c : Config) (base : Nat) : Nat := fontField c base 4

/-- `count`, the character count (`42_font.md` R130). -/
def fontCount (c : Config) (base : Nat) : Nat := fontField c base 5

/-- `B = ceil8(h)`, the bytes of one glyph column (`42_font.md` R130). -/
def columnBytes (c : Config) (base : Nat) : Nat := (fontHeight c base + 7) / 8

/-- `wt(k)`, entry `k` of the width table of a variable-width font (`42_font.md` R130). -/
def tableWidth (c : Config) (base k : Nat) : Nat := fontField c base (6 + k)

/-- The sum of the first `n` entries of the width table (`42_font.md` R131, R132). -/
def widthSum (c : Config) (base n : Nat) : Nat :=
  ((List.range n).map fun k => tableWidth c base k).sum

/-- `w`, the width of glyph `k` (`42_font.md` R132). -/
def glyphWidth (c : Config) (base k : Nat) : Nat :=
  if fontFixed c base then fontFixedWidth c base else tableWidth c base k

/-- `off(k)`, where glyph `k` starts in the blob (`42_font.md` R132). -/
def glyphOffset (c : Config) (base k : Nat) : Nat :=
  if fontFixed c base then 6 + k * columnBytes c base * fontFixedWidth c base
  else 6 + fontCount c base + columnBytes c base * widthSum c base k

/-- `colbyte(k, j, i)`: byte `i` of column `j` of glyph `k` (`42_font.md` R132). -/
def columnByte (c : Config) (base k j i : Nat) : Byte :=
  fontRead c (base + (glyphOffset c base k + j * columnBytes c base + i))

/-- `ext`, the number of bytes the blob occupies (`42_font.md` R131). -/
def fontExtent (c : Config) (base : Nat) : Nat :=
  if fontFixed c base then 6 + fontCount c base * columnBytes c base * fontFixedWidth c base
  else 6 + fontCount c base + columnBytes c base * widthSum c base (fontCount c base)

/-- The three bound checks of SELECT_FONT, in order: header, width table, extent (`42_font.md` R131). -/
def fontFits (c : Config) (base : Nat) : Bool :=
  if fontBytes c < base + 6 then false
  else if !fontFixed c base && decide (fontBytes c < base + 6 + fontCount c base) then false
  else decide (base + fontExtent c base ≤ fontBytes c)

/-! ## Measuring -/

/-- A code the font has a glyph for: `first <= code < first + count`, as exact integers
(`42_font.md` R133, R135). -/
def supported (c : Config) (base code : Nat) : Bool :=
  decide (fontFirst c base ≤ code) && decide (code < fontFirst c base + fontCount c base)

/-- `CharWidth(code)` of `42_font.md` R133: a space is measured as 'n', an unknown code has width 0. -/
def charWidthOf (c : Config) (base code : Nat) : Nat :=
  let k := if code = spaceCode then sentinelCode else code
  if supported c base k then glyphWidth c base (k - fontFirst c base) else 0

/-! ## Drawing -/

/-- `Row(i, k)`: the row of bit `k` of byte `i` of a column, where it is defined (`42_font.md` R136). -/
def glyphRow (align : PartialAlign) (h b i k : Nat) : Option Nat :=
  match align with
  | .top => some (8 * i + (7 - k))
  | .bottom =>
    let start := if i = b - 1 ∧ 1 < b then h - 8 else 8 * i
    let r := start + (7 - k)
    if 8 * i ≤ r then some r else none

/-- The `Plot` call of one bit of a glyph column, if its row is defined and passes the closed clip
`[0, h]` (`42_font.md` R135, R137). -/
def glyphBitDot (c : Config) (base : Nat) (x y : Int) (g j i k : Nat) : Option Dot :=
  match glyphRow c.partialAlign (fontHeight c base) (columnBytes c base) i k with
  | some r =>
    if r ≤ fontHeight c base then some ⟨x + j, y + r, (columnByte c base g j i).getLsbD k⟩
    else none
  | none => none

/-- The dots of glyph `g` drawn at `(x, y)`: columns ascending, bytes of a column from the last to the
first, bits from 7 to 0 (`42_font.md` R135, blit). -/
def glyphDots (c : Config) (base : Nat) (x y : Int) (g : Nat) : List Dot :=
  (List.range (glyphWidth c base g)).flatMap fun j =>
    (List.range (columnBytes c base)).reverse.flatMap fun i =>
      (List.range 8).reverse.filterMap fun k => glyphBitDot c base x y g j i k

/-- `DrawChar(x, y, code, mode)` of `42_font.md` R135, its four cases in order: off the canvas, space,
unsupported code, glyph. It answers the framebuffer and the returned width. -/
def drawCharAt (c : Config) (base : Nat) (fb : Memory) (x y : Int) (code : Nat) (mode : Mode) :
    Memory × Int :=
  if (canvasW c : Int) < x ∨ (canvasH c : Int) < y then (fb, -1)
  else if code = spaceCode then
    let w := charWidthOf c base spaceCode
    (drawPoints c .inverse fb (filledBoxPoints x y (x + w) (y + fontHeight c base)), w)
  else if supported c base code = false then (fb, 0)
  else
    let g := code - fontFirst c base
    (plotAll c mode fb (glyphDots c base x y g), glyphWidth c base g)

/-- A blank column of `h + 1` pixels: the leading and the gap columns (`42_font.md` R140). -/
def blankColumn (c : Config) (base : Nat) (fb : Memory) (x y : Int) : Memory :=
  drawPoints c .inverse fb (linePoints x y x (y + fontHeight c base))

/-- The loop of `DrawString` (`42_font.md` R140) over the characters still to draw; `pen` is `x + sw`. -/
def drawChars (c : Config) (base : Nat) (y : Int) (mode : Mode) :
    List Byte → Memory → Int → Memory
  | [], fb, _ => fb
  | code :: rest, fb, pen =>
    let drawn := drawCharAt c base fb pen y (number code) mode
    if 0 < drawn.2 then
      let gapped := blankColumn c base drawn.1 (pen + drawn.2) y
      if (canvasW c : Int) ≤ pen + drawn.2 + 1 then gapped
      else drawChars c base y mode rest gapped (pen + drawn.2 + 1)
    else if drawn.2 < 0 then drawn.1
    else if (canvasW c : Int) ≤ pen then drawn.1
    else drawChars c base y mode rest drawn.1 pen

/-- `DrawString(x, y, text, mode)` of `42_font.md` R140. -/
def drawStringAt (c : Config) (base : Nat) (fb : Memory) (x y : Int) (text : List Byte)
    (mode : Mode) : Memory :=
  if (canvasW c : Int) ≤ x ∨ (canvasH c : Int) ≤ y then fb
  else drawChars c base y mode text (blankColumn c base fb (x - 1) y) x

/-! ## The commands -/

/-- The opening of every command that reads the selected font: without a font the command raises `NoFont`
(`60_exceptions.md` R201); `run` is given the address of the font. A selected font that does not lie in
`FONT` cannot be reached and faults (log entry 6). -/
def withFont (s : State) (run : Nat → State) : Host.Outcome State Fault Refusal :=
  if s.fontValid = false then .next (raise .noFont s)
  else if fontFits s.cfg (address s.fontBase) then .next (run (address s.fontBase))
  else .fault .fontOutOfSpace

/-- SELECT_FONT (`42_font.md` R131). -/
def execSelectFont (base : Half) (s : State) : Host.Outcome State Fault Refusal :=
  if fontFits s.cfg (address base) then .next { s with fontBase := base, fontValid := true }
  else .next (raise .fontBounds s)

/-- CHAR_WIDTH (`42_font.md` R133). -/
def execCharWidth (code : Byte) (s : State) : Host.Outcome State Fault Refusal :=
  withFont s fun base => { s with res := toRes (charWidthOf s.cfg base (number code)) }

/-- DRAW_CHAR (`42_font.md` R135). -/
def execDrawChar (x y : Half) (code : Byte) (mode : Mode) (s : State) :
    Host.Outcome State Fault Refusal :=
  withFont s fun base =>
    let drawn := drawCharAt s.cfg base s.fb (coord x) (coord y) (number code) mode
    { s with fb := drawn.1, res := toRes drawn.2 }

/-- DRAW_STRING (`42_font.md` R140). -/
def execDrawString (x y : Half) (mode : Mode) (text : List Byte) (s : State) :
    Host.Outcome State Fault Refusal :=
  withFont s fun base =>
    { s with fb := drawStringAt s.cfg base s.fb (coord x) (coord y) text mode }

end Sys2Proof.Machine
end

