-- ==== Sys2Proof/Machine/Framebuffer.lean ====
section
/-! DEFINITION. The framebuffer commands SET_PIXEL and CLEAR (`40_framebuffer.md`). -/

namespace Sys2Proof.Machine

/-- CLEAR (`40_framebuffer.md` R94). -/
def execClear (toBlank : Bool) (s : State) : Host.Outcome State Fault Refusal :=
  .next { s with fb := fbFill s.cfg (if toBlank then 0xFF else 0x00) }

/-- SET_PIXEL (`40_framebuffer.md` R93). -/
def execSetPixel (x y : Half) (mode : Mode) (value : Bool) (s : State) :
    Host.Outcome State Fault Refusal :=
  .next { s with fb := plot s.cfg mode s.fb ⟨coord x, coord y, value⟩ }

end Sys2Proof.Machine
end

