-- ==== Sys2Proof/Machine/Marquee.lean ====
section
/-! DEFINITION. The marquee engine (`43_marquee.md`): the text store, the wrap, the one-pixel shifts, the
entering glyph, and the commands MARQUEE_BEGIN and MARQUEE_STEP. -/

namespace Sys2Proof.Machine

/-! ## The text store -/

/-- Write the characters of a text to consecutive addresses of `MQ_TEXT` from `a` (`43_marquee.md` R161). -/
def storeText (mem : Memory) : Nat → List Byte → Memory
  | _, [] => mem
  | a, b :: text => storeText (Memory.write textBlank mem a b) (a + 1) text

/-- `MQ_TEXT[0 .. MQ_LEN-1]`, the characters MARQUEE_STEP reads (`10_state.md` R22). -/
def marqueeText (s : State) : List Byte :=
  (List.range (number s.mqLen)).map fun t => textRead s.mqText t

/-- The total pixel width of a text: the sum of `CharWidth + 1` over all its characters
(`43_marquee.md` R161). -/
def marqueeWidth (c : Config) (base : Nat) (text : List Byte) : Nat :=
  (text.map fun code => charWidthOf c base (number code) + 1).sum

/-! ## The wrap -/

/-- One axis of the wrap of `43_marquee.md` R164: the offset after it, and whether it wrapped. `extent` is
the text's width or height, `edge` the canvas's. -/
def wrapOffset (off extent edge : Int) : Int × Bool :=
  if off < -extent then (edge, true)
  else if edge < off then (-extent, true)
  else (off, false)

/-! ## The shifts -/

/-- Byte `i` after `ShiftLeft`, from the bytes before it (`43_marquee.md` R166). -/
def shiftLeftByte (seg : Nat) (old : Nat → Byte) (i : Nat) : Byte :=
  let cin : Byte := if i % seg = seg - 1 then 1 else old (i + 1) >>> 7
  (old i <<< 1) ||| cin

/-- Byte `i` after `ShiftRight`, from the bytes before it (`43_marquee.md` R166). -/
def shiftRightByte (seg : Nat) (old : Nat → Byte) (i : Nat) : Byte :=
  let cin : Byte := if i % seg = 0 then 1 else old (i - 1) &&& 1
  (old i >>> 1) ||| (cin <<< 7)

/-- `ShiftLeft()` (`43_marquee.md` R166): every byte computed from the old buffer. -/
def shiftLeft (c : Config) (fb : Memory) : Memory :=
  Memory.tabulate fbBlank (fbSize c) (shiftLeftByte (segBytes c) (fbRead fb))

/-- `ShiftRight()` (`43_marquee.md` R166): every byte computed from the old buffer. -/
def shiftRight (c : Config) (fb : Memory) : Memory :=
  Memory.tabulate fbBlank (fbSize c) (shiftRightByte (segBytes c) (fbRead fb))

/-! ## The entering glyph -/

/-- `DrawEntering(edge)` of `43_marquee.md` R167 over the characters still to pass: the first one whose
right end reaches the edge is drawn whole in NORMAL mode. -/
def drawEntering (c : Config) (base : Nat) (fb : Memory) (y edge : Int) :
    Int → List Byte → Memory
  | _, [] => fb
  | pen, code :: rest =>
    let w : Int := charWidthOf c base (number code)
    if edge ≤ pen + w then (drawCharAt c base fb pen y (number code) .normal).1
    else drawEntering c base fb y edge (pen + w + 1) rest

/-- The redraw of MARQUEE_STEP at the offsets `(offX, offY)`, its case chosen by the operands as given
(`43_marquee.md` R162, R165). -/
def marqueeRedraw (c : Config) (base : Nat) (fb : Memory) (text : List Byte)
    (dx dy offX offY : Int) : Memory :=
  if dx = -1 ∧ dy = 0 then
    drawEntering c base (shiftLeft c fb) offY (canvasW c) offX text
  else if dx = 1 ∧ dy = 0 then
    drawEntering c base (shiftRight c fb) offY 0 offX text
  else drawStringAt c base fb offX offY text .normal

/-! ## The commands -/

/-- MARQUEE_BEGIN (`43_marquee.md` R161). -/
def execMarqueeBegin (left top : Half) (text : List Byte) (s : State) :
    Host.Outcome State Fault Refusal :=
  withFont s fun base =>
    { s with
      mqText := storeText s.mqText 0 text
      mqLen := BitVec.ofNat 8 text.length
      mqWidth := toReg (marqueeWidth s.cfg base text)
      mqHeight := toReg (fontHeight s.cfg base)
      mqOffX := toReg (coord left)
      mqOffY := toReg (coord top)
      fb := drawStringAt s.cfg base s.fb (coord left) (coord top) text .normal }

/-- MARQUEE_STEP (`43_marquee.md` R162): advance, wrap horizontally, wrap vertically, redraw, result. -/
def execMarqueeStep (dx dy : Half) (s : State) : Host.Outcome State Fault Refusal :=
  withFont s fun base =>
    let wx := wrapOffset (signedReg s.mqOffX + coord dx) (signedReg s.mqWidth) (canvasW s.cfg)
    let wy := wrapOffset (signedReg s.mqOffY + coord dy) (signedReg s.mqHeight) (canvasH s.cfg)
    let wrapped := wx.2 || wy.2
    let cleared := if wrapped then fbFill s.cfg 0xFF else s.fb
    { s with
      mqOffX := toReg wx.1
      mqOffY := toReg wy.1
      fb := marqueeRedraw s.cfg base cleared (marqueeText s) (coord dx) (coord dy) wx.1 wy.1
      res := toRes (if wrapped then 1 else 0) }

end Sys2Proof.Machine
end

