-- ==== Sys2Proof/Machine/Scan.lean ====
section
/-! DEFINITION. The scan-out command SCAN_STEP (`44_scan.md`). -/

namespace Sys2Proof.Machine

/-- The byte offset of sub-row `k` of a row group from its base: `row1, row2, row3` are those of
`k = 1, 2, 3` (`44_scan.md` R184). -/
def subRow (c : Config) (k : Nat) : Nat := 16 * tiles c * k

/-- The transfer unit of column byte `i` of row group `p` (`44_scan.md` R183, step 2). -/
def transferUnit (c : Config) (fb : Memory) (p i : Nat) : Event :=
  let off := rowBytes c * p
  .xfer (fbRead fb (off + i + subRow c 3)) (fbRead fb (off + i + subRow c 2))
    (fbRead fb (off + i + subRow c 1)) (fbRead fb (off + i))

/-- The transfer units of row group `p`, column by column (`44_scan.md` R183, step 2). -/
def transferUnits (c : Config) (fb : Memory) (p : Nat) : List Event :=
  (List.range (rowBytes c)).map fun i => transferUnit c fb p i

/-- `SCANPHASE <- (p + 1) mod 4` (`44_scan.md` R183, step 5). -/
def advancePhase (s : State) : State := { s with scanPhase := s.scanPhase + 1 }

/-- Steps 2 to 6 of `44_scan.md` R183: transfer, blank, latch pulse, row address, next phase, unblank. -/
def scanOut (s : State) : State :=
  let p := s.scanPhase
  setBlank false (advancePhase (setRowSel p (setLatch false (setLatch true (setBlank true
    (sendUnits (transferUnits s.cfg s.fb p.toNat) s))))))

/-- SCAN_STEP (`44_scan.md` R182, R183): where the gate is built in, `ser_ready` is sampled once, first,
and a step that finds it 0 is skipped whole. -/
def execScanStep (s : State) : Host.Outcome State Fault Refusal :=
  if s.cfg.scanGated then
    if serReadyNow s then .next (scanOut (afterSample s)) else .next (afterSample s)
  else .next (scanOut s)

end Sys2Proof.Machine
end

