-- ==== Sys2Proof/Machine/Dispatch.lean ====
section
/-! DEFINITION. The meaning of each command, one arm a constructor. -/

namespace Sys2Proof.Machine

def exec (i : Instr) (s : State) : Host.Outcome State Fault Refusal :=
  match i with
  | .clear toBlank => Sys2Proof.Machine.execClear toBlank s
  | .setPixel x y mode value => Sys2Proof.Machine.execSetPixel x y mode value s
  | .line x0 y0 x1 y1 mode => Sys2Proof.Machine.execLine x0 y0 x1 y1 mode s
  | .circle xc yc r mode => Sys2Proof.Machine.execCircle xc yc r mode s
  | .box x0 y0 x1 y1 mode => Sys2Proof.Machine.execBox x0 y0 x1 y1 mode s
  | .filledBox x0 y0 x1 y1 mode => Sys2Proof.Machine.execFilledBox x0 y0 x1 y1 mode s
  | .testPattern pattern => Sys2Proof.Machine.execTestPattern pattern s
  | .selectFont base => Sys2Proof.Machine.execSelectFont base s
  | .charWidth code => Sys2Proof.Machine.execCharWidth code s
  | .drawChar x y code mode => Sys2Proof.Machine.execDrawChar x y code mode s
  | .drawString x y mode text => Sys2Proof.Machine.execDrawString x y mode text s
  | .marqueeBegin left top text => Sys2Proof.Machine.execMarqueeBegin left top text s
  | .marqueeStep dx dy => Sys2Proof.Machine.execMarqueeStep dx dy s
  | .scanStep => Sys2Proof.Machine.execScanStep s

end Sys2Proof.Machine
end

