-- ==== Sys2Proof/Machine/Step.lean ====
section
/-! DEFINITION. One step of the block: one turn of the command loop of `30_encoding.md` R81 over the bytes
presented, or one assertion of the reset input, or waiting. -/

namespace Sys2Proof.Machine

/-- One step. Parameters the block cannot be built with are refused (log entry 7). Where the bytes
presented end before or inside a packet, the block takes the next assertion of the reset input if one is
to come (`70_reset_and_hazards.md` R221, log entry 3), and otherwise waits, unchanged
(`30_encoding.md` R61, log entry 2). -/
def step (s : State) : Host.Outcome State Fault Refusal :=
  if s.cfg.wellFormed = false then .refused .illegalConfiguration
  else
    match decode s.input with
    | .incomplete =>
      match s.afterReset with
      | [] => .next s
      | next :: later => .next (takeReset next later s)
    | .illegalOpcode rest => .next (raise .illegalOpcode { s with input := rest })
    | .reservedOperand rest => .next (raise .reservedOperand { s with input := rest })
    | .instr i rest => exec i { s with input := rest }

/-- `s` with an instruction of the opcode table presented on the command port, so that the next step runs
it (log entry 2). -/
def State.withFetchWord (s : State) (nbits w : Nat) : State := { s with input := tableBytes nbits w }

end Sys2Proof.Machine
end

