-- ==== Sys2Proof/Safety.lean ====
section
/-! DEFINITION. What a good state and a good run are, and the terms the statements use: a pixel of the
framebuffer, the truth table of the compositing modes, the picture a primitive leaves. -/

namespace Sys2Proof.Machine

/-! ## Good states -/

/-- `FB` is in canonical form and has no byte at or beyond `FBSIZE` (`10_state.md` R20). -/
abbrev FramebufferOk (s : State) : Prop := Memory.wf fbBlank (fbSize s.cfg) s.fb

/-- `MQ_TEXT` is in canonical form and has no byte at or beyond 255 (`10_state.md` R22). -/
abbrev TextOk (s : State) : Prop := Memory.wf textBlank textSize s.mqText

/-- A selected font lies inside `FONT` (`42_font.md` R131); with none selected `FONTBASE` is at its reset
value, since only SELECT_FONT writes it (`10_state.md` R15). -/
abbrev FontOk (s : State) : Prop :=
  if s.fontValid then fontFits s.cfg (address s.fontBase) = true else s.fontBase = 0

/-- The marquee registers hold what `10_state.md` R16 says they always hold. -/
abbrev MarqueeOk (s : State) : Prop :=
  (0 ≤ signedReg s.mqWidth ∧ signedReg s.mqWidth ≤ 65280) ∧
  (0 ≤ signedReg s.mqHeight ∧ signedReg s.mqHeight ≤ 255) ∧
  (-65280 ≤ signedReg s.mqOffX ∧ signedReg s.mqOffX ≤ 32767) ∧
  (-32768 ≤ signedReg s.mqOffY ∧ signedReg s.mqOffY ≤ 32767)

/-- `RES` holds a width, a wrap report or -1 (`10_state.md` R10). -/
abbrev ResultOk (s : State) : Prop := -1 ≤ s.res.toInt ∧ s.res.toInt ≤ 255

/-- `ERR` holds 0 or the code of a fault; codes 5 to 7 are never recorded (`60_exceptions.md` R201). -/
abbrev ErrorOk (s : State) : Prop := s.err.toNat ≤ 4

/-- Between commands `LATCH` is 0; until the first SCAN_STEP that runs the panel is blanked, phase 0 is due
and nothing has been emitted; after it the panel is lit and `ROWSEL = SCANPHASE - 1` (`44_scan.md` R185,
R187). -/
abbrev LinesOk (s : State) : Prop :=
  s.latch = false ∧
  if s.blank then s.scanPhase = 0 ∧ s.rowSel = 0 ∧ s.out = [] else s.rowSel = s.scanPhase - 1

/-- The invariant of the block: what holds between commands in every state a run can reach. -/
abbrev StateInv (s : State) : Prop :=
  s.cfg.wellFormed = true ∧ FramebufferOk s ∧ TextOk s ∧ FontOk s ∧ MarqueeOk s ∧ ResultOk s ∧
    ErrorOk s ∧ LinesOk s

/-- The selected font can be read: what the five font-reading commands need to run
(`60_exceptions.md` R201, NoFont; `42_font.md` R131). -/
abbrev FontReady (s : State) : Prop :=
  s.fontValid = true ∧ fontFits s.cfg (address s.fontBase) = true

/-! ## Good runs -/

/-- The run from `s` never stops: every number of steps answers a next state. -/
def NeverStops (s : State) : Prop :=
  ∀ n, ∃ t, Host.Core.run Sys2Proof.core n s = .next t

/-! ## Pixels -/

/-- The framebuffer bit of a canvas pixel: 1 = unlit, 0 = lit (`20_memory.md` R41). -/
def pixelBit (c : Config) (fb : Memory) (x y : Nat) : Bool :=
  (fbRead fb (byteIdx c x y)).getLsbD (7 - x % 8)

/-- The truth table of the compositing modes: the new bit from the mode, the value and the old bit
(`40_framebuffer.md` R91). -/
def modeBit : Mode → Bool → Bool → Bool
  | .normal, v, _ => !v
  | .inverse, v, _ => v
  | .toggle, v, b => if v then !b else b
  | .or, v, b => if v then false else b
  | .nor, v, b => if v then false else b

/-- How often a list of points holds the canvas pixel `(x, y)`. -/
def timesPlotted (points : List (Int × Int)) (x y : Nat) : Nat :=
  points.count ((x : Int), (y : Int))

/-! ## What a drawing command does to the picture -/

/-- The framebuffer `fb'` is `fb` after each of the points is plotted with `v = 1` in a mode: a canvas
pixel goes through the mode's truth table once for each time it is plotted, a byte of no plotted canvas
pixel is as it was, and the form stays canonical (`40_framebuffer.md` R92, `41_graphics.md` R110, R111). -/
def DrawsPoints (c : Config) (mode : Mode) (points : List (Int × Int)) (fb fb' : Memory) : Prop :=
  Memory.wf fbBlank (fbSize c) fb' ∧
  (∀ x y, x < canvasW c → y < canvasH c →
    pixelBit c fb' x y = (modeBit mode true)^[timesPlotted points x y] (pixelBit c fb x y)) ∧
  ∀ a, (∀ p ∈ points, onCanvas c p.1 p.2 → a ≠ byteIdx c p.1.toNat p.2.toNat) →
    fbRead fb' a = fbRead fb a

/-- The font bit that row `r` of column `j` of glyph `g` is plotted with; `none` where the row is not
plotted. With `top` the rows run through the bytes of the column; with `bottom` the last byte of a column
of several bytes is anchored to row `h - 1` and owns only the rows the byte before it does not
(`42_font.md` R136, R137). -/
def glyphBitAt (c : Config) (base g j r : Nat) : Option Bool :=
  let h := fontHeight c base
  let b := columnBytes c base
  let straight :=
    if r < 8 * b ∧ r ≤ h then some ((columnByte c base g j (r / 8)).getLsbD (7 - r % 8)) else none
  match c.partialAlign with
  | .top => straight
  | .bottom =>
    if b ≤ 1 then straight
    else if r < 8 * (b - 1) then some ((columnByte c base g j (r / 8)).getLsbD (7 - r % 8))
    else if r < h then some ((columnByte c base g j (b - 1)).getLsbD (h - 1 - r))
    else none

/-! ## The byte stream -/

/-- A packet of an assigned opcode with an operand value that `30_encoding.md` R79 reserves: a nonzero
"must be 0" bit, a mode code 5 to 7, or a pattern above 3. -/
def ReservedPacket (op : Opcode) (p : List Byte) : Prop :=
  match op with
  | .clear => 1 < (byteAt p 1).toNat
  | .setPixel => 16 ≤ (byteAt p 5).toNat ∨ 4 < (byteAt p 5).toNat % 8
  | .line => 4 < (byteAt p 9).toNat
  | .circle => 4 < (byteAt p 7).toNat
  | .box => 4 < (byteAt p 9).toNat
  | .filledBox => 4 < (byteAt p 9).toNat
  | .testPattern => 3 < (byteAt p 1).toNat
  | .selectFont => False
  | .charWidth => False
  | .drawChar => 4 < (byteAt p 6).toNat
  | .drawString => 4 < (byteAt p 5).toNat
  | .marqueeBegin => False
  | .marqueeStep => False
  | .scanStep => False

/-- `p` is one complete packet of the opcode `op` (`30_encoding.md` R61, R81). -/
def CompletePacket (op : Opcode) (p : List Byte) : Prop :=
  p.head? = some op.byte ∧ packetLength op p = some p.length

/-- The stream `s` ends before a packet or inside one: it is empty, or the opcode at its head needs a
length byte or further bytes that are not there (`30_encoding.md` R61, R81). -/
def EndsInsidePacket (s : List Byte) : Prop :=
  s = [] ∨ ∃ op : Opcode, s.head? = some op.byte ∧
    (packetLength op s = none ∨ ∃ n, packetLength op s = some n ∧ s.length < n)

/-- The bytes of the transfer units of an output history, in sending order (`44_scan.md` R181). -/
def bytesSent (events : List Event) : List Byte :=
  events.flatMap fun e =>
    match e with
    | .xfer b0 b1 b2 b3 => [b0, b1, b2, b3]
    | .blank _ => []
    | .latch _ => []
    | .rowSel _ => []

/-- The five commands that read the selected font (`10_state.md` R15). -/
def ReadsFont : Instr → Prop
  | .charWidth _ => True
  | .drawChar _ _ _ _ => True
  | .drawString _ _ _ _ => True
  | .marqueeBegin _ _ _ => True
  | .marqueeStep _ _ => True
  | .clear _ => False
  | .setPixel _ _ _ _ => False
  | .line _ _ _ _ _ => False
  | .circle _ _ _ _ => False
  | .box _ _ _ _ _ => False
  | .filledBox _ _ _ _ _ => False
  | .testPattern _ => False
  | .selectFont _ => False
  | .scanStep => False

end Sys2Proof.Machine
end

