-- ==== Sys2Proof/Certificates/Slice0/Obligations.lean ====
section
/-! DEFINITION. The statements about the model. Each docstring names the rule of spec/ it formalises, or
says what is the model's own choice and which log entry names it. -/

open Sys2Proof Sys2Proof.Machine

/-! ## Encoding (`30_encoding.md`) -/

/-- R62 to R76, R81: the decoder reads back every packet the encoder writes, with every operand at every
value its field admits, and leaves the bytes after it. -/
def Obligations.DecodeInvertsEncode : Prop :=
  ∀ (i : Instr) (rest : List Byte), i.wellFormed = true →
    decode (encode i ++ rest) = .instr i rest

/-- R62 to R79, R81: every command has exactly one packet: what decodes to it is its encoding, no bit of
which is ignored. -/
def Obligations.DecodedPacketIsTheEncoding : Prop :=
  ∀ (s rest : List Byte) (i : Instr), decode s = .instr i rest →
    s = encode i ++ rest ∧ i.wellFormed = true

/-- R84 (its two worked encodings), R62 to R76: packets written out byte by byte decode to their commands,
one of each unit. -/
def Obligations.SpecPacketsDecode : Prop :=
  decode [0x10, 0x00, 0x00, 0x00, 0x00, 0x00, 0x1F, 0x00, 0x00, 0x00] =
    .instr (.line 0 0 31 0 .normal) [] ∧
  decode [0x02, 0xFF, 0xFF, 0x00, 0x05, 0x0A] = .instr (.setPixel (-1) 5 .toggle true) [] ∧
  decode [0x22, 0x00, 0x08, 0x00, 0x04, 0x42, 0x01] = .instr (.drawChar 8 4 0x42 .inverse) [] ∧
  decode [0x30, 0x00, 0x20, 0x00, 0x00, 0x02, 0x48, 0x49, 0x40] =
    .instr (.marqueeBegin 32 0 [0x48, 0x49]) [0x40] ∧
  decode [0x40, 0x01] = .instr .scanStep [0x01]

/-- R78: an unassigned byte in opcode position is consumed alone and records `IllegalOpcode`; nothing else
changes, and the byte after it is the next opcode byte. -/
def Obligations.IllegalOpcodeConsumesOneByte : Prop :=
  ∀ (s : State) (b : Byte) (rest : List Byte), s.cfg.wellFormed = true → s.input = b :: rest →
    b.toNat ∉ [0x01, 0x02, 0x10, 0x11, 0x12, 0x13, 0x14, 0x20, 0x21, 0x22, 0x23, 0x30, 0x31, 0x40] →
    step s = .next { s with input := rest, err := if s.err = 0 then 1 else s.err }

/-- R79: a complete packet with a reserved operand value is consumed whole and records `ReservedOperand`;
nothing else changes. The check is made before any other: no condition on the font is assumed (R205). -/
def Obligations.ReservedOperandConsumesThePacket : Prop :=
  ∀ (s : State) (op : Opcode) (packet rest : List Byte), s.cfg.wellFormed = true →
    CompletePacket op packet → s.input = packet ++ rest → ReservedPacket op packet →
    step s = .next { s with input := rest, err := if s.err = 0 then 2 else s.err }

/-- R81: a complete packet without a reserved operand value decodes to a command, and the bytes after it
are left for the next one. -/
def Obligations.CompletePacketDecodes : Prop :=
  ∀ (op : Opcode) (packet rest : List Byte), CompletePacket op packet →
    ¬ ReservedPacket op packet →
    ∃ i, decode (packet ++ rest) = .instr i rest ∧ encode i = packet

/-- R61: a packet whose bytes have not all arrived has no effect. That the step then answers the same state
is the model's form of waiting (log entry 2). -/
def Obligations.IncompletePacketWaits : Prop :=
  ∀ s : State, s.cfg.wellFormed = true → EndsInsidePacket s.input → s.afterReset = [] →
    step s = .next s

/-! ## Reset and the step (`70_reset_and_hazards.md`) -/

/-- R220: the table of the state after reset, for every choice of the parameters, which reset does not
touch. The packet assembly buffer is the front of `input`. -/
def Obligations.ResetStateIsTheTable : Prop :=
  ∀ c : Config,
    (∀ a, a < 64 * (c.pw * c.ph) → fbRead (State.resetWith c).fb a = 0xFF) ∧
    (∀ a, a < 255 → textRead (State.resetWith c).mqText a = 0x00) ∧
    (State.resetWith c).mqLen = 0 ∧ (State.resetWith c).mqWidth = 0 ∧
    (State.resetWith c).mqHeight = 0 ∧ (State.resetWith c).mqOffX = 0 ∧
    (State.resetWith c).mqOffY = 0 ∧ (State.resetWith c).fontBase = 0 ∧
    (State.resetWith c).fontValid = false ∧ (State.resetWith c).scanPhase = 0 ∧
    (State.resetWith c).blank = true ∧ (State.resetWith c).latch = false ∧
    (State.resetWith c).rowSel = 0 ∧ (State.resetWith c).res = 0 ∧ (State.resetWith c).err = 0 ∧
    (State.resetWith c).out = [] ∧ (State.resetWith c).input = [] ∧ (State.resetWith c).cfg = c

/-- R220, R221: an assertion of the reset input discards a partly received packet and gives every element
of the block's state its reset value; the bytes presented after it come next. How resets and later bytes
stand in the state is the model's choice (log entry 3). -/
def Obligations.ResetInputDiscardsPartialPacket : Prop :=
  ∀ (s : State) (next : List Byte) (later : List (List Byte)), s.cfg.wellFormed = true →
    EndsInsidePacket s.input → s.afterReset = next :: later →
    step s = .next { State.resetWith s.cfg with
      input := next, afterReset := later, serReady := s.serReady, serSamples := s.serSamples }

/-- R60, R81: a step whose presented bytes begin with the packet of a command is that command's meaning,
run on the state whose stream has moved past the packet. -/
def Obligations.StepRunsTheDecodedCommand : Prop :=
  ∀ (s : State) (i : Instr) (rest : List Byte), s.cfg.wellFormed = true →
    decode s.input = .instr i rest → step s = exec i { s with input := rest }

/-- R4, `93_implementation_defined.md` U14: parameters outside the legal values are refused. That the
refusal is the step's is the model's choice (log entry 7). -/
def Obligations.IllegalConfigurationIsRefused : Prop :=
  ∀ s : State,
    ¬ (1 ≤ s.cfg.pw ∧ s.cfg.pw ≤ 1023 ∧ 1 ≤ s.cfg.ph ∧ s.cfg.ph ≤ 2047 ∧
        s.cfg.font.length ≤ 65536) →
    step s = .refused .illegalConfiguration

/-! ## Pixel addressing and the framebuffer (`20_memory.md`, `40_framebuffer.md`) -/

/-- R43: the address translation maps the valid pixels one to one onto the (byte, bit) pairs of the
framebuffer, and pixel (0, 0) of a 1×1 topology to byte 0, bit 0x80. -/
def Obligations.PixelAddressingIsABijection : Prop :=
  ∀ c : Config,
    (∀ x y, x < canvasW c → y < canvasH c →
      byteIdx c x y < fbSize c ∧ ∃ k, k < 8 ∧ bitMask c x y = 0x80#8 >>> k) ∧
    (∀ x y x' y', x < canvasW c → y < canvasH c → x' < canvasW c → y' < canvasH c →
      byteIdx c x y = byteIdx c x' y' → bitMask c x y = bitMask c x' y' → x = x' ∧ y = y') ∧
    (∀ i k, i < fbSize c → k < 8 →
      ∃ x y, x < canvasW c ∧ y < canvasH c ∧ byteIdx c x y = i ∧ bitMask c x y = 0x80#8 >>> k) ∧
    (c.pw = 1 → c.ph = 1 → byteIdx c 0 0 = 0 ∧ bitMask c 0 0 = 0x80)

/-- R91, R92: `Plot` is the identity off the canvas; on it, the plotted pixel follows the truth table of
the mode, and every other pixel and every other byte keeps its value. -/
def Obligations.PlotFollowsTheTruthTable : Prop :=
  ∀ (c : Config) (fb : Memory) (mode : Mode) (x y : Int) (v : Bool),
    Memory.wf fbBlank (fbSize c) fb →
    (¬ onCanvas c x y → plot c mode fb ⟨x, y, v⟩ = fb) ∧
    (onCanvas c x y →
      (∀ px py, px < canvasW c → py < canvasH c →
        pixelBit c (plot c mode fb ⟨x, y, v⟩) px py =
          if x = px ∧ y = py then modeBit mode v (pixelBit c fb px py) else pixelBit c fb px py) ∧
      ∀ a, a ≠ byteIdx c x.toNat y.toNat → fbRead (plot c mode fb ⟨x, y, v⟩) a = fbRead fb a)

/-- R95: TOGGLE with `v = 1` is an involution, the other modes are idempotent, TOGGLE, OR and NOR with
`v = 0` are the identity, NOR is OR, and `Plot` calls on different points commute. -/
def Obligations.PlotLaws : Prop :=
  ∀ (c : Config) (fb : Memory) (d e : Dot) (m : Mode), Memory.wf fbBlank (fbSize c) fb →
    (m = .toggle → d.v = true → plot c m (plot c m fb d) d = fb) ∧
    (m ≠ .toggle → plot c m (plot c m fb d) d = plot c m fb d) ∧
    (m = .toggle ∨ m = .or ∨ m = .nor → d.v = false → plot c m fb d = fb) ∧
    plot c .nor fb d = plot c .or fb d ∧
    (d.x ≠ e.x ∨ d.y ≠ e.y → plot c m (plot c m fb d) e = plot c m (plot c m fb e) d)

/-- R94: CLEAR completes, fills every byte of the framebuffer with 0xFF or 0x00, and changes nothing
else. -/
def Obligations.ClearFillsTheFramebuffer : Prop :=
  ∀ (toBlank : Bool) (s : State), ∃ fb',
    exec (.clear toBlank) s = .next { s with fb := fb' } ∧ Memory.wf fbBlank (fbSize s.cfg) fb' ∧
    ∀ a, a < fbSize s.cfg → fbRead fb' a = if toBlank then 0xFF else 0x00

/-- R93: SET_PIXEL completes at every coordinate; it changes the one pixel it names, if that is on the
canvas, by the truth table of its mode, and no other pixel, no other byte and no other element of state. -/
def Obligations.SetPixelPlotsOnePixel : Prop :=
  ∀ (x y : Half) (mode : Mode) (v : Bool) (s : State), FramebufferOk s →
    ∃ fb', exec (.setPixel x y mode v) s = .next { s with fb := fb' } ∧
      Memory.wf fbBlank (fbSize s.cfg) fb' ∧
      (∀ px py, px < canvasW s.cfg → py < canvasH s.cfg →
        pixelBit s.cfg fb' px py =
          if x.toInt = px ∧ y.toInt = py then modeBit mode v (pixelBit s.cfg s.fb px py)
          else pixelBit s.cfg s.fb px py) ∧
      ∀ a, ¬ (onCanvas s.cfg x.toInt y.toInt ∧
          a = byteIdx s.cfg x.toInt.toNat y.toInt.toNat) → fbRead fb' a = fbRead s.fb a

/-! ## Graphics primitives (`41_graphics.md`) -/

/-- R110 to R118: LINE, CIRCLE, BOX and FILLED_BOX complete with every operand; each passes a canvas pixel
through its mode's truth table once for each time its rule plots it, drops the points off the canvas one
by one, and changes nothing else. -/
def Obligations.PrimitivesDrawTheirPoints : Prop :=
  ∀ (a b c d : Half) (mode : Mode) (s : State), FramebufferOk s →
    (∃ fb', exec (.line a b c d mode) s = .next { s with fb := fb' } ∧
      DrawsPoints s.cfg mode (linePoints a.toInt b.toInt c.toInt d.toInt) s.fb fb') ∧
    (∃ fb', exec (.circle a b c mode) s = .next { s with fb := fb' } ∧
      DrawsPoints s.cfg mode (circlePoints a.toInt b.toInt c.toInt) s.fb fb') ∧
    (∃ fb', exec (.box a b c d mode) s = .next { s with fb := fb' } ∧
      DrawsPoints s.cfg mode (boxPoints a.toInt b.toInt c.toInt d.toInt) s.fb fb') ∧
    (∃ fb', exec (.filledBox a b c d mode) s = .next { s with fb := fb' } ∧
      DrawsPoints s.cfg mode (filledBoxPoints a.toInt b.toInt c.toInt d.toInt) s.fb fb')

/-- R113: a line makes `max(a, b) + 1` `Plot` calls on pairwise different points, from its first end point
to its second, each at most one away from the one before it in each coordinate. -/
def Obligations.LineVisitsEachPointOnce : Prop :=
  ∀ x0 y0 x1 y1 : Int,
    (linePoints x0 y0 x1 y1).length = max (x1 - x0).natAbs (y1 - y0).natAbs + 1 ∧
    (linePoints x0 y0 x1 y1).Nodup ∧
    (linePoints x0 y0 x1 y1).head? = some (x0, y0) ∧
    (linePoints x0 y0 x1 y1).getLast? = some (x1, y1) ∧
    ∀ p q, [p, q] <:+: linePoints x0 y0 x1 y1 →
      (q.1 - p.1).natAbs ≤ 1 ∧ (q.2 - p.2).natAbs ≤ 1

/-- R112, R113: the points of a line in closed form. One step of the major axis a point, the minor axis at
the exact line rounded to the nearest pixel, a half away from the start. -/
def Obligations.LineIsTheRoundedSegment : Prop :=
  ∀ x0 y0 x1 y1 : Int,
    let dx := x1 - x0
    let dy := y1 - y0
    (dy.natAbs < dx.natAbs →
      linePoints x0 y0 x1 y1 = (List.range (dx.natAbs + 1)).map fun (k : Nat) =>
        (x0 + dx.sign * k, y0 + dy.sign * ((2 * dy.natAbs * k + dx.natAbs) / (2 * dx.natAbs) : Nat))) ∧
    (dx.natAbs ≤ dy.natAbs →
      linePoints x0 y0 x1 y1 = (List.range (dy.natAbs + 1)).map fun (k : Nat) =>
        (x0 + dx.sign * ((2 * dx.natAbs * k + dy.natAbs) / (2 * dy.natAbs) : Nat), y0 + dy.sign * k))

/-- R115: the points of a circle are closed under the eight symmetries of the square about its centre, and
for a radius of at least 1 no point is plotted twice; a radius of 0 plots the centre four times and a
negative one the four axis points. -/
def Obligations.CircleIsSymmetricAndDistinct : Prop :=
  ∀ xc yc r : Int,
    (∀ dx dy, (xc + dx, yc + dy) ∈ circlePoints xc yc r →
      (xc - dx, yc + dy) ∈ circlePoints xc yc r ∧ (xc + dx, yc - dy) ∈ circlePoints xc yc r ∧
      (xc + dy, yc + dx) ∈ circlePoints xc yc r) ∧
    (1 ≤ r → (circlePoints xc yc r).Nodup) ∧
    (r = 0 → circlePoints xc yc r = List.replicate 4 (xc, yc)) ∧
    (r < 0 → circlePoints xc yc r =
      [(xc, yc + r), (xc - r, yc), (xc + r, yc), (xc, yc - r)])

/-- R114: the points of a circle of radius at least 1 lie on it to within a pixel (the squared distance from
the centre differs from the squared radius by at most the radius), and it has no gap: every column and,
by the symmetry of the points, every row from `-r` to `r` holds one. -/
def Obligations.CircleFollowsItsRadius : Prop :=
  ∀ xc yc r : Int, 1 ≤ r →
    (∀ dx dy, (xc + dx, yc + dy) ∈ circlePoints xc yc r →
      r * r - r ≤ dx * dx + dy * dy ∧ dx * dx + dy * dy ≤ r * r + r) ∧
    (∀ dx, -r ≤ dx → dx ≤ r → ∃ dy, (xc + dx, yc + dy) ∈ circlePoints xc yc r) ∧
    (∀ dy, -r ≤ dy → dy ≤ r → ∃ dx, (xc + dx, yc + dy) ∈ circlePoints xc yc r)

/-- R116: the points of a box are its outline, whatever the order of its corners; in a box with two
different columns and two different rows each corner is plotted twice and every other point of the outline
once; a box of one point plots it four times. -/
def Obligations.BoxPlotsItsOutline : Prop :=
  ∀ x0 y0 x1 y1 px py : Int,
    ((px, py) ∈ boxPoints x0 y0 x1 y1 ↔
      ((px = x0 ∨ px = x1) ∧ min y0 y1 ≤ py ∧ py ≤ max y0 y1) ∨
      ((py = y0 ∨ py = y1) ∧ min x0 x1 ≤ px ∧ px ≤ max x0 x1)) ∧
    (x0 ≠ x1 → y0 ≠ y1 → (px, py) ∈ boxPoints x0 y0 x1 y1 →
      (boxPoints x0 y0 x1 y1).count (px, py) =
        if (px = x0 ∨ px = x1) ∧ (py = y0 ∨ py = y1) then 2 else 1) ∧
    (x0 = x1 → y0 = y1 → boxPoints x0 y0 x1 y1 = List.replicate 4 (x0, y0))

/-- R118: a filled box plots every pixel from `x0` to `x1` and between `y0` and `y1`, both edges included,
exactly once, and no other; nothing when `x0 > x1`. -/
def Obligations.FilledBoxPlotsEachPixelOnce : Prop :=
  ∀ x0 y0 x1 y1 px py : Int,
    (filledBoxPoints x0 y0 x1 y1).count (px, py) =
      if x0 ≤ px ∧ px ≤ x1 ∧ min y0 y1 ≤ py ∧ py ≤ max y0 y1 then 1 else 0

/-- R120: TEST_PATTERN completes and writes every pixel by its pattern, whatever the framebuffer held: ids
0 and 1 are the checkerboards with pixel (0, 0) unlit and lit, ids 2 and 3 the stripes with column 0 unlit
and lit; nothing else changes. -/
def Obligations.TestPatternWritesEveryPixel : Prop :=
  ∀ (pattern : BitVec 2) (s : State), FramebufferOk s →
    ∃ fb', exec (.testPattern pattern) s = .next { s with fb := fb' } ∧
      Memory.wf fbBlank (fbSize s.cfg) fb' ∧
      ∀ x y, x < canvasW s.cfg → y < canvasH s.cfg →
        lit s.cfg fb' x y =
          (if pattern = 0 then (x + y) % 2 == 1
           else if pattern = 1 then (x + y) % 2 == 0
           else if pattern = 2 then x % 2 == 1
           else x % 2 == 0)

/-- R120: the bytes TEST_PATTERN leaves: 0xAA everywhere for id 2, 0x55 everywhere for id 3, and for the
checkerboards 0xAA and 0x55 by the parity of the framebuffer row. -/
def Obligations.TestPatternBytes : Prop :=
  ∀ (pattern : BitVec 2) (s t : State), FramebufferOk s → exec (.testPattern pattern) s = .next t →
    ∀ a, a < fbSize s.cfg →
      fbRead t.fb a =
        (if pattern = 2 then 0xAA
         else if pattern = 3 then 0x55
         else if pattern = 0 then (if a / rowBytes s.cfg % 2 = 0 then 0xAA else 0x55)
         else (if a / rowBytes s.cfg % 2 = 0 then 0x55 else 0xAA))

/-! ## Fonts and text (`42_font.md`) -/

/-- R131: SELECT_FONT completes: it takes the blob when its header, its width table and its extent lie in
`FONT`, and otherwise records `FontBounds` and keeps the old selection; nothing else changes. `F o` is byte
`o` of the blob. -/
def Obligations.SelectFontChecksTheExtent : Prop :=
  ∀ (base : Half) (s : State),
    let size := s.cfg.font.length
    let b := base.toNat
    let F : Nat → Nat := fun o => (s.cfg.font.getD (b + o) 0).toNat
    let fixed : Prop := F 0 = 0 ∧ F 1 = 0
    let B := (F 3 + 7) / 8
    let sum := ((List.range (F 5)).map fun k => F (6 + k)).sum
    let fits : Prop := b + 6 ≤ size ∧
      (fixed → b + (6 + F 5 * B * F 2) ≤ size) ∧
      (¬ fixed → b + 6 + F 5 ≤ size ∧ b + (6 + F 5 + B * sum) ≤ size)
    (fits → exec (.selectFont base) s = .next { s with fontBase := base, fontValid := true }) ∧
    (¬ fits → exec (.selectFont base) s =
      .next { s with err := if s.err = 0 then 4 else s.err })

/-- R131, R132 (derived there): once a font has been selected, every header byte, every width table entry
and every byte of every glyph column a command can read lies inside `FONT`. -/
def Obligations.SelectedFontReadsInBounds : Prop :=
  ∀ (c : Config) (base : Nat), fontFits c base = true →
    base + 5 < fontBytes c ∧
    ∀ g, g < fontCount c base →
      (fontFixed c base = false → base + (6 + g) < fontBytes c) ∧
      ∀ j i, j < glyphWidth c base g → i < columnBytes c base →
        base + (glyphOffset c base g + j * columnBytes c base + i) < fontBytes c

/-- R133: CHAR_WIDTH completes with a font selected and writes the width of its code to `RES`: a space is
measured as 'n', a code outside the font has width 0, and nothing else changes. -/
def Obligations.CharWidthMeasuresTheCode : Prop :=
  ∀ (code : Byte) (s : State), FontReady s →
    let F : Nat → Nat := fun o => (s.cfg.font.getD (s.fontBase.toNat + o) 0).toNat
    let k := if code = 0x20 then 0x6E else code.toNat
    exec (.charWidth code) s = .next { s with
      res := BitVec.ofNat 16
        (if k < F 4 ∨ F 4 + F 5 ≤ k then 0
         else if F 0 = 0 ∧ F 1 = 0 then F 2
         else F (6 + (k - F 4))) }

/-- R201, R203: without a selected font each of the five font-reading commands records `NoFont` and does
nothing else. -/
def Obligations.NoFontIsRecorded : Prop :=
  ∀ (i : Instr) (s : State), ReadsFont i → s.fontValid = false →
    exec i s = .next { s with err := if s.err = 0 then 3 else s.err }

/-- R135: DRAW_CHAR completes with a font selected. Off the canvas it answers -1 and draws nothing; a space
answers its width and paints its box unlit; an unsupported code answers 0 and draws nothing; any other code
answers the glyph's width. Only the framebuffer and `RES` change. -/
def Obligations.DrawCharAnswersTheAdvance : Prop :=
  ∀ (x y : Half) (code : Byte) (mode : Mode) (s : State), FontReady s → FramebufferOk s →
    let base := s.fontBase.toNat
    ∃ t, exec (.drawChar x y code mode) s = .next t ∧ t = { s with fb := t.fb, res := t.res } ∧
      FramebufferOk t ∧
      if (canvasW s.cfg : Int) < x.toInt ∨ (canvasH s.cfg : Int) < y.toInt then
        t.res = 0xFFFF ∧ t.fb = s.fb
      else if code = 0x20 then
        t.res = BitVec.ofNat 16 (charWidthOf s.cfg base 0x20) ∧
        DrawsPoints s.cfg .inverse
          (filledBoxPoints x.toInt y.toInt (x.toInt + charWidthOf s.cfg base 0x20)
            (y.toInt + fontHeight s.cfg base)) s.fb t.fb
      else if code.toNat < fontFirst s.cfg base ∨
          fontFirst s.cfg base + fontCount s.cfg base ≤ code.toNat then
        t.res = 0 ∧ t.fb = s.fb
      else t.res = BitVec.ofNat 16 (glyphWidth s.cfg base (code.toNat - fontFirst s.cfg base))

/-- R135 to R137: the picture of a drawn glyph. A canvas pixel in a column of the glyph and in a row the
glyph has a bit for is passed through the mode's truth table with that bit; every other canvas pixel keeps
its value, for both settings of `GLYPH_PARTIAL_ALIGN`. -/
def Obligations.GlyphIsBlittedBitByBit : Prop :=
  ∀ (x y : Half) (code : Byte) (mode : Mode) (s t : State), FontReady s → FramebufferOk s →
    x.toInt ≤ canvasW s.cfg → y.toInt ≤ canvasH s.cfg → code ≠ 0x20 →
    fontFirst s.cfg s.fontBase.toNat ≤ code.toNat →
    code.toNat < fontFirst s.cfg s.fontBase.toNat + fontCount s.cfg s.fontBase.toNat →
    exec (.drawChar x y code mode) s = .next t →
    let base := s.fontBase.toNat
    let g := code.toNat - fontFirst s.cfg base
    ∀ px py : Nat, px < canvasW s.cfg → py < canvasH s.cfg →
      pixelBit s.cfg t.fb px py =
        if x.toInt ≤ px ∧ (px : Int) < x.toInt + glyphWidth s.cfg base g ∧ y.toInt ≤ py then
          match glyphBitAt s.cfg base g (px - x.toInt).toNat (py - y.toInt).toNat with
          | some v => modeBit mode v (pixelBit s.cfg s.fb px py)
          | none => pixelBit s.cfg s.fb px py
        else pixelBit s.cfg s.fb px py

/-- R140, R141: DRAW_STRING completes with a font selected and changes only the framebuffer. A start right
of or below the canvas draws nothing. No pixel left of the leading column, above the top row, below row
`y + h` or right of the pen after the last character changes, and the leading column ends unlit. -/
def Obligations.DrawStringStaysInItsStrip : Prop :=
  ∀ (x y : Half) (mode : Mode) (text : List Byte) (s : State), FontReady s → FramebufferOk s →
    let h := fontHeight s.cfg s.fontBase.toNat
    let advance : Nat := (text.map fun code =>
      let w := charWidthOf s.cfg s.fontBase.toNat code.toNat
      if w = 0 then 0 else w + 1).sum
    ∃ fb', exec (.drawString x y mode text) s = .next { s with fb := fb' } ∧
      Memory.wf fbBlank (fbSize s.cfg) fb' ∧
      ((canvasW s.cfg : Int) ≤ x.toInt ∨ (canvasH s.cfg : Int) ≤ y.toInt → fb' = s.fb) ∧
      (x.toInt < canvasW s.cfg → y.toInt < canvasH s.cfg →
        ∀ px py : Nat, px < canvasW s.cfg → py < canvasH s.cfg →
          ((px : Int) < x.toInt - 1 ∨ (py : Int) < y.toInt ∨ y.toInt + h < py ∨
              x.toInt + advance < px →
            pixelBit s.cfg fb' px py = pixelBit s.cfg s.fb px py) ∧
          ((px : Int) = x.toInt - 1 → y.toInt ≤ py → (py : Int) ≤ y.toInt + h →
            pixelBit s.cfg fb' px py = true))

/-- R140: a string of one character is the leading column, the character and, where its width is above 0,
the gap column: the framebuffer after DRAW_STRING is the one after LINE, DRAW_CHAR and LINE, where their
operands fit 16 bits. -/
def Obligations.OneCharacterStringIsLineCharLine : Prop :=
  ∀ (x y : Half) (mode : Mode) (code : Byte) (s : State), FontReady s → s.cfg.wellFormed = true →
    let base := s.fontBase.toNat
    let bottom : Half := BitVec.ofInt 16 (y.toInt + fontHeight s.cfg base)
    x.toInt < canvasW s.cfg → y.toInt < canvasH s.cfg → -32768 < x.toInt →
    x.toInt + 255 ≤ 32767 → y.toInt + fontHeight s.cfg base ≤ 32767 →
    ∃ s1 s2 s3 t,
      exec (.line (x - 1) y (x - 1) bottom .inverse) s = .next s1 ∧
      exec (.drawChar x y code mode) s1 = .next s2 ∧
      exec (.line (x + s2.res) y (x + s2.res) bottom .inverse) s2 = .next s3 ∧
      exec (.drawString x y mode [code]) s = .next t ∧
      t.fb = if s2.res = 0 then s2.fb else s3.fb

/-- R140, R141: a string is drawn character by character, for every length: DRAW_STRING of a text is
DRAW_STRING of its first character followed by DRAW_STRING of the rest at the pen, which has moved by the
character's width and one gap column, or not at all where the width is 0. -/
def Obligations.StringIsDrawnCharacterByCharacter : Prop :=
  ∀ (x y : Half) (mode : Mode) (code : Byte) (rest : List Byte) (s : State), FontReady s →
    FramebufferOk s → x.toInt + 256 ≤ 32767 →
    let w := charWidthOf s.cfg s.fontBase.toNat code.toNat
    let pen : Half := x + BitVec.ofNat 16 (if w = 0 then 0 else w + 1)
    ∃ s1 t, exec (.drawString x y mode [code]) s = .next s1 ∧
      exec (.drawString pen y mode rest) s1 = .next t ∧
      exec (.drawString x y mode (code :: rest)) s = .next t

/-! ## Marquee (`43_marquee.md`) -/

/-- R161: MARQUEE_BEGIN completes with a font selected: it stores the text and keeps the bytes beyond it,
sets the length, the width (the sum of `CharWidth + 1`), the height and the offsets, leaves the framebuffer
DRAW_STRING in NORMAL mode leaves, and changes nothing else. -/
def Obligations.MarqueeBeginStoresMeasuresAndDraws : Prop :=
  ∀ (left top : Half) (text : List Byte) (s : State), FontReady s → TextOk s → text.length ≤ 255 →
    ∃ t u, exec (.marqueeBegin left top text) s = .next t ∧
      exec (.drawString left top .normal text) s = .next u ∧ t.fb = u.fb ∧ TextOk t ∧
      (∀ a, textRead t.mqText a = if a < text.length then text.getD a 0 else textRead s.mqText a) ∧
      t.mqLen.toNat = text.length ∧
      t.mqWidth.toInt =
        ((text.map fun code => charWidthOf s.cfg s.fontBase.toNat code.toNat + 1).sum : Nat) ∧
      t.mqHeight.toInt = fontHeight s.cfg s.fontBase.toNat ∧
      t.mqOffX.toInt = left.toInt ∧ t.mqOffY.toInt = top.toInt ∧
      t = { s with
        fb := t.fb, mqText := t.mqText, mqLen := t.mqLen, mqWidth := t.mqWidth
        mqHeight := t.mqHeight, mqOffX := t.mqOffX, mqOffY := t.mqOffY }

/-- R162 to R164: MARQUEE_STEP completes with a font selected. It advances the offsets, sets one that has
passed a threshold to the opposite edge value, reports in `RES` whether either axis wrapped, leaves the
offsets inside the thresholds, and changes only the offsets, `RES` and the framebuffer. -/
def Obligations.MarqueeStepAdvancesAndWraps : Prop :=
  ∀ (dx dy : Half) (s : State), StateInv s → FontReady s →
    let W : Int := canvasW s.cfg
    let H : Int := canvasH s.cfg
    let w := s.mqWidth.toInt
    let h := s.mqHeight.toInt
    let x := s.mqOffX.toInt + dx.toInt
    let y := s.mqOffY.toInt + dy.toInt
    ∃ t, exec (.marqueeStep dx dy) s = .next t ∧
      t.mqOffX.toInt = (if x < -w then W else if W < x then -w else x) ∧
      t.mqOffY.toInt = (if y < -h then H else if H < y then -h else y) ∧
      t.res = (if (x < -w ∨ W < x) ∨ (y < -h ∨ H < y) then 1 else 0) ∧
      (-w ≤ t.mqOffX.toInt ∧ t.mqOffX.toInt ≤ W ∧ -h ≤ t.mqOffY.toInt ∧ t.mqOffY.toInt ≤ H) ∧
      t = { s with fb := t.fb, res := t.res, mqOffX := t.mqOffX, mqOffY := t.mqOffY }

/-- R165, case 3: any step vector but (-1, 0) and (1, 0) redraws as DRAW_STRING in NORMAL mode does at the
new offsets, on the canvas blanked if the step wrapped and on the canvas as it was if not. -/
def Obligations.GeneralMarqueeStepRedrawsTheString : Prop :=
  ∀ (dx dy : Half) (s t : State), StateInv s → FontReady s →
    ¬ ((dx = -1 ∨ dx = 1) ∧ dy = 0) → exec (.marqueeStep dx dy) s = .next t →
    -32768 ≤ t.mqOffX.toInt →
    ∃ cleared u, exec (.clear true) s = .next cleared ∧
      exec (.drawString (BitVec.ofInt 16 t.mqOffX.toInt) (BitVec.ofInt 16 t.mqOffY.toInt) .normal
        ((List.range s.mqLen.toNat).map fun a => textRead s.mqText a))
        (if t.res = 1 then cleared else s) = .next u ∧
      t.fb = u.fb

/-- R166, R42, R168: what the shifts do to the picture, for every topology. R168 is an inference the spec
marks as its own ("a derivation from the layout, not a statement of the source"), from R166 and R42: after
`ShiftLeft` a pixel shows what was right of it and the last column is unlit; after `ShiftRight` what was
left of it and the first column is unlit. No row takes a pixel from another row. -/
def Obligations.ShiftScrollsThePicture : Prop :=
  ∀ (c : Config) (fb : Memory) (x y : Nat), x < canvasW c → y < canvasH c →
    lit c (shiftLeft c fb) x y = (decide (x + 1 < canvasW c) && lit c fb (x + 1) y) ∧
    lit c (shiftRight c fb) x y = (decide (0 < x) && lit c fb (x - 1) y)

/-- R165, cases 1 and 2, R166, R167: a step by one pixel that does not wrap moves every pixel outside the
rows of the text by one column and blanks the column that enters; with an empty text it does so to every
pixel. -/
def Obligations.OnePixelStepMovesThePicture : Prop :=
  ∀ (left : Bool) (s t : State), StateInv s → FontReady s →
    exec (.marqueeStep (if left then -1 else 1) 0) s = .next t → t.res = 0 →
    ∀ px py : Nat, px < canvasW s.cfg → py < canvasH s.cfg →
      s.mqLen = 0 ∨ (py : Int) < t.mqOffY.toInt ∨
        t.mqOffY.toInt + fontHeight s.cfg s.fontBase.toNat < py →
      lit s.cfg t.fb px py =
        if left then (decide (px + 1 < canvasW s.cfg) && lit s.cfg s.fb (px + 1) py)
        else (decide (0 < px) && lit s.cfg s.fb (px - 1) py)

/-- R165, cases 1 and 2, R167: the glyph a one-pixel step draws. On the shifted canvas (blanked first if the
step wrapped) the first character whose right end reaches the edge, `W` to the left and 0 to the right, is
drawn as DRAW_CHAR in NORMAL mode draws it; where no character does, nothing more is drawn. -/
def Obligations.EnteringGlyphIsDrawnWhole : Prop :=
  ∀ (left : Bool) (s t : State), StateInv s → FontReady s →
    exec (.marqueeStep (if left then -1 else 1) 0) s = .next t →
    let w : Nat → Nat := fun k =>
      charWidthOf s.cfg s.fontBase.toNat (textRead s.mqText k).toNat
    let pen : Nat → Int := fun k =>
      t.mqOffX.toInt + ((List.range k).map fun j => w j + 1).sum
    let edge : Int := if left then canvasW s.cfg else 0
    let canvas := if t.res = 1 then fbFill s.cfg 0xFF else s.fb
    let shifted := if left then shiftLeft s.cfg canvas else shiftRight s.cfg canvas
    (∀ k, k < s.mqLen.toNat → (∀ j, j < k → pen j + w j < edge) → edge ≤ pen k + w k →
      ∃ u, exec (.drawChar (BitVec.ofInt 16 (pen k)) (BitVec.ofInt 16 t.mqOffY.toInt)
          (textRead s.mqText k) .normal) { s with fb := shifted } = .next u ∧ t.fb = u.fb) ∧
    ((∀ j, j < s.mqLen.toNat → pen j + w j < edge) → t.fb = shifted)

/-- R169: the fast path agrees with a full redraw. Where the canvas is blank but for the marquee text at its
offsets, and every character has a width above 0, a step by one pixel that does not wrap leaves what
DRAW_STRING leaves at the new offsets on a blank canvas. By repetition the same holds of any number of
such steps. -/
def Obligations.FastPathAgreesWithRedraw : Prop :=
  ∀ (left : Bool) (s t blank u v : State), StateInv s → FontReady s →
    let text := (List.range s.mqLen.toNat).map fun a => textRead s.mqText a
    (∀ code ∈ text, 0 < charWidthOf s.cfg s.fontBase.toNat code.toNat) →
    -32767 ≤ s.mqOffX.toInt →
    exec (.clear true) s = .next blank →
    exec (.drawString (BitVec.ofInt 16 s.mqOffX.toInt) (BitVec.ofInt 16 s.mqOffY.toInt) .normal
      text) blank = .next u → s.fb = u.fb →
    exec (.marqueeStep (if left then -1 else 1) 0) s = .next t → t.res = 0 →
    exec (.drawString (BitVec.ofInt 16 t.mqOffX.toInt) (BitVec.ofInt 16 t.mqOffY.toInt) .normal
      text) blank = .next v →
    t.fb = v.fb

/-- R22, R161: MARQUEE_STEP never reads a byte of `MQ_TEXT` at or beyond `MQ_LEN`: two states that differ
only there step alike. -/
def Obligations.TextBeyondLengthIsNeverRead : Prop :=
  ∀ (dx dy : Half) (s t : State) (other : Memory),
    (∀ a, a < s.mqLen.toNat → textRead other a = textRead s.mqText a) →
    exec (.marqueeStep dx dy) s = .next t →
    exec (.marqueeStep dx dy) { s with mqText := other } = .next { t with mqText := other }

/-! ## Scan-out (`44_scan.md`) -/

/-- R183: a SCAN_STEP that runs sends the row group that is due, column by column, in the order of the
rule, then blanks, pulses the latch, sets the row address, advances the phase and unblanks, and changes
nothing else; without a gate it always runs, and with one it runs when the sampled level is 1. -/
def Obligations.ScanStepSendsARowGroup : Prop :=
  ∀ s : State,
    let T := s.cfg.pw * s.cfg.ph
    let p := s.scanPhase
    let FB : Nat → Byte := fun a => fbRead s.fb a
    let off := 4 * T * p.toNat
    let events : List Event :=
      (List.range (4 * T)).map (fun i =>
        Event.xfer (FB (off + i + 48 * T)) (FB (off + i + 32 * T)) (FB (off + i + 16 * T))
          (FB (off + i))) ++
      [.blank true, .latch true, .latch false, .rowSel p, .blank false]
    (s.cfg.scanGated = false →
      exec .scanStep s = .next { s with
        scanPhase := p + 1, blank := false, latch := false, rowSel := p, out := s.out ++ events }) ∧
    (∀ more, s.cfg.scanGated = true → s.serReady = true :: more →
      exec .scanStep s = .next { s with
        scanPhase := p + 1, blank := false, latch := false, rowSel := p, out := s.out ++ events
        serReady := more, serSamples := s.serSamples + 1 }) ∧
    events.length = 4 * T + 5

/-- R182: with a gate, a SCAN_STEP that samples 0 is skipped whole and not remembered: only the sample is
used up (log entry 4). Where the run gives no level, the level is the free value, and both of its values
are covered. -/
def Obligations.ClosedGateSkipsTheScanStep : Prop :=
  ∀ s : State, s.cfg.scanGated = true →
    (∀ more, s.serReady = false :: more →
      exec .scanStep s = .next { s with serReady := more, serSamples := s.serSamples + 1 }) ∧
    (s.serReady = [] →
      (Config.serReadyBeyond s.serSamples = false →
        exec .scanStep s = .next { s with serSamples := s.serSamples + 1 }) ∧
      (Config.serReadyBeyond s.serSamples = true →
        exec .scanStep s =
          exec .scanStep { s with serReady := [true] }))

/-- R182, R183, R187: from any phase, four SCAN_STEPs in a row that run come back to that phase and together
send every byte of the framebuffer exactly once, whatever the topology. They run without a gate, and with
one where each of the four samples is 1: a level the run gives or, where it gives none, the free value (log
entry 4). R187 is the spec's own inference from R183. -/
def Obligations.FourScanStepsSendEveryByteOnce : Prop :=
  ∀ s : State,
    (s.cfg.scanGated = true → ∀ k, k < 4 →
      s.serReady.getD k (Config.serReadyBeyond (s.serSamples + k)) = true) →
    ∃ s1 s2 s3 s4 events,
      exec .scanStep s = .next s1 ∧ exec .scanStep s1 = .next s2 ∧
      exec .scanStep s2 = .next s3 ∧ exec .scanStep s3 = .next s4 ∧
      s1.rowSel = s.scanPhase ∧ s2.rowSel = s.scanPhase + 1 ∧ s3.rowSel = s.scanPhase + 2 ∧
      s4.rowSel = s.scanPhase + 3 ∧ s4.scanPhase = s.scanPhase ∧ s4.fb = s.fb ∧
      s4.out = s.out ++ events ∧
      (bytesSent events).Perm ((List.range (fbSize s.cfg)).map fun a => fbRead s.fb a)

/-! ## The whole machine -/

/-- R17, R220: every legally built block satisfies the invariant after reset. -/
def Obligations.ResetSatisfiesTheInvariant : Prop :=
  ∀ c : Config, c.wellFormed = true → StateInv (State.resetWith c)

/-- Every step keeps the invariant: the memories stay canonical and inside their spaces (R20, R22), a
selected font stays readable (R131), the marquee registers stay in their ranges (R16, R164), `RES` and
`ERR` hold values the rules write (R10, R201), and the lines agree with the phase (R185, R187). -/
def Obligations.StepKeepsTheInvariant : Prop :=
  ∀ s t : State, StateInv s → step s = .next t → StateInv t

/-- R203, R238: the block never stops. From every state that satisfies the invariant, whatever bytes,
resets and levels are presented, every number of steps answers a next state: the model's own fault and
refusals are never reached. -/
def Obligations.GoodStatesNeverStop : Prop := ∀ s : State, StateInv s → NeverStops s

/-- R201, R203: a command stops only where it reads a font that does not lie in `FONT` (the model's own
fault, log entry 6), and no command is refused. -/
def Obligations.OnlyAnUnreadableFontStops : Prop :=
  ∀ (i : Instr) (s : State),
    (∀ r, exec i s ≠ .refused r) ∧
    ((∃ f, exec i s = .fault f) ↔
      ReadsFont i ∧ s.fontValid = true ∧ fontFits s.cfg s.fontBase.toNat = false)

/-- R12, R203: `ERR` is sticky: a step that finds it nonzero leaves it, unless the step is a reset. -/
def Obligations.FirstFaultIsKept : Prop :=
  ∀ s t : State, step s = .next t → s.err ≠ 0 →
    t.err = s.err ∨
      (EndsInsidePacket s.input ∧ s.afterReset ≠ [] ∧ t.err = 0)

/-- R12: no command's effect depends on `ERR`: whatever it holds, a command that completes completes alike
in everything but `ERR` itself. -/
def Obligations.CommandsIgnoreTheFaultRegister : Prop :=
  ∀ (i : Instr) (s t : State) (e : BitVec 3), exec i s = .next t →
    ∃ e', exec i { s with err := e } = .next { t with err := e' }

/-- R204: a command that records a fault changes nothing but `ERR`. -/
def Obligations.FaultingCommandChangesOnlyErr : Prop :=
  ∀ (i : Instr) (s t : State), exec i s = .next t → t.err ≠ s.err → t = { s with err := t.err }

/-- R14, R24, R187: no command but SCAN_STEP changes the phase, the output lines or the output history,
and SCAN_STEP changes no memory, no result, no fault register, no font selection and no marquee
register. -/
def Obligations.OnlyScanStepDrivesTheLines : Prop :=
  ∀ (i : Instr) (s t : State), exec i s = .next t →
    (i ≠ .scanStep → t.scanPhase = s.scanPhase ∧ t.blank = s.blank ∧ t.latch = s.latch ∧
      t.rowSel = s.rowSel ∧ t.out = s.out ∧ t.serReady = s.serReady ∧
      t.serSamples = s.serSamples) ∧
    (i = .scanStep → t = { s with
      scanPhase := t.scanPhase, blank := t.blank, latch := t.latch, rowSel := t.rowSel
      out := t.out, serReady := t.serReady, serSamples := t.serSamples })

/-- R10, R15, R16, R21: who writes what. `RES` is written by CHAR_WIDTH, DRAW_CHAR and MARQUEE_STEP only,
the font selection by SELECT_FONT only, the marquee text, length, width and height by MARQUEE_BEGIN only
and the offsets by the two marquee commands only; no command writes the parameters, the font or the
stream. -/
def Obligations.RegistersHaveTheirWriters : Prop :=
  ∀ (i : Instr) (s t : State), exec i s = .next t →
    (t.res ≠ s.res → (∃ c, i = .charWidth c) ∨ (∃ x y c m, i = .drawChar x y c m) ∨
      ∃ dx dy, i = .marqueeStep dx dy) ∧
    (t.fontBase ≠ s.fontBase ∨ t.fontValid ≠ s.fontValid → ∃ b, i = .selectFont b) ∧
    (t.mqText ≠ s.mqText ∨ t.mqLen ≠ s.mqLen ∨ t.mqWidth ≠ s.mqWidth ∨ t.mqHeight ≠ s.mqHeight →
      ∃ l u text, i = .marqueeBegin l u text) ∧
    (t.mqOffX ≠ s.mqOffX ∨ t.mqOffY ≠ s.mqOffY →
      (∃ l u text, i = .marqueeBegin l u text) ∨ ∃ dx dy, i = .marqueeStep dx dy) ∧
    t.cfg = s.cfg ∧ t.input = s.input ∧ t.afterReset = s.afterReset
end

