-- ==== Sys2Proof/Laws/Encode.lean ====
section
/-! SUPPORT. Laws of the packet fields: reading back what the encoder writes. -/

namespace Sys2Proof

@[simp] theorem half_of_bytes (h : Half) : h.extractLsb' 8 8 ++ h.extractLsb' 0 8 = h := by
  apply BitVec.eq_of_getLsbD_eq
  intro i hi
  simp only [BitVec.getLsbD_append, BitVec.getLsbD_extractLsb']
  by_cases h8 : i < 8
  · simp [h8]
  · simp [h8, show i - 8 < 8 by omega, show 8 + (i - 8) = i by omega]

@[simp] theorem modeOfByte_modeByte (m : Mode) : modeOfByte (modeByte m) = some m := by
  cases m <;> rfl

@[simp] theorem modeValueOfByte_modeValueByte (m : Mode) (v : Bool) :
    modeValueOfByte (modeValueByte m v) = some (m, v) := by
  cases m <;> cases v <;> rfl

@[simp] theorem flagOfByte_flag (f : Bool) :
    flagOfByte ((0 : BitVec 7) ++ BitVec.ofBool f) = some f := by cases f <;> rfl

@[simp] theorem patternOfByte_pattern (k : BitVec 2) :
    patternOfByte ((0 : BitVec 6) ++ k) = some k := by
  have : ∀ k : BitVec 2, patternOfByte ((0 : BitVec 6) ++ k) = some k := by decide
  exact this k

@[simp] theorem ofByte_byte (op : Opcode) : Opcode.ofByte op.byte = some op := by cases op <;> rfl

/-- An assigned byte is the byte of its opcode. -/
theorem byte_of_ofByte {b : Byte} {op : Opcode} (h : Opcode.ofByte b = some op) : op.byte = b := by
  have := List.find?_some h
  simpa using this

theorem hasBytes_iff {n : Nat} {s : List Byte} : hasBytes n s = true ↔ n ≤ s.length := by
  induction n generalizing s with
  | zero => simp [hasBytes]
  | succ n ih => cases s <;> simp [hasBytes, ih]

theorem length_byte {text : List Byte} (h : text.length ≤ 255) :
    (BitVec.ofNat 8 text.length).toNat = text.length := by
  simp; omega

end Sys2Proof
end

