-- ==== Sys2Proof/Laws/Memory.lean ====
section
/-! SUPPORT. Laws of the sparse memories: what each operation reads as afterwards, that each keeps the
canonical form, and that canonical memories which read alike are equal. -/

namespace Sys2Proof.Machine

/-- Strictly rising addresses, the half of `Memory.wf` that reading needs. -/
abbrev Memory.sorted (m : Memory) : Prop := m.Pairwise fun p q => p.1 < q.1

@[simp] theorem Memory.read_nil (d : Byte) (a : Nat) : Memory.read d [] a = d := rfl

theorem Memory.wf_nil (d : Byte) (size : Nat) : Memory.wf d size [] := by simp [Memory.wf]

/-- Below its first address a memory holds nothing. -/
theorem Memory.read_of_lt {d : Byte} {m : Memory} {a : Nat} (h : ∀ cell ∈ m, a < cell.1) :
    Memory.read d m a = d := by
  cases m with
  | nil => rfl
  | cons cell m => simp [Memory.read, h cell (by simp)]

theorem Memory.read_cons {d : Byte} {a : Nat} {v : Byte} {m : Memory} (h : ∀ cell ∈ m, a < cell.1)
    (b : Nat) : Memory.read d (Memory.cons d a v m) b = if b = a then v else Memory.read d m b := by
  unfold Memory.cons
  by_cases hv : v = d
  · by_cases hb : b = a
    · subst hb; simp [hv, Memory.read_of_lt h]
    · simp [hv, hb]
  · simp only [hv, if_false, Memory.read]
    by_cases hlt : b < a
    · rw [if_pos hlt, if_neg (by omega),
        Memory.read_of_lt fun cell hc => Nat.lt_trans hlt (h cell hc)]
    · simp [hlt]

theorem Memory.mem_cons {d : Byte} {a : Nat} {v : Byte} {m : Memory} {cell : Host.Cell} :
    cell ∈ Memory.cons d a v m ↔ (v ≠ d ∧ cell = (a, v)) ∨ cell ∈ m := by
  unfold Memory.cons; split <;> simp_all

theorem Memory.wf_cons {d : Byte} {size a : Nat} {v : Byte} {m : Memory}
    (hm : Memory.wf d size m) (h : ∀ cell ∈ m, a < cell.1) (ha : a < size) :
    Memory.wf d size (Memory.cons d a v m) := by
  refine ⟨?_, fun cell hc => ?_⟩
  · unfold Memory.cons
    split
    · exact hm.1
    · exact List.pairwise_cons.mpr ⟨h, hm.1⟩
  · rcases Memory.mem_cons.mp hc with ⟨hv, rfl⟩ | hc
    · exact ⟨hv, ha⟩
    · exact hm.2 cell hc

theorem Memory.wf_tail {d : Byte} {size : Nat} {cell : Host.Cell} {m : Memory}
    (h : Memory.wf d size (cell :: m)) : Memory.wf d size m :=
  ⟨(List.pairwise_cons.mp h.1).2, fun c hc => h.2 c (by simp [hc])⟩

/-- What a one-byte read-modify-write leaves: the byte at its address replaced, every other as it was. -/
theorem Memory.read_modify {d : Byte} {m : Memory} (h : Memory.sorted m) (f : Byte → Byte)
    (a b : Nat) :
    Memory.read d (Memory.modify d f a m) b =
      if b = a then f (Memory.read d m a) else Memory.read d m b := by
  induction m with
  | nil => simp [Memory.modify, Memory.read_cons]
  | cons cell m ih =>
    obtain ⟨hfirst, hrest⟩ := List.pairwise_cons.mp h
    simp only [Memory.modify]
    split
    case isTrue hlt =>
      rw [Memory.read_cons (by
        intro c hc; rcases List.mem_cons.mp hc with rfl | hc
        · exact hlt
        · exact Nat.lt_trans hlt (hfirst c hc))]
      simp [Memory.read, hlt]
    case isFalse hge =>
      split
      case isTrue heq =>
        subst heq
        rw [Memory.read_cons hfirst]
        by_cases hb : b = cell.1
        · simp [hb, Memory.read]
        · simp only [hb, if_false, Memory.read]
          by_cases hlt : b < cell.1
          · rw [if_pos hlt, Memory.read_of_lt fun c hc => Nat.lt_trans hlt (hfirst c hc)]
          · simp [hlt]
      case isFalse hne =>
        simp only [Memory.read, ih hrest]
        by_cases hb : b = a
        · subst hb; simp [hge, hne]
        · simp [hb]

/-- Where the modified addresses come from. -/
theorem Memory.modify_addresses {d : Byte} {f : Byte → Byte} {a : Nat} {m : Memory}
    {cell : Host.Cell} (h : cell ∈ Memory.modify d f a m) :
    cell.1 = a ∨ cell ∈ m := by
  induction m with
  | nil =>
    simp only [Memory.modify] at h
    rcases Memory.mem_cons.mp h with ⟨-, rfl⟩ | h
    · exact .inl rfl
    · simp at h
  | cons c m ih =>
    simp only [Memory.modify] at h
    split at h
    · rcases Memory.mem_cons.mp h with ⟨-, rfl⟩ | h
      · exact .inl rfl
      · exact .inr h
    · split at h
      · rcases Memory.mem_cons.mp h with ⟨-, rfl⟩ | h
        · exact .inl rfl
        · exact .inr (by simp [h])
      · rcases List.mem_cons.mp h with rfl | h
        · exact .inr (by simp)
        · rcases ih h with h | h
          · exact .inl h
          · exact .inr (by simp [h])

/-- A read-modify-write inside the memory keeps the canonical form. -/
theorem Memory.wf_modify {d : Byte} {size : Nat} {m : Memory} (h : Memory.wf d size m)
    (f : Byte → Byte) {a : Nat} (ha : a < size) : Memory.wf d size (Memory.modify d f a m) := by
  induction m with
  | nil => exact Memory.wf_cons (Memory.wf_nil d size) (by simp) ha
  | cons cell m ih =>
    obtain ⟨hfirst, -⟩ := List.pairwise_cons.mp h.1
    simp only [Memory.modify]
    split
    case isTrue hlt =>
      refine Memory.wf_cons h (fun c hc => ?_) ha
      rcases List.mem_cons.mp hc with rfl | hc
      · exact hlt
      · exact Nat.lt_trans hlt (hfirst c hc)
    case isFalse hge =>
      split
      case isTrue heq =>
        subst heq
        exact Memory.wf_cons (Memory.wf_tail h) hfirst ha
      case isFalse hne =>
        have hm := ih (Memory.wf_tail h)
        refine ⟨List.pairwise_cons.mpr ⟨fun c hc => ?_, hm.1⟩, fun c hc => ?_⟩
        · rcases Memory.modify_addresses hc with hca | hc
          · omega
          · exact hfirst c hc
        · rcases List.mem_cons.mp hc with rfl | hc
          · exact h.2 c (by simp)
          · exact hm.2 c hc

/-- A write leaves the byte written, and every other byte as it was. -/
theorem Memory.read_write {d : Byte} {m : Memory} (h : Memory.sorted m) (a b : Nat) (v : Byte) :
    Memory.read d (Memory.write d m a v) b = if b = a then v else Memory.read d m b :=
  Memory.read_modify h _ a b

/-- A write inside the memory keeps the canonical form. -/
theorem Memory.wf_write {d : Byte} {size : Nat} {m : Memory} (h : Memory.wf d size m) {a : Nat}
    (ha : a < size) (v : Byte) : Memory.wf d size (Memory.write d m a v) :=
  Memory.wf_modify h _ ha

theorem Memory.read_append {d : Byte} {m : Memory} {a b : Nat} {v : Byte}
    (h : ∀ cell ∈ m, cell.1 < a) :
    Memory.read d (m ++ [(a, v)]) b = if b = a then v else Memory.read d m b := by
  induction m with
  | nil =>
    simp only [List.nil_append, Memory.read]
    by_cases hlt : b < a
    · simp [hlt, Nat.ne_of_lt hlt]
    · simp [hlt]
  | cons cell m ih =>
    have hc := h cell (by simp)
    simp only [List.cons_append, Memory.read, ih fun c hc => h c (by simp [hc])]
    by_cases hb : b = a
    · subst hb; simp [Nat.not_lt.mpr (Nat.le_of_lt hc), Nat.ne_of_gt hc]
    · simp [hb]

theorem Memory.tabulate_succ (d : Byte) (n : Nat) (f : Nat → Byte) :
    Memory.tabulate d (n + 1) f =
      Memory.tabulate d n f ++ if f n = d then [] else [(n, f n)] := by
  simp only [Memory.tabulate, List.range_succ, List.filterMap_append, List.filterMap_cons,
    List.filterMap_nil]
  split <;> split <;> simp_all

theorem Memory.tabulate_lt {d : Byte} {n : Nat} {f : Nat → Byte} {cell : Host.Cell}
    (h : cell ∈ Memory.tabulate d n f) : cell.1 < n := by
  obtain ⟨a, ha, hcell⟩ := List.mem_filterMap.mp h
  have ha := List.mem_range.mp ha
  split at hcell
  · simp at hcell
  · cases hcell; exact ha

/-- A tabulated memory holds the function's values, and nothing beyond its size. -/
theorem Memory.read_tabulate (d : Byte) (n : Nat) (f : Nat → Byte) (a : Nat) :
    Memory.read d (Memory.tabulate d n f) a = if a < n then f a else d := by
  induction n with
  | zero => simp [Memory.tabulate]
  | succ n ih =>
    rw [Memory.tabulate_succ]
    by_cases hf : f n = d
    · rw [if_pos hf, List.append_nil, ih]
      by_cases ha : a = n
      · subst ha; simp [hf]
      · by_cases hlt : a < n
        · rw [if_pos hlt, if_pos (by omega)]
        · rw [if_neg hlt, if_neg (by omega)]
    · rw [if_neg hf, Memory.read_append fun cell hc => Memory.tabulate_lt hc, ih]
      by_cases ha : a = n
      · subst ha; simp
      · by_cases hlt : a < n
        · rw [if_neg ha, if_pos hlt, if_pos (by omega)]
        · rw [if_neg ha, if_neg hlt, if_neg (by omega)]

/-- A tabulated memory has the canonical form. -/
theorem Memory.wf_tabulate (d : Byte) (n : Nat) (f : Nat → Byte) :
    Memory.wf d n (Memory.tabulate d n f) := by
  induction n with
  | zero => simp [Memory.tabulate, Memory.wf]
  | succ n ih =>
    rw [Memory.tabulate_succ]
    refine ⟨List.pairwise_append.mpr ⟨ih.1, ?_, fun p hp q hq => ?_⟩, fun cell hc => ?_⟩
    · split <;> simp
    · split at hq
      · simp at hq
      · cases List.mem_singleton.mp hq; exact Memory.tabulate_lt hp
    · rcases List.mem_append.mp hc with hc | hc
      · exact ⟨(ih.2 cell hc).1, Nat.lt_succ_of_lt (ih.2 cell hc).2⟩
      · split at hc
        · simp at hc
        · rename_i hf
          cases List.mem_singleton.mp hc; exact ⟨hf, Nat.lt_succ_self n⟩

/-- Beyond its size a canonical memory reads as unlisted. -/
theorem Memory.read_beyond {d : Byte} {size : Nat} {m : Memory} (h : Memory.wf d size m) {a : Nat}
    (ha : size ≤ a) : Memory.read d m a = d := by
  induction m with
  | nil => rfl
  | cons cell m ih =>
    have := (h.2 cell (by simp)).2
    simp only [Memory.read, ih (Memory.wf_tail h)]
    rw [if_neg (by omega), if_neg (by omega)]

/-- Equal memories are equal data: two canonical memories that read alike are the same list. -/
theorem Memory.ext_of_read {d : Byte} {size : Nat} {m n : Memory} (hm : Memory.wf d size m)
    (hn : Memory.wf d size n) (h : ∀ a, Memory.read d m a = Memory.read d n a) : m = n := by
  have first : ∀ {cell : Host.Cell} {r : Memory}, Memory.wf d size (cell :: r) →
      Memory.read d (cell :: r) cell.1 ≠ d := fun hw => by
    simpa [Memory.read] using (hw.2 _ (by simp)).1
  have below : ∀ {cell : Host.Cell} {r : Memory} {a : Nat}, Memory.wf d size (cell :: r) →
      a < cell.1 → Memory.read d (cell :: r) a = d := fun _ ha => by simp [Memory.read, ha]
  induction m generalizing n with
  | nil =>
    cases n with
    | nil => rfl
    | cons q n => exact absurd (h q.1).symm (first hn)
  | cons p m ih =>
    cases n with
    | nil => exact absurd (h p.1) (first hm)
    | cons q n =>
      have hpq : p.1 = q.1 := by
        rcases Nat.lt_trichotomy p.1 q.1 with hlt | heq | hgt
        · exact absurd ((h p.1).trans (below hn hlt)) (first hm)
        · exact heq
        · exact absurd ((h q.1).symm.trans (below hm hgt)) (first hn)
      have hv : p.2 = q.2 := by have := h p.1; simpa [Memory.read, hpq] using this
      have hpq' : p = q := Prod.ext hpq hv
      subst hpq'
      have hm1 := (List.pairwise_cons.mp hm.1).1
      have hn1 := (List.pairwise_cons.mp hn.1).1
      congr 1
      refine ih (Memory.wf_tail hm) (Memory.wf_tail hn) fun a => ?_
      by_cases ha : p.1 < a
      · have := h a
        simpa [Memory.read, Nat.not_lt.mpr (Nat.le_of_lt ha), Nat.ne_of_gt ha] using this
      · rw [Memory.read_of_lt fun c hc => Nat.lt_of_le_of_lt (Nat.not_lt.mp ha) (hm1 c hc),
          Memory.read_of_lt fun c hc => Nat.lt_of_le_of_lt (Nat.not_lt.mp ha) (hn1 c hc)]

end Sys2Proof.Machine
end

