-- ==== Sys2Proof/Laws/PerInstr.lean ====
section
/-! SUPPORT. One lemma an instruction: the packet the encoder writes has the opcode, the length and the
fields its format gives it (`30_encoding.md` R66 to R76). -/

namespace Sys2Proof.Laws.PacketShape

/-- The packet of a well-formed instruction begins with an assigned opcode, has the length the decoder
expects of that opcode, and parses back to the instruction. -/
def Statement (i : Instr) : Prop :=
  i.wellFormed = true → ∃ op : Opcode,
    (encode i).head? = some op.byte ∧ packetLength op (encode i) = some (encode i).length ∧
      parsePacket op (encode i) = some i

theorem clear (toBlank : Bool) : Statement (.clear toBlank) :=
  fun _ => ⟨.clear, rfl, rfl, by
    show (flagOfByte ((0 : BitVec 7) ++ BitVec.ofBool toBlank)).map _ = _
    rw [flagOfByte_flag]; rfl⟩

theorem setPixel (x y : Half) (mode : Mode) (value : Bool) :
    Statement (.setPixel x y mode value) :=
  fun _ => ⟨.setPixel, rfl, rfl, by simp [encode, parsePacket, byteAt, halfAt, halfBytes]⟩

theorem line (x0 y0 x1 y1 : Half) (mode : Mode) : Statement (.line x0 y0 x1 y1 mode) :=
  fun _ => ⟨.line, rfl, rfl, by simp [encode, parsePacket, byteAt, halfAt, halfBytes]⟩

theorem circle (xc yc r : Half) (mode : Mode) : Statement (.circle xc yc r mode) :=
  fun _ => ⟨.circle, rfl, rfl, by simp [encode, parsePacket, byteAt, halfAt, halfBytes]⟩

theorem box (x0 y0 x1 y1 : Half) (mode : Mode) : Statement (.box x0 y0 x1 y1 mode) :=
  fun _ => ⟨.box, rfl, rfl, by simp [encode, parsePacket, byteAt, halfAt, halfBytes]⟩

theorem filledBox (x0 y0 x1 y1 : Half) (mode : Mode) : Statement (.filledBox x0 y0 x1 y1 mode) :=
  fun _ => ⟨.filledBox, rfl, rfl, by simp [encode, parsePacket, byteAt, halfAt, halfBytes]⟩

theorem testPattern (pattern : BitVec 2) : Statement (.testPattern pattern) :=
  fun _ => ⟨.testPattern, rfl, rfl, by
    show (patternOfByte ((0 : BitVec 6) ++ pattern)).map _ = _
    rw [patternOfByte_pattern]; rfl⟩

theorem selectFont (base : Half) : Statement (.selectFont base) :=
  fun _ => ⟨.selectFont, rfl, rfl, by simp [encode, parsePacket, byteAt, halfAt, halfBytes]⟩

theorem charWidth (code : Byte) : Statement (.charWidth code) :=
  fun _ => ⟨.charWidth, rfl, rfl, rfl⟩

theorem drawChar (x y : Half) (code : Byte) (mode : Mode) : Statement (.drawChar x y code mode) :=
  fun _ => ⟨.drawChar, rfl, rfl, by simp [encode, parsePacket, byteAt, halfAt, halfBytes]⟩

theorem drawString (x y : Half) (mode : Mode) (text : List Byte) :
    Statement (.drawString x y mode text) := fun h => by
  have hlen : text.length ≤ 255 := by simpa [Instr.wellFormed] using h
  refine ⟨.drawString, rfl, ?_, by simp [encode, parsePacket, byteAt, halfAt, halfBytes]⟩
  show some (7 + (BitVec.ofNat 8 text.length).toNat) = some _
  rw [length_byte hlen]
  simp [encode, halfBytes]; omega

theorem marqueeBegin (left top : Half) (text : List Byte) :
    Statement (.marqueeBegin left top text) := fun h => by
  have hlen : text.length ≤ 255 := by simpa [Instr.wellFormed] using h
  refine ⟨.marqueeBegin, rfl, ?_, by simp [encode, parsePacket, byteAt, halfAt, halfBytes]⟩
  show some (6 + (BitVec.ofNat 8 text.length).toNat) = some _
  rw [length_byte hlen]
  simp [encode, halfBytes]; omega

theorem marqueeStep (dx dy : Half) : Statement (.marqueeStep dx dy) :=
  fun _ => ⟨.marqueeStep, rfl, rfl, by simp [encode, parsePacket, byteAt, halfAt, halfBytes]⟩

theorem scanStep : Statement .scanStep := fun _ => ⟨.scanStep, rfl, rfl, rfl⟩

end Sys2Proof.Laws.PacketShape
end

