-- ==== Sys2Proof/Laws/Pixels.lean ====
section
/-! SUPPORT. Laws of the address translation (`20_memory.md`) and of the pixel operation `Plot`
(`40_framebuffer.md`): where a pixel lies, what a `Plot` leaves, and that drawing keeps the framebuffer's
canonical form. -/

namespace Sys2Proof.Machine

/-- The framebuffer of a block built with `c` is in canonical form. -/
abbrev fbWf (c : Config) (fb : Memory) : Prop := Memory.wf fbBlank (fbSize c) fb

/-! ## Addresses -/

theorem unrolledX_div (c : Config) (x y : Nat) :
    unrolledX c x y / 8 = x / 8 + y / 16 * (4 * c.pw) := by
  have : unrolledX c x y = x + 8 * (y / 16 * (4 * c.pw)) := by
    unfold unrolledX panelOf
    have hx := Nat.div_add_mod x 32
    have hc : c.pw * (y / 16) * 32 = 8 * (y / 16 * (4 * c.pw)) := by ring
    omega
  rw [this, Nat.add_mul_div_left _ _ (by decide)]

theorem unrolledX_mod (c : Config) (x y : Nat) : unrolledX c x y % 8 = x % 8 := by
  have : unrolledX c x y = x % 32 + 8 * (4 * panelOf c x y) := by unfold unrolledX; omega
  rw [this, Nat.add_mul_mod_self_left]; omega

/-- The byte of every canvas pixel is inside the framebuffer (`20_memory.md` R43). -/
theorem byteIdx_lt {c : Config} {x y : Nat} (hx : x < canvasW c) (hy : y < canvasH c) :
    byteIdx c x y < fbSize c := by
  unfold canvasW at hx; unfold canvasH at hy
  have hrow : (y / 16 + 1) * (4 * c.pw) ≤ c.ph * (4 * c.pw) :=
    Nat.mul_le_mul_right _ (by omega)
  have htile : y % 16 * (tiles c * 4) ≤ 15 * (tiles c * 4) := Nat.mul_le_mul_right _ (by omega)
  have hT : c.ph * (4 * c.pw) = 4 * tiles c := by unfold tiles; ring
  rw [Nat.add_mul, one_mul] at hrow
  unfold byteIdx fbSize
  rw [unrolledX_div]
  omega

/-! ## Fill -/

theorem fbRead_fbFill (c : Config) (v : Byte) (a : Nat) :
    fbRead (fbFill c v) a = if a < fbSize c then v else fbBlank :=
  Memory.read_tabulate _ _ _ _

theorem fbWf_fbFill (c : Config) (v : Byte) : fbWf c (fbFill c v) := Memory.wf_tabulate _ _ _

/-! ## Plot -/

/-- Off the canvas `Plot` changes nothing (`40_framebuffer.md` R92, the clip). -/
theorem plot_off {c : Config} {mode : Mode} {fb : Memory} {dot : Dot}
    (h : ¬ onCanvas c dot.x dot.y) : plot c mode fb dot = fb := if_neg h

/-- What a `Plot` on the canvas leaves, byte by byte (`40_framebuffer.md` R92). -/
theorem fbRead_plot {c : Config} {mode : Mode} {fb : Memory} {dot : Dot} (hfb : fbWf c fb)
    (h : onCanvas c dot.x dot.y) (a : Nat) :
    fbRead (plot c mode fb dot) a =
      if a = byteIdx c dot.x.toNat dot.y.toNat then
        composite mode dot.v (bitMask c dot.x.toNat dot.y.toNat) (fbRead fb a)
      else fbRead fb a := by
  unfold plot fbRead
  rw [if_pos h, Memory.read_modify hfb.1]
  split <;> simp_all

/-- `Plot` keeps the canonical form. -/
theorem fbWf_plot {c : Config} {mode : Mode} {fb : Memory} {dot : Dot} (hfb : fbWf c fb) :
    fbWf c (plot c mode fb dot) := by
  unfold plot
  split
  case isTrue h => exact Memory.wf_modify hfb _ (byteIdx_lt (by omega) (by omega))
  case isFalse => exact hfb

@[simp] theorem plotAll_nil (c : Config) (mode : Mode) (fb : Memory) :
    plotAll c mode fb [] = fb := rfl

@[simp] theorem plotAll_cons (c : Config) (mode : Mode) (fb : Memory) (dot : Dot)
    (dots : List Dot) :
    plotAll c mode fb (dot :: dots) = plotAll c mode (plot c mode fb dot) dots := rfl

theorem plotAll_append (c : Config) (mode : Mode) (fb : Memory) (ds es : List Dot) :
    plotAll c mode fb (ds ++ es) = plotAll c mode (plotAll c mode fb ds) es :=
  List.foldl_append

/-- Drawing keeps the canonical form. -/
theorem fbWf_plotAll {c : Config} {mode : Mode} {fb : Memory} (hfb : fbWf c fb)
    (dots : List Dot) : fbWf c (plotAll c mode fb dots) := by
  induction dots generalizing fb with
  | nil => exact hfb
  | cons dot dots ih => exact ih (fbWf_plot hfb)

/-- Drawing changes no byte but those of the canvas pixels it plots. -/
theorem fbRead_plotAll_of_ne {c : Config} {mode : Mode} {fb : Memory} (hfb : fbWf c fb)
    {dots : List Dot} {a : Nat}
    (h : ∀ dot ∈ dots, onCanvas c dot.x dot.y → a ≠ byteIdx c dot.x.toNat dot.y.toNat) :
    fbRead (plotAll c mode fb dots) a = fbRead fb a := by
  induction dots generalizing fb with
  | nil => rfl
  | cons dot dots ih =>
    rw [plotAll_cons, ih (fbWf_plot hfb) fun d hd => h d (by simp [hd])]
    by_cases hon : onCanvas c dot.x dot.y
    · rw [fbRead_plot hfb hon, if_neg (h dot (by simp) hon)]
    · rw [plot_off hon]

theorem setDots_append (ps qs : List (Int × Int)) : setDots (ps ++ qs) = setDots ps ++ setDots qs :=
  List.map_append

/-- Drawing the points of a primitive keeps the canonical form. -/
theorem fbWf_drawPoints {c : Config} {mode : Mode} {fb : Memory} (hfb : fbWf c fb)
    (points : List (Int × Int)) : fbWf c (plotAll c mode fb (setDots points)) :=
  fbWf_plotAll hfb _

/-! ## The compositing modes -/

/-- The mask of a pixel has one bit set, bit `7 - x mod 8` (`20_memory.md` R42). -/
theorem getLsbD_mask (k j : Nat) (hk : k < 8) (hj : j < 8) :
    (0x80#8 >>> k).getLsbD j = decide (j = 7 - k) := by
  have : ∀ k j : Fin 8, (0x80#8 >>> k.val).getLsbD j.val = decide (j.val = 7 - k.val) := by decide
  exact this ⟨k, hk⟩ ⟨j, hj⟩

end Sys2Proof.Machine
end

