-- ==== Sys2Proof/Laws/State.lean ====
section
/-! SUPPORT. One lemma a field for each update of the state, all by `rfl`, so that no proof unfolds a record
update. -/

namespace Sys2Proof.Machine

variable (s : State)

/-! ## Recording a fault writes `ERR` alone (`60_exceptions.md` R203, R204). -/

@[simp] theorem raise_fb (f : BlockFault) : (raise f s).fb = s.fb := rfl
@[simp] theorem raise_mqText (f : BlockFault) : (raise f s).mqText = s.mqText := rfl
@[simp] theorem raise_res (f : BlockFault) : (raise f s).res = s.res := rfl
@[simp] theorem raise_err (f : BlockFault) : (raise f s).err = stickyErr s.err f := rfl
@[simp] theorem raise_scanPhase (f : BlockFault) : (raise f s).scanPhase = s.scanPhase := rfl
@[simp] theorem raise_blank (f : BlockFault) : (raise f s).blank = s.blank := rfl
@[simp] theorem raise_latch (f : BlockFault) : (raise f s).latch = s.latch := rfl
@[simp] theorem raise_rowSel (f : BlockFault) : (raise f s).rowSel = s.rowSel := rfl
@[simp] theorem raise_fontBase (f : BlockFault) : (raise f s).fontBase = s.fontBase := rfl
@[simp] theorem raise_fontValid (f : BlockFault) : (raise f s).fontValid = s.fontValid := rfl
@[simp] theorem raise_mqLen (f : BlockFault) : (raise f s).mqLen = s.mqLen := rfl
@[simp] theorem raise_mqWidth (f : BlockFault) : (raise f s).mqWidth = s.mqWidth := rfl
@[simp] theorem raise_mqHeight (f : BlockFault) : (raise f s).mqHeight = s.mqHeight := rfl
@[simp] theorem raise_mqOffX (f : BlockFault) : (raise f s).mqOffX = s.mqOffX := rfl
@[simp] theorem raise_mqOffY (f : BlockFault) : (raise f s).mqOffY = s.mqOffY := rfl
@[simp] theorem raise_out (f : BlockFault) : (raise f s).out = s.out := rfl
@[simp] theorem raise_cfg (f : BlockFault) : (raise f s).cfg = s.cfg := rfl
@[simp] theorem raise_input (f : BlockFault) : (raise f s).input = s.input := rfl
@[simp] theorem raise_afterReset (f : BlockFault) : (raise f s).afterReset = s.afterReset := rfl
@[simp] theorem raise_serReady (f : BlockFault) : (raise f s).serReady = s.serReady := rfl
@[simp] theorem raise_serSamples (f : BlockFault) : (raise f s).serSamples = s.serSamples := rfl

/-! ## An event is appended to `OUT`. -/

@[simp] theorem emit_fb (e : Event) : (emit e s).fb = s.fb := rfl
@[simp] theorem emit_mqText (e : Event) : (emit e s).mqText = s.mqText := rfl
@[simp] theorem emit_res (e : Event) : (emit e s).res = s.res := rfl
@[simp] theorem emit_err (e : Event) : (emit e s).err = s.err := rfl
@[simp] theorem emit_scanPhase (e : Event) : (emit e s).scanPhase = s.scanPhase := rfl
@[simp] theorem emit_blank (e : Event) : (emit e s).blank = s.blank := rfl
@[simp] theorem emit_latch (e : Event) : (emit e s).latch = s.latch := rfl
@[simp] theorem emit_rowSel (e : Event) : (emit e s).rowSel = s.rowSel := rfl
@[simp] theorem emit_fontBase (e : Event) : (emit e s).fontBase = s.fontBase := rfl
@[simp] theorem emit_fontValid (e : Event) : (emit e s).fontValid = s.fontValid := rfl
@[simp] theorem emit_mqLen (e : Event) : (emit e s).mqLen = s.mqLen := rfl
@[simp] theorem emit_mqWidth (e : Event) : (emit e s).mqWidth = s.mqWidth := rfl
@[simp] theorem emit_mqHeight (e : Event) : (emit e s).mqHeight = s.mqHeight := rfl
@[simp] theorem emit_mqOffX (e : Event) : (emit e s).mqOffX = s.mqOffX := rfl
@[simp] theorem emit_mqOffY (e : Event) : (emit e s).mqOffY = s.mqOffY := rfl
@[simp] theorem emit_out (e : Event) : (emit e s).out = s.out ++ [e] := rfl
@[simp] theorem emit_cfg (e : Event) : (emit e s).cfg = s.cfg := rfl
@[simp] theorem emit_input (e : Event) : (emit e s).input = s.input := rfl
@[simp] theorem emit_afterReset (e : Event) : (emit e s).afterReset = s.afterReset := rfl
@[simp] theorem emit_serReady (e : Event) : (emit e s).serReady = s.serReady := rfl
@[simp] theorem emit_serSamples (e : Event) : (emit e s).serSamples = s.serSamples := rfl

/-! ## Line BLANK. -/

@[simp] theorem setBlank_fb (v : Bool) : (setBlank v s).fb = s.fb := rfl
@[simp] theorem setBlank_mqText (v : Bool) : (setBlank v s).mqText = s.mqText := rfl
@[simp] theorem setBlank_res (v : Bool) : (setBlank v s).res = s.res := rfl
@[simp] theorem setBlank_err (v : Bool) : (setBlank v s).err = s.err := rfl
@[simp] theorem setBlank_scanPhase (v : Bool) : (setBlank v s).scanPhase = s.scanPhase := rfl
@[simp] theorem setBlank_blank (v : Bool) : (setBlank v s).blank = v := rfl
@[simp] theorem setBlank_latch (v : Bool) : (setBlank v s).latch = s.latch := rfl
@[simp] theorem setBlank_rowSel (v : Bool) : (setBlank v s).rowSel = s.rowSel := rfl
@[simp] theorem setBlank_fontBase (v : Bool) : (setBlank v s).fontBase = s.fontBase := rfl
@[simp] theorem setBlank_fontValid (v : Bool) : (setBlank v s).fontValid = s.fontValid := rfl
@[simp] theorem setBlank_mqLen (v : Bool) : (setBlank v s).mqLen = s.mqLen := rfl
@[simp] theorem setBlank_mqWidth (v : Bool) : (setBlank v s).mqWidth = s.mqWidth := rfl
@[simp] theorem setBlank_mqHeight (v : Bool) : (setBlank v s).mqHeight = s.mqHeight := rfl
@[simp] theorem setBlank_mqOffX (v : Bool) : (setBlank v s).mqOffX = s.mqOffX := rfl
@[simp] theorem setBlank_mqOffY (v : Bool) : (setBlank v s).mqOffY = s.mqOffY := rfl
@[simp] theorem setBlank_out (v : Bool) : (setBlank v s).out = s.out ++ [.blank v] := rfl
@[simp] theorem setBlank_cfg (v : Bool) : (setBlank v s).cfg = s.cfg := rfl
@[simp] theorem setBlank_input (v : Bool) : (setBlank v s).input = s.input := rfl
@[simp] theorem setBlank_afterReset (v : Bool) : (setBlank v s).afterReset = s.afterReset := rfl
@[simp] theorem setBlank_serReady (v : Bool) : (setBlank v s).serReady = s.serReady := rfl
@[simp] theorem setBlank_serSamples (v : Bool) : (setBlank v s).serSamples = s.serSamples := rfl

/-! ## Line LATCH. -/

@[simp] theorem setLatch_fb (v : Bool) : (setLatch v s).fb = s.fb := rfl
@[simp] theorem setLatch_mqText (v : Bool) : (setLatch v s).mqText = s.mqText := rfl
@[simp] theorem setLatch_res (v : Bool) : (setLatch v s).res = s.res := rfl
@[simp] theorem setLatch_err (v : Bool) : (setLatch v s).err = s.err := rfl
@[simp] theorem setLatch_scanPhase (v : Bool) : (setLatch v s).scanPhase = s.scanPhase := rfl
@[simp] theorem setLatch_blank (v : Bool) : (setLatch v s).blank = s.blank := rfl
@[simp] theorem setLatch_latch (v : Bool) : (setLatch v s).latch = v := rfl
@[simp] theorem setLatch_rowSel (v : Bool) : (setLatch v s).rowSel = s.rowSel := rfl
@[simp] theorem setLatch_fontBase (v : Bool) : (setLatch v s).fontBase = s.fontBase := rfl
@[simp] theorem setLatch_fontValid (v : Bool) : (setLatch v s).fontValid = s.fontValid := rfl
@[simp] theorem setLatch_mqLen (v : Bool) : (setLatch v s).mqLen = s.mqLen := rfl
@[simp] theorem setLatch_mqWidth (v : Bool) : (setLatch v s).mqWidth = s.mqWidth := rfl
@[simp] theorem setLatch_mqHeight (v : Bool) : (setLatch v s).mqHeight = s.mqHeight := rfl
@[simp] theorem setLatch_mqOffX (v : Bool) : (setLatch v s).mqOffX = s.mqOffX := rfl
@[simp] theorem setLatch_mqOffY (v : Bool) : (setLatch v s).mqOffY = s.mqOffY := rfl
@[simp] theorem setLatch_out (v : Bool) : (setLatch v s).out = s.out ++ [.latch v] := rfl
@[simp] theorem setLatch_cfg (v : Bool) : (setLatch v s).cfg = s.cfg := rfl
@[simp] theorem setLatch_input (v : Bool) : (setLatch v s).input = s.input := rfl
@[simp] theorem setLatch_afterReset (v : Bool) : (setLatch v s).afterReset = s.afterReset := rfl
@[simp] theorem setLatch_serReady (v : Bool) : (setLatch v s).serReady = s.serReady := rfl
@[simp] theorem setLatch_serSamples (v : Bool) : (setLatch v s).serSamples = s.serSamples := rfl

/-! ## Lines ROWSEL. -/

@[simp] theorem setRowSel_fb (v : BitVec 2) : (setRowSel v s).fb = s.fb := rfl
@[simp] theorem setRowSel_mqText (v : BitVec 2) : (setRowSel v s).mqText = s.mqText := rfl
@[simp] theorem setRowSel_res (v : BitVec 2) : (setRowSel v s).res = s.res := rfl
@[simp] theorem setRowSel_err (v : BitVec 2) : (setRowSel v s).err = s.err := rfl
@[simp] theorem setRowSel_scanPhase (v : BitVec 2) : (setRowSel v s).scanPhase = s.scanPhase := rfl
@[simp] theorem setRowSel_blank (v : BitVec 2) : (setRowSel v s).blank = s.blank := rfl
@[simp] theorem setRowSel_latch (v : BitVec 2) : (setRowSel v s).latch = s.latch := rfl
@[simp] theorem setRowSel_rowSel (v : BitVec 2) : (setRowSel v s).rowSel = v := rfl
@[simp] theorem setRowSel_fontBase (v : BitVec 2) : (setRowSel v s).fontBase = s.fontBase := rfl
@[simp] theorem setRowSel_fontValid (v : BitVec 2) : (setRowSel v s).fontValid = s.fontValid := rfl
@[simp] theorem setRowSel_mqLen (v : BitVec 2) : (setRowSel v s).mqLen = s.mqLen := rfl
@[simp] theorem setRowSel_mqWidth (v : BitVec 2) : (setRowSel v s).mqWidth = s.mqWidth := rfl
@[simp] theorem setRowSel_mqHeight (v : BitVec 2) : (setRowSel v s).mqHeight = s.mqHeight := rfl
@[simp] theorem setRowSel_mqOffX (v : BitVec 2) : (setRowSel v s).mqOffX = s.mqOffX := rfl
@[simp] theorem setRowSel_mqOffY (v : BitVec 2) : (setRowSel v s).mqOffY = s.mqOffY := rfl
@[simp] theorem setRowSel_out (v : BitVec 2) : (setRowSel v s).out = s.out ++ [.rowSel v] := rfl
@[simp] theorem setRowSel_cfg (v : BitVec 2) : (setRowSel v s).cfg = s.cfg := rfl
@[simp] theorem setRowSel_input (v : BitVec 2) : (setRowSel v s).input = s.input := rfl
@[simp] theorem setRowSel_afterReset (v : BitVec 2) : (setRowSel v s).afterReset = s.afterReset := rfl
@[simp] theorem setRowSel_serReady (v : BitVec 2) : (setRowSel v s).serReady = s.serReady := rfl
@[simp] theorem setRowSel_serSamples (v : BitVec 2) : (setRowSel v s).serSamples = s.serSamples := rfl

/-! ## The serial link. -/

@[simp] theorem sendUnits_fb (us : List Event) : (sendUnits us s).fb = s.fb := rfl
@[simp] theorem sendUnits_mqText (us : List Event) : (sendUnits us s).mqText = s.mqText := rfl
@[simp] theorem sendUnits_res (us : List Event) : (sendUnits us s).res = s.res := rfl
@[simp] theorem sendUnits_err (us : List Event) : (sendUnits us s).err = s.err := rfl
@[simp] theorem sendUnits_scanPhase (us : List Event) : (sendUnits us s).scanPhase = s.scanPhase := rfl
@[simp] theorem sendUnits_blank (us : List Event) : (sendUnits us s).blank = s.blank := rfl
@[simp] theorem sendUnits_latch (us : List Event) : (sendUnits us s).latch = s.latch := rfl
@[simp] theorem sendUnits_rowSel (us : List Event) : (sendUnits us s).rowSel = s.rowSel := rfl
@[simp] theorem sendUnits_fontBase (us : List Event) : (sendUnits us s).fontBase = s.fontBase := rfl
@[simp] theorem sendUnits_fontValid (us : List Event) : (sendUnits us s).fontValid = s.fontValid := rfl
@[simp] theorem sendUnits_mqLen (us : List Event) : (sendUnits us s).mqLen = s.mqLen := rfl
@[simp] theorem sendUnits_mqWidth (us : List Event) : (sendUnits us s).mqWidth = s.mqWidth := rfl
@[simp] theorem sendUnits_mqHeight (us : List Event) : (sendUnits us s).mqHeight = s.mqHeight := rfl
@[simp] theorem sendUnits_mqOffX (us : List Event) : (sendUnits us s).mqOffX = s.mqOffX := rfl
@[simp] theorem sendUnits_mqOffY (us : List Event) : (sendUnits us s).mqOffY = s.mqOffY := rfl
@[simp] theorem sendUnits_out (us : List Event) : (sendUnits us s).out = s.out ++ us := rfl
@[simp] theorem sendUnits_cfg (us : List Event) : (sendUnits us s).cfg = s.cfg := rfl
@[simp] theorem sendUnits_input (us : List Event) : (sendUnits us s).input = s.input := rfl
@[simp] theorem sendUnits_afterReset (us : List Event) : (sendUnits us s).afterReset = s.afterReset := rfl
@[simp] theorem sendUnits_serReady (us : List Event) : (sendUnits us s).serReady = s.serReady := rfl
@[simp] theorem sendUnits_serSamples (us : List Event) : (sendUnits us s).serSamples = s.serSamples := rfl

/-! ## The phase. -/

@[simp] theorem advancePhase_fb : (advancePhase s).fb = s.fb := rfl
@[simp] theorem advancePhase_mqText : (advancePhase s).mqText = s.mqText := rfl
@[simp] theorem advancePhase_res : (advancePhase s).res = s.res := rfl
@[simp] theorem advancePhase_err : (advancePhase s).err = s.err := rfl
@[simp] theorem advancePhase_scanPhase : (advancePhase s).scanPhase = s.scanPhase + 1 := rfl
@[simp] theorem advancePhase_blank : (advancePhase s).blank = s.blank := rfl
@[simp] theorem advancePhase_latch : (advancePhase s).latch = s.latch := rfl
@[simp] theorem advancePhase_rowSel : (advancePhase s).rowSel = s.rowSel := rfl
@[simp] theorem advancePhase_fontBase : (advancePhase s).fontBase = s.fontBase := rfl
@[simp] theorem advancePhase_fontValid : (advancePhase s).fontValid = s.fontValid := rfl
@[simp] theorem advancePhase_mqLen : (advancePhase s).mqLen = s.mqLen := rfl
@[simp] theorem advancePhase_mqWidth : (advancePhase s).mqWidth = s.mqWidth := rfl
@[simp] theorem advancePhase_mqHeight : (advancePhase s).mqHeight = s.mqHeight := rfl
@[simp] theorem advancePhase_mqOffX : (advancePhase s).mqOffX = s.mqOffX := rfl
@[simp] theorem advancePhase_mqOffY : (advancePhase s).mqOffY = s.mqOffY := rfl
@[simp] theorem advancePhase_out : (advancePhase s).out = s.out := rfl
@[simp] theorem advancePhase_cfg : (advancePhase s).cfg = s.cfg := rfl
@[simp] theorem advancePhase_input : (advancePhase s).input = s.input := rfl
@[simp] theorem advancePhase_afterReset : (advancePhase s).afterReset = s.afterReset := rfl
@[simp] theorem advancePhase_serReady : (advancePhase s).serReady = s.serReady := rfl
@[simp] theorem advancePhase_serSamples : (advancePhase s).serSamples = s.serSamples := rfl

/-! ## A sample of `ser_ready`. -/

@[simp] theorem afterSample_fb : (afterSample s).fb = s.fb := rfl
@[simp] theorem afterSample_mqText : (afterSample s).mqText = s.mqText := rfl
@[simp] theorem afterSample_res : (afterSample s).res = s.res := rfl
@[simp] theorem afterSample_err : (afterSample s).err = s.err := rfl
@[simp] theorem afterSample_scanPhase : (afterSample s).scanPhase = s.scanPhase := rfl
@[simp] theorem afterSample_blank : (afterSample s).blank = s.blank := rfl
@[simp] theorem afterSample_latch : (afterSample s).latch = s.latch := rfl
@[simp] theorem afterSample_rowSel : (afterSample s).rowSel = s.rowSel := rfl
@[simp] theorem afterSample_fontBase : (afterSample s).fontBase = s.fontBase := rfl
@[simp] theorem afterSample_fontValid : (afterSample s).fontValid = s.fontValid := rfl
@[simp] theorem afterSample_mqLen : (afterSample s).mqLen = s.mqLen := rfl
@[simp] theorem afterSample_mqWidth : (afterSample s).mqWidth = s.mqWidth := rfl
@[simp] theorem afterSample_mqHeight : (afterSample s).mqHeight = s.mqHeight := rfl
@[simp] theorem afterSample_mqOffX : (afterSample s).mqOffX = s.mqOffX := rfl
@[simp] theorem afterSample_mqOffY : (afterSample s).mqOffY = s.mqOffY := rfl
@[simp] theorem afterSample_out : (afterSample s).out = s.out := rfl
@[simp] theorem afterSample_cfg : (afterSample s).cfg = s.cfg := rfl
@[simp] theorem afterSample_input : (afterSample s).input = s.input := rfl
@[simp] theorem afterSample_afterReset : (afterSample s).afterReset = s.afterReset := rfl
@[simp] theorem afterSample_serReady : (afterSample s).serReady = s.serReady.tail := rfl
@[simp] theorem afterSample_serSamples : (afterSample s).serSamples = s.serSamples + 1 := rfl

/-! ## Bytes presented on the command port. -/

@[simp] theorem withFetchWord_fb (nbits w : Nat) : (s.withFetchWord nbits w).fb = s.fb := rfl
@[simp] theorem withFetchWord_mqText (nbits w : Nat) : (s.withFetchWord nbits w).mqText = s.mqText := rfl
@[simp] theorem withFetchWord_res (nbits w : Nat) : (s.withFetchWord nbits w).res = s.res := rfl
@[simp] theorem withFetchWord_err (nbits w : Nat) : (s.withFetchWord nbits w).err = s.err := rfl
@[simp] theorem withFetchWord_scanPhase (nbits w : Nat) : (s.withFetchWord nbits w).scanPhase = s.scanPhase := rfl
@[simp] theorem withFetchWord_blank (nbits w : Nat) : (s.withFetchWord nbits w).blank = s.blank := rfl
@[simp] theorem withFetchWord_latch (nbits w : Nat) : (s.withFetchWord nbits w).latch = s.latch := rfl
@[simp] theorem withFetchWord_rowSel (nbits w : Nat) : (s.withFetchWord nbits w).rowSel = s.rowSel := rfl
@[simp] theorem withFetchWord_fontBase (nbits w : Nat) : (s.withFetchWord nbits w).fontBase = s.fontBase := rfl
@[simp] theorem withFetchWord_fontValid (nbits w : Nat) : (s.withFetchWord nbits w).fontValid = s.fontValid := rfl
@[simp] theorem withFetchWord_mqLen (nbits w : Nat) : (s.withFetchWord nbits w).mqLen = s.mqLen := rfl
@[simp] theorem withFetchWord_mqWidth (nbits w : Nat) : (s.withFetchWord nbits w).mqWidth = s.mqWidth := rfl
@[simp] theorem withFetchWord_mqHeight (nbits w : Nat) : (s.withFetchWord nbits w).mqHeight = s.mqHeight := rfl
@[simp] theorem withFetchWord_mqOffX (nbits w : Nat) : (s.withFetchWord nbits w).mqOffX = s.mqOffX := rfl
@[simp] theorem withFetchWord_mqOffY (nbits w : Nat) : (s.withFetchWord nbits w).mqOffY = s.mqOffY := rfl
@[simp] theorem withFetchWord_out (nbits w : Nat) : (s.withFetchWord nbits w).out = s.out := rfl
@[simp] theorem withFetchWord_cfg (nbits w : Nat) : (s.withFetchWord nbits w).cfg = s.cfg := rfl
@[simp] theorem withFetchWord_input (nbits w : Nat) : (s.withFetchWord nbits w).input = tableBytes nbits w := rfl
@[simp] theorem withFetchWord_afterReset (nbits w : Nat) : (s.withFetchWord nbits w).afterReset = s.afterReset := rfl
@[simp] theorem withFetchWord_serReady (nbits w : Nat) : (s.withFetchWord nbits w).serReady = s.serReady := rfl
@[simp] theorem withFetchWord_serSamples (nbits w : Nat) : (s.withFetchWord nbits w).serSamples = s.serSamples := rfl

/-! ## The reset input (`70_reset_and_hazards.md` R220). -/

@[simp] theorem takeReset_fb (next : List Byte) (later : List (List Byte)) :
    (takeReset next later s).fb = [] := rfl
@[simp] theorem takeReset_mqText (next : List Byte) (later : List (List Byte)) :
    (takeReset next later s).mqText = [] := rfl
@[simp] theorem takeReset_res (next : List Byte) (later : List (List Byte)) :
    (takeReset next later s).res = 0 := rfl
@[simp] theorem takeReset_err (next : List Byte) (later : List (List Byte)) :
    (takeReset next later s).err = 0 := rfl
@[simp] theorem takeReset_scanPhase (next : List Byte) (later : List (List Byte)) :
    (takeReset next later s).scanPhase = 0 := rfl
@[simp] theorem takeReset_blank (next : List Byte) (later : List (List Byte)) :
    (takeReset next later s).blank = true := rfl
@[simp] theorem takeReset_latch (next : List Byte) (later : List (List Byte)) :
    (takeReset next later s).latch = false := rfl
@[simp] theorem takeReset_rowSel (next : List Byte) (later : List (List Byte)) :
    (takeReset next later s).rowSel = 0 := rfl
@[simp] theorem takeReset_fontBase (next : List Byte) (later : List (List Byte)) :
    (takeReset next later s).fontBase = 0 := rfl
@[simp] theorem takeReset_fontValid (next : List Byte) (later : List (List Byte)) :
    (takeReset next later s).fontValid = false := rfl
@[simp] theorem takeReset_mqLen (next : List Byte) (later : List (List Byte)) :
    (takeReset next later s).mqLen = 0 := rfl
@[simp] theorem takeReset_mqWidth (next : List Byte) (later : List (List Byte)) :
    (takeReset next later s).mqWidth = 0 := rfl
@[simp] theorem takeReset_mqHeight (next : List Byte) (later : List (List Byte)) :
    (takeReset next later s).mqHeight = 0 := rfl
@[simp] theorem takeReset_mqOffX (next : List Byte) (later : List (List Byte)) :
    (takeReset next later s).mqOffX = 0 := rfl
@[simp] theorem takeReset_mqOffY (next : List Byte) (later : List (List Byte)) :
    (takeReset next later s).mqOffY = 0 := rfl
@[simp] theorem takeReset_out (next : List Byte) (later : List (List Byte)) :
    (takeReset next later s).out = [] := rfl
@[simp] theorem takeReset_cfg (next : List Byte) (later : List (List Byte)) :
    (takeReset next later s).cfg = s.cfg := rfl
@[simp] theorem takeReset_input (next : List Byte) (later : List (List Byte)) :
    (takeReset next later s).input = next := rfl
@[simp] theorem takeReset_afterReset (next : List Byte) (later : List (List Byte)) :
    (takeReset next later s).afterReset = later := rfl
@[simp] theorem takeReset_serReady (next : List Byte) (later : List (List Byte)) :
    (takeReset next later s).serReady = s.serReady := rfl
@[simp] theorem takeReset_serSamples (next : List Byte) (later : List (List Byte)) :
    (takeReset next later s).serSamples = s.serSamples := rfl

/-! ## The state after reset (`70_reset_and_hazards.md` R220). -/

@[simp] theorem resetWith_fb (c : Config) : (State.resetWith c).fb = [] := rfl
@[simp] theorem resetWith_mqText (c : Config) : (State.resetWith c).mqText = [] := rfl
@[simp] theorem resetWith_res (c : Config) : (State.resetWith c).res = 0 := rfl
@[simp] theorem resetWith_err (c : Config) : (State.resetWith c).err = 0 := rfl
@[simp] theorem resetWith_scanPhase (c : Config) : (State.resetWith c).scanPhase = 0 := rfl
@[simp] theorem resetWith_blank (c : Config) : (State.resetWith c).blank = true := rfl
@[simp] theorem resetWith_latch (c : Config) : (State.resetWith c).latch = false := rfl
@[simp] theorem resetWith_rowSel (c : Config) : (State.resetWith c).rowSel = 0 := rfl
@[simp] theorem resetWith_fontBase (c : Config) : (State.resetWith c).fontBase = 0 := rfl
@[simp] theorem resetWith_fontValid (c : Config) : (State.resetWith c).fontValid = false := rfl
@[simp] theorem resetWith_mqLen (c : Config) : (State.resetWith c).mqLen = 0 := rfl
@[simp] theorem resetWith_mqWidth (c : Config) : (State.resetWith c).mqWidth = 0 := rfl
@[simp] theorem resetWith_mqHeight (c : Config) : (State.resetWith c).mqHeight = 0 := rfl
@[simp] theorem resetWith_mqOffX (c : Config) : (State.resetWith c).mqOffX = 0 := rfl
@[simp] theorem resetWith_mqOffY (c : Config) : (State.resetWith c).mqOffY = 0 := rfl
@[simp] theorem resetWith_out (c : Config) : (State.resetWith c).out = [] := rfl
@[simp] theorem resetWith_cfg (c : Config) : (State.resetWith c).cfg = c := rfl
@[simp] theorem resetWith_input (c : Config) : (State.resetWith c).input = [] := rfl
@[simp] theorem resetWith_afterReset (c : Config) : (State.resetWith c).afterReset = [] := rfl
@[simp] theorem resetWith_serReady (c : Config) : (State.resetWith c).serReady = [] := rfl
@[simp] theorem resetWith_serSamples (c : Config) : (State.resetWith c).serSamples = 0 := rfl

end Sys2Proof.Machine
end

