-- ==== Sys2Proof/Laws/Step.lean ====
section
/-! SUPPORT. Everything one step, one scan step and the sampling of `ser_ready` can do. -/

namespace Sys2Proof.Machine

/-- What SCAN_STEP leaves when it runs (`44_scan.md` R183). -/
theorem scanOut_eq (s : State) :
    scanOut s = { s with
      scanPhase := s.scanPhase + 1, blank := false, latch := false, rowSel := s.scanPhase
      out := s.out ++ (transferUnits s.cfg s.fb s.scanPhase.toNat ++
        [.blank true, .latch true, .latch false, .rowSel s.scanPhase, .blank false]) } := by
  simp [scanOut, setBlank, setLatch, setRowSel, sendUnits, emit, advancePhase]

/-- Everything SCAN_STEP can do: run without a gate, run after a sample, or be skipped after a sample
(`44_scan.md` R182). -/
theorem execScanStep_cases (s : State) :
    (s.cfg.scanGated = false ∧ execScanStep s = .next (scanOut s)) ∨
    (s.cfg.scanGated = true ∧ serReadyNow s = true ∧
      execScanStep s = .next (scanOut (afterSample s))) ∨
    (s.cfg.scanGated = true ∧ serReadyNow s = false ∧
      execScanStep s = .next (afterSample s)) := by
  unfold execScanStep
  cases s.cfg.scanGated <;> cases serReadyNow s <;> simp

/-- Everything a step that answers a next state can do: wait, take a reset, record one of the two faults
of decoding, or run the decoded instruction. -/
theorem step_cases {s t : State} (h : step s = .next t) :
    s.cfg.wellFormed = true ∧
    ((decode s.input = .incomplete ∧ s.afterReset = [] ∧ t = s) ∨
     (∃ next later, decode s.input = .incomplete ∧ s.afterReset = next :: later ∧
        t = takeReset next later s) ∨
     (∃ rest, decode s.input = .illegalOpcode rest ∧
        t = raise .illegalOpcode { s with input := rest }) ∨
     (∃ rest, decode s.input = .reservedOperand rest ∧
        t = raise .reservedOperand { s with input := rest }) ∨
     (∃ i rest, decode s.input = .instr i rest ∧ exec i { s with input := rest } = .next t)) := by
  unfold step at h
  split at h
  · cases h
  case isFalse hlegal =>
    refine ⟨by simpa using hlegal, ?_⟩
    split at h
    case h_1 hd =>
      split at h
      case h_1 ha => cases h; exact .inl ⟨hd, ha, rfl⟩
      case h_2 next later ha => cases h; exact .inr (.inl ⟨next, later, hd, ha, rfl⟩)
    case h_2 rest hd => cases h; exact .inr (.inr (.inl ⟨rest, hd, rfl⟩))
    case h_3 rest hd => cases h; exact .inr (.inr (.inr (.inl ⟨rest, hd, rfl⟩)))
    case h_4 i rest hd => exact .inr (.inr (.inr (.inr ⟨i, rest, hd, h⟩)))

end Sys2Proof.Machine
end

