-- ==== Sys2Proof/Laws/Text.lean ====
section
/-! SUPPORT. Laws of the font unit and of the marquee engine: what each shared operation can answer, and
that each keeps the canonical form of the memory it writes. -/

namespace Sys2Proof.Machine

/-! ## Font fields and widths -/

theorem fontField_le (c : Config) (base o : Nat) : fontField c base o ≤ 255 := by
  have := (fontRead c (base + o)).isLt
  simp only [fontField, number]; omega

theorem glyphWidth_le (c : Config) (base k : Nat) : glyphWidth c base k ≤ 255 := by
  unfold glyphWidth; split <;> exact fontField_le _ _ _

theorem charWidthOf_le (c : Config) (base code : Nat) : charWidthOf c base code ≤ 255 := by
  unfold charWidthOf
  generalize (if code = spaceCode then sentinelCode else code) = k
  show (if supported c base k then glyphWidth c base (k - fontFirst c base) else 0) ≤ 255
  split
  · exact glyphWidth_le _ _ _
  · exact Nat.zero_le _

/-- The checks of SELECT_FONT, as bounds (`42_font.md` R131). -/
theorem fontFits_iff (c : Config) (base : Nat) :
    fontFits c base = true ↔
      base + 6 ≤ fontBytes c ∧
      (fontFixed c base = false → base + 6 + fontCount c base ≤ fontBytes c) ∧
      base + fontExtent c base ≤ fontBytes c := by
  unfold fontFits
  by_cases h : fontBytes c < base + 6
  · simp [h]
  · cases hf : fontFixed c base
    · by_cases hc : fontBytes c < base + 6 + fontCount c base <;> simp [h, hc]
      all_goals omega
    · simp [h]; omega

/-- Everything the opening of a font-reading command can do. -/
theorem withFont_cases (s : State) (run : Nat → State) :
    (s.fontValid = false ∧ withFont s run = .next (raise .noFont s)) ∨
    (s.fontValid = true ∧ fontFits s.cfg (address s.fontBase) = true ∧
      withFont s run = .next (run (address s.fontBase))) ∨
    (s.fontValid = true ∧ fontFits s.cfg (address s.fontBase) = false ∧
      withFont s run = .fault .fontOutOfSpace) := by
  unfold withFont
  cases s.fontValid <;> cases fontFits s.cfg (address s.fontBase) <;> simp

/-- With a font that can be read, a font-reading command runs. -/
theorem withFont_ready {s : State} (hv : s.fontValid = true)
    (hf : fontFits s.cfg (address s.fontBase) = true) (run : Nat → State) :
    withFont s run = .next (run (address s.fontBase)) := by
  simp [withFont, hv, hf]

/-- Without a font, a font-reading command records `NoFont` and does nothing else. -/
theorem withFont_noFont {s : State} (hv : s.fontValid = false) (run : Nat → State) :
    withFont s run = .next (raise .noFont s) := by
  simp [withFont, hv]

/-! ## Drawing text -/

/-- Everything `DrawChar` can answer, its four cases in order (`42_font.md` R135). -/
theorem drawCharAt_cases (c : Config) (base : Nat) (fb : Memory) (x y : Int) (code : Nat)
    (mode : Mode) :
    (((canvasW c : Int) < x ∨ (canvasH c : Int) < y) ∧
      drawCharAt c base fb x y code mode = (fb, -1)) ∨
    ((x ≤ canvasW c ∧ y ≤ canvasH c) ∧ code = spaceCode ∧
      drawCharAt c base fb x y code mode =
        (drawPoints c .inverse fb (filledBoxPoints x y (x + (charWidthOf c base spaceCode : Nat))
          (y + fontHeight c base)), (charWidthOf c base spaceCode : Int))) ∨
    ((x ≤ canvasW c ∧ y ≤ canvasH c) ∧ code ≠ spaceCode ∧ supported c base code = false ∧
      drawCharAt c base fb x y code mode = (fb, 0)) ∨
    ((x ≤ canvasW c ∧ y ≤ canvasH c) ∧ code ≠ spaceCode ∧ supported c base code = true ∧
      drawCharAt c base fb x y code mode =
        (plotAll c mode fb (glyphDots c base x y (code - fontFirst c base)),
          (glyphWidth c base (code - fontFirst c base) : Int))) := by
  unfold drawCharAt
  by_cases hoff : (canvasW c : Int) < x ∨ (canvasH c : Int) < y
  · exact .inl ⟨hoff, if_pos hoff⟩
  · have hon : x ≤ canvasW c ∧ y ≤ canvasH c := by omega
    rw [if_neg hoff]
    by_cases hsp : code = spaceCode
    · exact .inr (.inl ⟨hon, hsp, if_pos hsp⟩)
    · rw [if_neg hsp]
      cases hsup : supported c base code
      · exact .inr (.inr (.inl ⟨hon, hsp, rfl, rfl⟩))
      · exact .inr (.inr (.inr ⟨hon, hsp, rfl, rfl⟩))

/-- `DrawChar` answers -1 or a width from 0 to 255 (`10_state.md` R10). -/
theorem drawCharAt_width (c : Config) (base : Nat) (fb : Memory) (x y : Int) (code : Nat)
    (mode : Mode) :
    -1 ≤ (drawCharAt c base fb x y code mode).2 ∧
      (drawCharAt c base fb x y code mode).2 ≤ 255 := by
  have hg := glyphWidth_le c base (code - fontFirst c base)
  have hs := charWidthOf_le c base spaceCode
  rcases drawCharAt_cases c base fb x y code mode with ⟨-, h⟩ | ⟨-, -, h⟩ | ⟨-, -, -, h⟩ | ⟨-, -, -, h⟩
    <;> rw [h] <;> constructor <;> simp <;> omega

/-- On the canvas `DrawChar` answers the width CHAR_WIDTH measures (`42_font.md` R133, R135). -/
theorem drawCharAt_width_eq {c : Config} (base : Nat) (fb : Memory) {x y : Int} (code : Nat)
    (mode : Mode) (hx : x ≤ canvasW c) (hy : y ≤ canvasH c) :
    (drawCharAt c base fb x y code mode).2 = charWidthOf c base code := by
  have glyph : code ≠ spaceCode → charWidthOf c base code =
      if supported c base code then glyphWidth c base (code - fontFirst c base) else 0 := by
    intro h; unfold charWidthOf; simp only [if_neg h]
  rcases drawCharAt_cases c base fb x y code mode with ⟨h, -⟩ | ⟨-, hc, e⟩ | ⟨-, hc, hs, e⟩ | ⟨-, hc, hs, e⟩
  · omega
  · rw [e, hc]
  · rw [e, glyph hc, hs]; rfl
  · rw [e, glyph hc, hs]; rfl

/-- Everything one character of a string can lead to (`42_font.md` R140): a glyph with its gap column, the
last one or not, an exit off the canvas, or a character of width 0, the last one or not. -/
theorem drawChars_cons (c : Config) (base : Nat) (y : Int) (mode : Mode) (code : Byte)
    (rest : List Byte) (fb : Memory) (pen : Int) (drawn : Memory × Int)
    (h : drawCharAt c base fb pen y (number code) mode = drawn) :
    (0 < drawn.2 ∧ (canvasW c : Int) ≤ pen + drawn.2 + 1 ∧
      drawChars c base y mode (code :: rest) fb pen =
        blankColumn c base drawn.1 (pen + drawn.2) y) ∨
    (0 < drawn.2 ∧ pen + drawn.2 + 1 < canvasW c ∧
      drawChars c base y mode (code :: rest) fb pen =
        drawChars c base y mode rest (blankColumn c base drawn.1 (pen + drawn.2) y)
          (pen + drawn.2 + 1)) ∨
    (drawn.2 < 0 ∧ drawChars c base y mode (code :: rest) fb pen = drawn.1) ∨
    (drawn.2 = 0 ∧ (canvasW c : Int) ≤ pen ∧
      drawChars c base y mode (code :: rest) fb pen = drawn.1) ∨
    (drawn.2 = 0 ∧ pen < canvasW c ∧
      drawChars c base y mode (code :: rest) fb pen =
        drawChars c base y mode rest drawn.1 pen) := by
  subst h
  simp only [drawChars]
  by_cases hp : 0 < (drawCharAt c base fb pen y (number code) mode).2
  · rw [if_pos hp]
    by_cases he : (canvasW c : Int) ≤ pen + (drawCharAt c base fb pen y (number code) mode).2 + 1
    · exact .inl ⟨hp, he, if_pos he⟩
    · exact .inr (.inl ⟨hp, by omega, if_neg he⟩)
  · rw [if_neg hp]
    by_cases hn : (drawCharAt c base fb pen y (number code) mode).2 < 0
    · exact .inr (.inr (.inl ⟨hn, if_pos hn⟩))
    · rw [if_neg hn]
      by_cases he : (canvasW c : Int) ≤ pen
      · exact .inr (.inr (.inr (.inl ⟨by omega, he, if_pos he⟩)))
      · exact .inr (.inr (.inr (.inr ⟨by omega, by omega, if_neg he⟩)))

theorem fbWf_drawCharAt {c : Config} {fb : Memory} (hfb : fbWf c fb) (base : Nat) (x y : Int)
    (code : Nat) (mode : Mode) : fbWf c (drawCharAt c base fb x y code mode).1 := by
  rcases drawCharAt_cases c base fb x y code mode with ⟨-, h⟩ | ⟨-, -, h⟩ | ⟨-, -, -, h⟩ | ⟨-, -, -, h⟩
    <;> rw [h]
  · exact hfb
  · exact fbWf_drawPoints hfb _
  · exact hfb
  · exact fbWf_plotAll hfb _

theorem fbWf_blankColumn {c : Config} {fb : Memory} (hfb : fbWf c fb) (base : Nat) (x y : Int) :
    fbWf c (blankColumn c base fb x y) := fbWf_drawPoints hfb _

theorem fbWf_drawChars {c : Config} (base : Nat) (y : Int) (mode : Mode) (text : List Byte)
    {fb : Memory} (hfb : fbWf c fb) (pen : Int) :
    fbWf c (drawChars c base y mode text fb pen) := by
  induction text generalizing fb pen with
  | nil => exact hfb
  | cons code rest ih =>
    have hd := fbWf_drawCharAt hfb base pen y (number code) mode
    have hg := fbWf_blankColumn hd base
      (pen + (drawCharAt c base fb pen y (number code) mode).2) y
    simp only [drawChars]
    split
    · split
      · exact hg
      · exact ih hg _
    · split
      · exact hd
      · split
        · exact hd
        · exact ih hd _

theorem fbWf_drawStringAt {c : Config} {fb : Memory} (hfb : fbWf c fb) (base : Nat) (x y : Int)
    (text : List Byte) (mode : Mode) : fbWf c (drawStringAt c base fb x y text mode) := by
  unfold drawStringAt
  split
  · exact hfb
  · exact fbWf_drawChars base y mode text (fbWf_blankColumn hfb base _ y) x

/-! ## The marquee text -/

theorem textWf_storeText {mem : Memory} (hm : Memory.wf textBlank textSize mem) (text : List Byte)
    {a : Nat} (ha : a + text.length ≤ textSize) :
    Memory.wf textBlank textSize (storeText mem a text) := by
  induction text generalizing mem a with
  | nil => exact hm
  | cons b text ih =>
    simp only [List.length_cons] at ha
    exact ih (Memory.wf_write hm (by omega) b) (by omega)

/-- What storing a text leaves: its characters at consecutive addresses, every other byte as it was
(`43_marquee.md` R161). -/
theorem textRead_storeText {mem : Memory} (hm : Memory.wf textBlank textSize mem)
    (text : List Byte) {a : Nat} (ha : a + text.length ≤ textSize) (b : Nat) :
    textRead (storeText mem a text) b =
      if a ≤ b ∧ b < a + text.length then text.getD (b - a) 0 else textRead mem b := by
  induction text generalizing mem a with
  | nil => simp [storeText]
  | cons v text ih =>
    simp only [List.length_cons] at ha ⊢
    simp only [storeText]
    rw [ih (Memory.wf_write hm (by omega) v) (by omega)]
    unfold textRead
    rw [Memory.read_write hm.1]
    by_cases hb : b = a
    · subst hb; simp
    · by_cases hin : a + 1 ≤ b ∧ b < a + 1 + text.length
      · rw [if_pos hin, if_pos (by omega)]
        obtain ⟨k, rfl⟩ : ∃ k, b = a + 1 + k := ⟨b - (a + 1), by omega⟩
        rw [show a + 1 + k - a = k + 1 by omega, show a + 1 + k - (a + 1) = k by omega]
        simp
      · rw [if_neg hin, if_neg hb, if_neg (by omega)]

theorem marqueeWidth_le (c : Config) (base : Nat) (text : List Byte) :
    marqueeWidth c base text ≤ 256 * text.length := by
  induction text with
  | nil => simp [marqueeWidth]
  | cons code text ih =>
    have := charWidthOf_le c base (number code)
    simp only [marqueeWidth, List.map_cons, List.sum_cons, List.length_cons] at ih ⊢
    omega

/-! ## The wrap -/

/-- Everything one axis of the wrap can answer (`43_marquee.md` R164). -/
theorem wrapOffset_cases (off extent edge : Int) :
    (off < -extent ∧ wrapOffset off extent edge = (edge, true)) ∨
    (-extent ≤ off ∧ edge < off ∧ wrapOffset off extent edge = (-extent, true)) ∨
    (-extent ≤ off ∧ off ≤ edge ∧ wrapOffset off extent edge = (off, false)) := by
  unfold wrapOffset
  by_cases h1 : off < -extent
  · exact .inl ⟨h1, if_pos h1⟩
  · rw [if_neg h1]
    by_cases h2 : edge < off
    · exact .inr (.inl ⟨by omega, h2, if_pos h2⟩)
    · exact .inr (.inr ⟨by omega, by omega, if_neg h2⟩)

/-! ## The shifts and the redraw -/

theorem fbRead_shiftLeft (c : Config) (fb : Memory) (a : Nat) :
    fbRead (shiftLeft c fb) a =
      if a < fbSize c then shiftLeftByte (segBytes c) (fbRead fb) a else fbBlank :=
  Memory.read_tabulate _ _ _ _

theorem fbRead_shiftRight (c : Config) (fb : Memory) (a : Nat) :
    fbRead (shiftRight c fb) a =
      if a < fbSize c then shiftRightByte (segBytes c) (fbRead fb) a else fbBlank :=
  Memory.read_tabulate _ _ _ _

theorem fbWf_shiftLeft (c : Config) (fb : Memory) : fbWf c (shiftLeft c fb) :=
  Memory.wf_tabulate _ _ _

theorem fbWf_shiftRight (c : Config) (fb : Memory) : fbWf c (shiftRight c fb) :=
  Memory.wf_tabulate _ _ _

theorem fbWf_drawEntering {c : Config} {fb : Memory} (hfb : fbWf c fb) (base : Nat) (y edge : Int)
    (text : List Byte) (pen : Int) : fbWf c (drawEntering c base fb y edge pen text) := by
  induction text generalizing pen with
  | nil => exact hfb
  | cons code rest ih =>
    simp only [drawEntering]
    split
    · exact fbWf_drawCharAt hfb _ _ _ _ _
    · exact ih _

theorem fbWf_marqueeRedraw {c : Config} {fb : Memory} (hfb : fbWf c fb) (base : Nat)
    (text : List Byte) (dx dy offX offY : Int) :
    fbWf c (marqueeRedraw c base fb text dx dy offX offY) := by
  unfold marqueeRedraw
  split
  · exact fbWf_drawEntering (fbWf_shiftLeft c fb) _ _ _ _ _
  · split
    · exact fbWf_drawEntering (fbWf_shiftRight c fb) _ _ _ _ _
    · exact fbWf_drawStringAt hfb _ _ _ _ _

end Sys2Proof.Machine
end

