-- ==== Sys2Proof/Tests/Slice0.lean ====
section
/-! SUPPORT. Tests. Every expected value is the spec's own: the rule or the test vector it comes from is
named beside it. After them, one witness for each statement that has hypotheses. -/

namespace Sys2Proof.Tests

open Sys2Proof Sys2Proof.Machine

/-! ## Well-formedness: each check refuses an ill-formed term -/

theorem test_wf_drawString_256_refused :
    (Instr.drawString 0 0 .normal (List.replicate 256 0x41)).wellFormed = false := by
  decide +kernel

theorem test_wf_drawString_255_admitted :
    (Instr.drawString 0 0 .normal (List.replicate 255 0x41)).wellFormed = true := by
  decide +kernel

theorem test_wf_marqueeBegin_256_refused :
    (Instr.marqueeBegin 0 0 (List.replicate 256 0x41)).wellFormed = false := by
  decide +kernel

theorem test_wf_config_pw_refused :
    ({ Config.standard with pw := 0 } : Config).wellFormed = false ∧
    ({ Config.standard with pw := 1024 } : Config).wellFormed = false := by decide

theorem test_wf_config_ph_refused :
    ({ Config.standard with ph := 0 } : Config).wellFormed = false ∧
    ({ Config.standard with ph := 2048 } : Config).wellFormed = false := by decide

theorem test_wf_config_font_refused :
    ({ Config.standard with font := List.replicate 65537 0 } : Config).wellFormed = false := by
  rw [Config.wellFormed]; simp only [List.length_replicate]; decide

theorem test_wf_config_largest_admitted :
    ({ Config.standard with pw := 1023, ph := 2047 } : Config).wellFormed = true := by decide

/-! ## Decoding: a word of every command, written out from its format -/

/-- R67, `95_test_vectors.md` A3. -/
theorem test_decode_clear : decode [0x01, 0x01] = .instr (.clear true) [] := by decide

/-- R84. -/
theorem test_decode_setPixel :
    decode [0x02, 0xFF, 0xFF, 0x00, 0x05, 0x0A] = .instr (.setPixel (-1) 5 .toggle true) [] := by
  decide

/-- R84. -/
theorem test_decode_line :
    decode [0x10, 0x00, 0x00, 0x00, 0x00, 0x00, 0x1F, 0x00, 0x00, 0x00] =
      .instr (.line 0 0 31 0 .normal) [] := by decide

/-- `95_test_vectors.md` A5. -/
theorem test_decode_circle :
    decode [0x11, 0x00, 0x08, 0x00, 0x09, 0x00, 0x03, 0x04] = .instr (.circle 8 9 3 .nor) [] := by
  decide

/-- `95_test_vectors.md` B6. -/
theorem test_decode_box :
    decode [0x12, 0x00, 0x02, 0x00, 0x01, 0x00, 0x09, 0x00, 0x05, 0x02] =
      .instr (.box 2 1 9 5 .toggle) [] := by decide

/-- `95_test_vectors.md` B7. -/
theorem test_decode_filledBox :
    decode [0x13, 0xFF, 0xFD, 0xFF, 0xFE, 0x00, 0x02, 0x00, 0x01, 0x03] =
      .instr (.filledBox (-3) (-2) 2 1 .or) [] := by decide

/-- `95_test_vectors.md` B8. -/
theorem test_decode_testPattern : decode [0x14, 0x03] = .instr (.testPattern 3) [] := by decide

/-- `95_test_vectors.md` B9: the base is unsigned, most significant byte first. -/
theorem test_decode_selectFont : decode [0x20, 0x12, 0x34] = .instr (.selectFont 0x1234) [] := by
  decide

/-- `95_test_vectors.md` A6. -/
theorem test_decode_charWidth : decode [0x21, 0x42] = .instr (.charWidth 0x42) [] := by decide

/-- `95_test_vectors.md` B11. -/
theorem test_decode_drawChar :
    decode [0x22, 0x00, 0x08, 0x00, 0x04, 0x42, 0x01] =
      .instr (.drawChar 8 4 0x42 .inverse) [] := by decide

/-- `95_test_vectors.md` B12; the byte after the packet is left. -/
theorem test_decode_drawString :
    decode [0x23, 0x00, 0x01, 0x00, 0x00, 0x00, 0x02, 0x41, 0x42, 0x40] =
      .instr (.drawString 1 0 .normal [0x41, 0x42]) [0x40] := by decide

/-- `95_test_vectors.md` A7. -/
theorem test_decode_marqueeBegin :
    decode [0x30, 0x00, 0x20, 0x00, 0x00, 0x02, 0x48, 0x49] =
      .instr (.marqueeBegin 32 0 [0x48, 0x49]) [] := by decide

/-- `95_test_vectors.md` A8. -/
theorem test_decode_marqueeStep :
    decode [0x31, 0xFF, 0xFF, 0x00, 0x00] = .instr (.marqueeStep (-1) 0) [] := by decide

/-- R66. -/
theorem test_decode_scanStep : decode [0x40] = .instr .scanStep [] := by decide

/-- R64, `95_test_vectors.md` B2, B3, B4, B8, B12: a nonzero "must be 0" bit, a mode above 4, a pattern
above 3; the packet is consumed whole. -/
theorem test_decode_reserved :
    decode [0x01, 0x02, 0xAA] = .reservedOperand [0xAA] ∧
    decode [0x02, 0x00, 0x00, 0x00, 0x00, 0x18] = .reservedOperand [] ∧
    decode [0x02, 0x00, 0x00, 0x00, 0x00, 0x0D] = .reservedOperand [] ∧
    decode [0x10, 0x00, 0x00, 0x00, 0x00, 0x00, 0x1F, 0x00, 0x00, 0x08] = .reservedOperand [] ∧
    decode [0x14, 0x04] = .reservedOperand [] ∧
    decode [0x23, 0x00, 0x00, 0x00, 0x00, 0x07, 0x02, 0x41, 0x42] = .reservedOperand [] := by decide

/-- R78: an unassigned byte is consumed alone. -/
theorem test_decode_illegal :
    decode [0x00, 0x40] = .illegalOpcode [0x40] ∧ decode [0x41] = .illegalOpcode [] := by decide

/-- R61, R81: no byte, a missing last byte, a missing length byte, a missing character. -/
theorem test_decode_incomplete :
    decode [] = .incomplete ∧ decode [0x01] = .incomplete ∧
    decode [0x30, 0x00, 0x20, 0x00, 0x00] = .incomplete ∧
    decode [0x30, 0x00, 0x20, 0x00, 0x00, 0x02, 0x48] = .incomplete := by decide

/-- The numbering of the opcode table: bit 0 is bit 0 of the first byte. A8's packet. -/
theorem test_decodeTableWord : decodeTableWord 40 0x0000FFFF31 = some (.marqueeStep (-1) 0) := by
  decide +kernel

/-! ## One step each -/

/-- A value of the next state, if there is one. -/
def result {α : Type} (f : State → α) : Host.Outcome State Fault Refusal → Option α
  | .next s => some (f s)
  | .fault _ => none
  | .refused _ => none

/-- The font F2 of `95_test_vectors.md`: variable width, height 7, 'H' to 'n'. -/
def fontF2 : List Byte :=
  [0x00, 0x39, 0x00, 0x07, 0x48, 0x27] ++ ([0x05, 0x03] ++ List.replicate 36 0x00 ++ [0x04]) ++
    [0xFE, 0x10, 0x10, 0x10, 0xFE] ++ [0x82, 0xFE, 0x82] ++ [0x3E, 0x20, 0x20, 0x1E]

/-- The state after reset and `SELECT_FONT 0`, with a given font. -/
def withFontState (font : List Byte) : State :=
  { State.resetWith { Config.standard with font := font } with fontValid := true }

/-- Font F1 selected. -/
def ready : State := withFontState Config.fontF1

/-- A3: CLEAR lit on the smallest block. -/
theorem test_clear_lit : result (fun s => s.fb.map Prod.snd) (exec (.clear false) State.reset) =
    some (List.replicate 64 0x00) := by decide +kernel

/-- A3: CLEAR blank leaves the reset contents. -/
theorem test_clear_blank :
    result (fun s => s.fb) (exec (.clear true) { State.reset with fb := [(5, 0x12)] }) = some [] := by
  decide +kernel

/-- B1: a 3×2 block, pixel (45, 20). -/
theorem test_pixel_address :
    byteIdx { Config.standard with pw := 3, ph := 2 } 45 20 = 113 ∧
    bitMask { Config.standard with pw := 3, ph := 2 } 45 20 = 0x04 := by decide

/-- A2, B2: (5, 2) NORMAL. -/
theorem test_setPixel_normal :
    result (fun s => s.fb) (exec (.setPixel 5 2 .normal true) State.reset) = some [(8, 0xFB)] := by
  decide +kernel

/-- B2: NOR with value 1 lights an unlit pixel. -/
theorem test_setPixel_nor :
    result (fun s => s.fb) (exec (.setPixel 1 0 .nor true) { State.reset with fb := [(0, 0x7E)] }) =
      some [(0, 0x3E)] := by decide +kernel

/-- B4: (0,0) to (5,2). -/
theorem test_line :
    result (fun s => s.fb) (exec (.line 0 0 5 2 .normal) State.reset) =
      some [(0, 0x3F), (4, 0xCF), (8, 0xF3)] := by decide +kernel

/-- B4: the tie breaks toward the step. -/
theorem test_line_points :
    linePoints 4 2 0 0 = [(4, 2), (3, 1), (2, 1), (1, 0), (0, 0)] := by decide

/-- B5: centre (0,0), radius 3, three quarters clipped. -/
theorem test_circle :
    result (fun s => s.fb) (exec (.circle 0 0 3 .normal) State.reset) =
      some [(0, 0xEF), (4, 0xEF), (8, 0xDF), (12, 0x3F)] := by decide +kernel

/-- B5: radius 4, the 20 points in order. -/
theorem test_circle_points :
    circlePoints 8 8 4 =
      [(8, 12), (4, 8), (12, 8), (8, 4), (9, 12), (7, 12), (9, 4), (7, 4), (12, 9), (4, 9), (12, 7),
       (4, 7), (10, 11), (6, 11), (10, 5), (6, 5), (11, 10), (5, 10), (11, 6), (5, 6)] := by decide

/-- B6: in TOGGLE mode the corners end unlit. -/
theorem test_box_toggle :
    result (fun s => s.fb) (exec (.box 2 1 9 5 .toggle) State.reset) =
      some [(4, 0xE0), (5, 0x7F), (8, 0xDF), (9, 0xBF), (12, 0xDF), (13, 0xBF), (16, 0xDF),
        (17, 0xBF), (20, 0xE0), (21, 0x7F)] := by decide +kernel

/-- B7: a box that starts off the canvas. -/
theorem test_filledBox :
    result (fun s => s.fb) (exec (.filledBox (-3) (-2) 2 1 .normal) State.reset) =
      some [(0, 0x1F), (4, 0x1F)] := by decide +kernel

/-- B8: the first checkerboard, rows 0 and 1, whatever the framebuffer held. -/
theorem test_testPattern :
    result (fun s => (s.fb.map Prod.snd).take 8)
        (exec (.testPattern 0) { State.reset with fb := [(0, 0x00)] }) =
      some [0xAA, 0xAA, 0xAA, 0xAA, 0x55, 0x55, 0x55, 0x55] := by decide +kernel

/-- B9: base 1 of F1 is out of bounds. -/
theorem test_selectFont_bounds :
    result (fun s => (s.err, s.fontValid)) (exec (.selectFont 1) State.reset) = some (4, false) := by
  decide +kernel

/-- B9: F2 after F1, at 21 = 0x15, whose extent ends with the font space. -/
theorem test_selectFont_second :
    result (fun s => (s.fontBase, s.fontValid))
        (exec (.selectFont 21) (withFontState (Config.fontF1 ++ fontF2))) = some (21, true) := by
  decide +kernel

/-- B10: a space is measured as 'n'. -/
theorem test_charWidth_space :
    result (fun s => s.res) (exec (.charWidth 0x20) (withFontState fontF2)) = some 4 := by
  decide +kernel

/-- A6: 'B' of F1. -/
theorem test_charWidth_fixed : result (fun s => s.res) (exec (.charWidth 0x42) ready) = some 5 := by
  decide +kernel

/-- R139: 'A' at (0,0). -/
theorem test_drawChar :
    result (fun s => (s.res, s.fb)) (exec (.drawChar 0 0 0x41 .normal) ready) =
      some (5, [(0, 0xDF), (4, 0xAF), (8, 0x77), (12, 0x77), (16, 0x07), (20, 0x77), (24, 0x77),
        (28, 0x77)]) := by decide +kernel

/-- B11: 'C' clipped right and below. -/
theorem test_drawChar_clipped :
    result (fun s => (s.res, s.fb)) (exec (.drawChar 30 12 0x43 .normal) ready) =
      some (5, [(51, 0xFE), (55, 0xFD), (59, 0xFD), (63, 0xFD)]) := by decide +kernel

/-- B12: "AB" at (1,0). -/
theorem test_drawString :
    result (fun s => (s.res, s.fb.take 6)) (exec (.drawString 1 0 .normal [0x41, 0x42]) ready) =
      some (0, [(0, 0xEE), (1, 0x1F), (4, 0xD6), (5, 0xEF), (8, 0xBA), (9, 0xEF)]) := by
  decide +kernel

/-- A7: "HI" at (32,0). -/
theorem test_marqueeBegin :
    result (fun s => [s.mqWidth, s.mqHeight, s.mqOffX, s.mqOffY])
        (exec (.marqueeBegin 32 0 [0x48, 0x49]) (withFontState fontF2)) = some [10, 7, 32, 0] ∧
    result (fun s => (s.mqLen, s.mqText, s.fb))
        (exec (.marqueeBegin 32 0 [0x48, 0x49]) (withFontState fontF2)) =
      some (2, [(0, 0x48), (1, 0x49)], []) := by decide +kernel

/-- The marquee "HI" of A7 at an offset. -/
def marqueeAt (offX : Word) : State :=
  { withFontState fontF2 with
    mqText := [(0, 0x48), (1, 0x49)], mqLen := 2, mqWidth := 10, mqHeight := 7, mqOffX := offX }

/-- R170: the first step brings in the first column of 'H' at x = 31. -/
theorem test_marqueeStep_enters :
    result (fun s => (s.mqOffX, s.res, s.fb)) (exec (.marqueeStep (-1) 0) (marqueeAt 32)) =
      some (31, 0, [(3, 0xFE), (7, 0xFE), (11, 0xFE), (15, 0xFE), (19, 0xFE), (23, 0xFE),
        (27, 0xFE)]) := by decide +kernel

/-- A8: the step past the threshold wraps. -/
theorem test_marqueeStep_wraps :
    result (fun s => (s.mqOffX, s.res, s.fb)) (exec (.marqueeStep (-1) 0) (marqueeAt (-10))) =
      some (32, 1, []) := by decide +kernel

/-- R188: the first SCAN_STEP after LINE 0,0,31,0. -/
theorem test_scanStep :
    result (fun s => (s.out, s.scanPhase, s.blank, s.rowSel))
        (exec .scanStep { State.reset with fb := [(0, 0), (1, 0), (2, 0), (3, 0)] }) =
      some (List.replicate 4 (.xfer 0xFF 0xFF 0xFF 0x00) ++
        [.blank true, .latch true, .latch false, .rowSel 0, .blank false], 1, false, 0) := by
  decide +kernel

/-- A9: the second row group, on `FB[i] = i`. -/
theorem test_scanStep_group1 :
    result (fun s => s.out.take 2)
        (exec .scanStep { State.reset with
          scanPhase := 1, fb := (List.range 64).map fun i => (i, BitVec.ofNat 8 i) }) =
      some [.xfer 0x34 0x24 0x14 0x04, .xfer 0x35 0x25 0x15 0x05] := by decide +kernel

/-- B3: `FF 01 00`: the illegal byte is recorded, the CLEAR after it runs. -/
theorem test_step_illegal :
    result (fun s => (s.err, s.input)) (step { State.reset with input := [0xFF, 0x01, 0x00] }) =
      some (1, [0x01, 0x00]) := by decide +kernel

/-- B12: NoFont, even though the text is empty. -/
theorem test_step_noFont :
    result (fun s => (s.err, s.input))
        (step { State.reset with input := [0x23, 0x00, 0x00, 0x00, 0x00, 0x00, 0x00] }) =
      some (3, []) := by decide +kernel

/-- The instruction word placed for the next step is the one it runs: `TEST_PATTERN 3`, first byte 0x55. -/
theorem test_withFetchWord :
    result (fun s => s.fb.head?) (step (State.reset.withFetchWord 16 0x0314)) =
      some (some (0, 0x55)) := by decide +kernel

/-! ## Witnesses: a concrete state and operands that meet the hypotheses of each statement -/

/-! ### Encoding -/

theorem test_witness_DecodeInvertsEncode :
    (Instr.marqueeBegin 32 0 (List.replicate 255 0x48)).wellFormed = true := by decide +kernel

theorem test_witness_DecodedPacketIsTheEncoding :
    decode [0x14, 0x03, 0x40] = .instr (.testPattern 3) [0x40] := by decide

/-- At the edges of the unassigned ranges. -/
theorem test_witness_IllegalOpcodeConsumesOneByte :
    State.reset.cfg.wellFormed = true ∧
    ∀ b ∈ ([0x00, 0x03, 0x0F, 0x15, 0x24, 0x32, 0x3F, 0x41, 0xFF] : List Byte),
      { State.reset with input := b :: [0x40] }.input = b :: [0x40] ∧
      b.toNat ∉ [0x01, 0x02, 0x10, 0x11, 0x12, 0x13, 0x14, 0x20, 0x21, 0x22, 0x23, 0x30, 0x31,
        0x40] := by decide

/-- One reserved packet of each kind of field, at the first reserved value. -/
theorem test_witness_ReservedOperandConsumesThePacket :
    State.reset.cfg.wellFormed = true ∧
    (CompletePacket .clear [0x01, 0x02] ∧ ReservedPacket .clear [0x01, 0x02]) ∧
    (CompletePacket .setPixel [0x02, 0, 0, 0, 0, 0x05] ∧
      ReservedPacket .setPixel [0x02, 0, 0, 0, 0, 0x05]) ∧
    (CompletePacket .setPixel [0x02, 0, 0, 0, 0, 0x10] ∧
      ReservedPacket .setPixel [0x02, 0, 0, 0, 0, 0x10]) ∧
    (CompletePacket .testPattern [0x14, 0x04] ∧ ReservedPacket .testPattern [0x14, 0x04]) ∧
    (CompletePacket .drawString [0x23, 0, 0, 0, 0, 0x05, 0x01, 0x41] ∧
      ReservedPacket .drawString [0x23, 0, 0, 0, 0, 0x05, 0x01, 0x41]) := by
  refine ⟨by decide, ⟨⟨rfl, rfl⟩, ?_⟩, ⟨⟨rfl, rfl⟩, ?_⟩, ⟨⟨rfl, rfl⟩, ?_⟩, ⟨⟨rfl, rfl⟩, ?_⟩,
    ⟨⟨rfl, rfl⟩, ?_⟩⟩ <;> simp [ReservedPacket, byteAt]

theorem test_witness_CompletePacketDecodes :
    CompletePacket .setPixel [0x02, 0, 0, 0, 0, 0x0C] ∧
    ¬ ReservedPacket .setPixel [0x02, 0, 0, 0, 0, 0x0C] :=
  ⟨⟨rfl, rfl⟩, by simp [ReservedPacket, byteAt]⟩

/-- No byte; a missing last byte; a missing length byte. -/
theorem test_witness_IncompletePacketWaits :
    (State.reset.cfg.wellFormed = true ∧ State.reset.afterReset = []) ∧
    EndsInsidePacket [] ∧ EndsInsidePacket [0x01] ∧ EndsInsidePacket [0x30, 0, 0, 0, 0] :=
  ⟨by decide, .inl rfl, .inr ⟨.clear, rfl, .inr ⟨2, rfl, by decide⟩⟩,
    .inr ⟨.marqueeBegin, rfl, .inl rfl⟩⟩

/-! ### Reset and the step -/

theorem test_witness_ResetInputDiscardsPartialPacket :
    EndsInsidePacket { State.reset with input := [0x02, 0xFF], afterReset := [[0x40]] }.input ∧
    { State.reset with input := [0x02, 0xFF], afterReset := [[0x40]] }.afterReset =
      [0x40] :: [] :=
  ⟨.inr ⟨.setPixel, rfl, .inr ⟨6, rfl, by decide⟩⟩, rfl⟩

theorem test_witness_StepRunsTheDecodedCommand :
    State.reset.cfg.wellFormed = true ∧
    decode { State.reset with input := [0x40, 0x01] }.input = .instr .scanStep [0x01] := by decide

/-- Each bound of the parameters broken alone. -/
theorem test_witness_IllegalConfigurationIsRefused :
    ∀ c ∈ [{ Config.standard with pw := 0 }, { Config.standard with pw := 1024 },
        { Config.standard with ph := 0 }, { Config.standard with ph := 2048 }],
      ¬ (1 ≤ (State.resetWith c).cfg.pw ∧ (State.resetWith c).cfg.pw ≤ 1023 ∧
        1 ≤ (State.resetWith c).cfg.ph ∧ (State.resetWith c).cfg.ph ≤ 2047 ∧
        (State.resetWith c).cfg.font.length ≤ 65536) := by decide

/-! ### Pixels and the framebuffer -/

/-- The last pixel and the last bit of a 3×2 block, and the 1×1 block. -/
theorem test_witness_PixelAddressingIsABijection :
    (95 < canvasW { Config.standard with pw := 3, ph := 2 } ∧
      31 < canvasH { Config.standard with pw := 3, ph := 2 } ∧
      383 < fbSize { Config.standard with pw := 3, ph := 2 }) ∧
    Config.standard.pw = 1 ∧ Config.standard.ph = 1 := by decide

/-- A framebuffer in canonical form, a point on the canvas and one at each edge off it. -/
theorem test_witness_PlotFollowsTheTruthTable :
    Memory.wf fbBlank (fbSize Config.standard) [(0, 0x7F), (63, 0x00)] ∧
    onCanvas Config.standard 31 15 ∧ ¬ onCanvas Config.standard 32 15 ∧
    ¬ onCanvas Config.standard 31 16 ∧ ¬ onCanvas Config.standard (-1) 0 := by decide

/-- Both hypotheses on the value, and two different points. -/
theorem test_witness_PlotLaws :
    Memory.wf fbBlank (fbSize Config.standard) [(0, 0x7F)] ∧
    (Dot.mk 0 0 true).v = true ∧ (Dot.mk 0 0 false).v = false ∧
    ((Dot.mk 0 0 true).x ≠ (Dot.mk 1 0 true).x ∨ (Dot.mk 0 0 true).y ≠ (Dot.mk 1 0 true).y) := by
  decide

theorem test_witness_SetPixelPlotsOnePixel :
    FramebufferOk { State.reset with fb := [(0, 0x7F), (63, 0x00)] } := by decide

theorem test_witness_PrimitivesDrawTheirPoints :
    FramebufferOk { State.reset with fb := [(8, 0xFB)] } := by decide

/-! ### Graphics -/

theorem test_witness_LineVisitsEachPointOnce :
    [((1 : Int), (1 : Int)), (2, 1)] <:+: linePoints 0 0 2 1 := ⟨[(0, 0)], [], by decide⟩

/-- A flat line, a steep line and a diagonal. -/
theorem test_witness_LineIsTheRoundedSegment :
    ((2 : Int) - 0).natAbs < ((5 : Int) - 0).natAbs ∧ ((2 : Int) - 0).natAbs ≤ ((5 : Int) - 0).natAbs ∧
    ((3 : Int) - 0).natAbs ≤ ((3 : Int) - 0).natAbs := by decide

/-- A point of a circle, and the radii 1, 0 and -1. -/
theorem test_witness_CircleIsSymmetricAndDistinct :
    ((8 : Int) + 1, (8 : Int) + 3) ∈ circlePoints 8 8 3 ∧ (1 : Int) ≤ 1 ∧ (0 : Int) = 0 ∧
    (-1 : Int) < 0 := by decide

/-- A point of a circle of radius 3, and its outermost column. -/
theorem test_witness_CircleFollowsItsRadius :
    (1 : Int) ≤ 3 ∧ ((8 : Int) + 2, (8 : Int) + 2) ∈ circlePoints 8 8 3 ∧ (-3 : Int) ≤ -3 ∧
    (-3 : Int) ≤ 3 := by decide

/-- A corner of a box, and a box of one point. -/
theorem test_witness_BoxPlotsItsOutline :
    ((2 : Int) ≠ 9 ∧ (1 : Int) ≠ 5 ∧ ((2 : Int), (1 : Int)) ∈ boxPoints 2 1 9 5) ∧
    (3 : Int) = 3 := by decide

theorem test_witness_TestPatternWritesEveryPixel : FramebufferOk State.reset := by decide

theorem test_witness_TestPatternBytes :
    FramebufferOk State.reset ∧ ∃ t, exec (.testPattern 2) State.reset = .next t :=
  ⟨by decide, _, rfl⟩

/-! ### Fonts and text -/

/-- A fixed-width font that fits to its last byte, a base whose header does not, a variable-width font
that fits to its last byte, and a base whose width table does not. -/
theorem test_witness_SelectFontChecksTheExtent :
    fontFits { Config.standard with font := Config.fontF1 } 0 = true ∧
    fontFits { Config.standard with font := Config.fontF1 } 16 = false ∧
    fontFits { Config.standard with font := Config.fontF1 ++ fontF2 } 21 = true ∧
    fontFits { Config.standard with font := Config.fontF1 ++ fontF2 } 72 = false := by
  decide +kernel

/-- The last byte of the last glyph of F1. -/
theorem test_witness_SelectedFontReadsInBounds :
    fontFits Config.standard 0 = true ∧ 2 < fontCount Config.standard 0 ∧
    4 < glyphWidth Config.standard 0 2 ∧ 0 < columnBytes Config.standard 0 := by decide

theorem test_witness_CharWidthMeasuresTheCode :
    FontReady ready ∧ FontReady (withFontState fontF2) := by decide +kernel

theorem test_witness_NoFontIsRecorded :
    ReadsFont (.charWidth 0x41) ∧ ReadsFont (.drawString 0 0 .normal []) ∧
    State.reset.fontValid = false := ⟨trivial, trivial, rfl⟩

/-- Each of the four cases: past the right edge, a space, an unsupported code, the last glyph at the edge. -/
theorem test_witness_DrawCharAnswersTheAdvance :
    (FontReady ready ∧ FramebufferOk ready) ∧
    (canvasW ready.cfg : Int) < (33 : Half).toInt ∧
    ¬ ((canvasW ready.cfg : Int) < (32 : Half).toInt ∨ (canvasH ready.cfg : Int) < (16 : Half).toInt) ∧
    fontFirst ready.cfg 0 + fontCount ready.cfg 0 ≤ (0x44 : Byte).toNat ∧
    ¬ fontFirst ready.cfg 0 + fontCount ready.cfg 0 ≤ (0x43 : Byte).toNat := by decide

theorem test_witness_GlyphIsBlittedBitByBit :
    FontReady ready ∧ FramebufferOk ready ∧ (0 : Half).toInt ≤ canvasW ready.cfg ∧
    (0 : Half).toInt ≤ canvasH ready.cfg ∧ (0x41 : Byte) ≠ 0x20 ∧
    fontFirst ready.cfg ready.fontBase.toNat ≤ (0x41 : Byte).toNat ∧
    (0x41 : Byte).toNat <
      fontFirst ready.cfg ready.fontBase.toNat + fontCount ready.cfg ready.fontBase.toNat ∧
    ∃ t, exec (.drawChar 0 0 0x41 .normal) ready = .next t :=
  ⟨by decide, by decide, by decide, by decide, by decide, by decide, by decide, _, rfl⟩

/-- A start on the canvas, whose leading column is on it too, the first column beyond the 12 that "AB"
advances the pen, and a start at the right edge. -/
theorem test_witness_DrawStringStaysInItsStrip :
    (FontReady ready ∧ FramebufferOk ready) ∧
    ((1 : Half).toInt < canvasW ready.cfg ∧ (0 : Half).toInt < canvasH ready.cfg ∧
      ((0 : Nat) : Int) = (1 : Half).toInt - 1) ∧
    (1 : Half).toInt + (([0x41, 0x42] : List Byte).map fun code =>
      let w := charWidthOf ready.cfg ready.fontBase.toNat code.toNat
      if w = 0 then 0 else w + 1).sum < ((14 : Nat) : Int) ∧
    (canvasW ready.cfg : Int) ≤ (32 : Half).toInt := by decide

theorem test_witness_OneCharacterStringIsLineCharLine :
    FontReady ready ∧ ready.cfg.wellFormed = true ∧ (1 : Half).toInt < canvasW ready.cfg ∧
    (0 : Half).toInt < canvasH ready.cfg ∧ -32768 < (1 : Half).toInt ∧
    (1 : Half).toInt + 255 ≤ 32767 ∧
    (0 : Half).toInt + fontHeight ready.cfg ready.fontBase.toNat ≤ 32767 := by decide

theorem test_witness_StringIsDrawnCharacterByCharacter :
    FontReady ready ∧ FramebufferOk ready ∧ (1 : Half).toInt + 256 ≤ 32767 := by decide

/-! ### Marquee -/

theorem test_witness_MarqueeBeginStoresMeasuresAndDraws :
    FontReady ready ∧ TextOk ready ∧ ([0x41, 0x42] : List Byte).length ≤ 255 := by decide

/-- A marquee of "A" in F1 about to enter from the right, on a blank canvas. -/
def entering : State := { ready with
  mqText := [(0, 0x41)], mqLen := 1, mqWidth := 6, mqHeight := 8, mqOffX := 32 }

/-- With both thresholds, and the offsets at them. -/
theorem test_witness_MarqueeStepAdvancesAndWraps :
    StateInv entering ∧ FontReady entering ∧ StateInv { entering with mqOffX := -6 } := by
  decide +kernel

theorem test_witness_GeneralMarqueeStepRedrawsTheString :
    StateInv entering ∧ FontReady entering ∧
    ¬ (((-2 : Half) = -1 ∨ (-2 : Half) = 1) ∧ (0 : Half) = 0) ∧
    ∃ t, exec (.marqueeStep (-2) 0) entering = .next t ∧ -32768 ≤ t.mqOffX.toInt :=
  ⟨by decide +kernel, by decide, by decide, _, rfl, by decide +kernel⟩

theorem test_witness_ShiftScrollsThePicture :
    31 < canvasW Config.standard ∧ 15 < canvasH Config.standard := by decide

/-- Rows below the text, and an empty text. -/
theorem test_witness_OnePixelStepMovesThePicture :
    (StateInv entering ∧ FontReady entering) ∧
    (∃ t, exec (.marqueeStep (-1) 0) entering = .next t ∧ t.res = 0 ∧
      t.mqOffY.toInt + fontHeight entering.cfg entering.fontBase.toNat < (9 : Nat)) ∧
    (∃ t, exec (.marqueeStep 1 0) ready = .next t ∧ t.res = 0 ∧ ready.mqLen = 0) :=
  ⟨by decide +kernel, ⟨_, rfl, by decide +kernel⟩, ⟨_, rfl, by decide +kernel⟩⟩

/-- The first character reaches the edge; with an empty text none does. -/
theorem test_witness_EnteringGlyphIsDrawnWhole :
    (StateInv entering ∧ FontReady entering) ∧
    (∃ t, exec (.marqueeStep (-1) 0) entering = .next t ∧
      (canvasW entering.cfg : Int) ≤ t.mqOffX.toInt + charWidthOf entering.cfg 0 0x41) ∧
    (∃ t, exec (.marqueeStep (-1) 0) ready = .next t) ∧ ready.mqLen.toNat = 0 :=
  ⟨by decide +kernel, ⟨_, rfl, by decide +kernel⟩, ⟨_, rfl⟩, rfl⟩

theorem test_witness_FastPathAgreesWithRedraw :
    StateInv entering ∧ FontReady entering ∧
    (∀ code ∈ (List.range entering.mqLen.toNat).map fun a => textRead entering.mqText a,
      0 < charWidthOf entering.cfg entering.fontBase.toNat code.toNat) ∧
    -32767 ≤ entering.mqOffX.toInt ∧
    (∃ blank u t v, exec (.clear true) entering = .next blank ∧
      exec (.drawString (BitVec.ofInt 16 entering.mqOffX.toInt)
        (BitVec.ofInt 16 entering.mqOffY.toInt) .normal
        ((List.range entering.mqLen.toNat).map fun a => textRead entering.mqText a)) blank = .next u ∧
      entering.fb = u.fb ∧
      exec (.marqueeStep (if true then -1 else 1) 0) entering = .next t ∧ t.res = 0 ∧
      exec (.drawString (BitVec.ofInt 16 t.mqOffX.toInt) (BitVec.ofInt 16 t.mqOffY.toInt) .normal
        ((List.range entering.mqLen.toNat).map fun a => textRead entering.mqText a)) blank =
        .next v) :=
  ⟨by decide +kernel, by decide, by decide +kernel, by decide,
    _, _, _, _, rfl, rfl, by decide +kernel, rfl, by decide +kernel, rfl⟩

theorem test_witness_TextBeyondLengthIsNeverRead :
    (∀ a, a < entering.mqLen.toNat →
      textRead [(0, 0x41), (7, 0x42)] a = textRead entering.mqText a) ∧
    ∃ t, exec (.marqueeStep (-1) 0) entering = .next t := ⟨by decide, _, rfl⟩

/-! ### Scan-out -/

/-- A block with the ready gate, and the levels of its next samples. -/
def gated (levels : List Bool) : State :=
  { State.resetWith { Config.standard with scanGated := true } with serReady := levels }

theorem test_witness_ScanStepSendsARowGroup :
    State.reset.cfg.scanGated = false ∧
    (gated [true]).cfg.scanGated = true ∧ (gated [true]).serReady = true :: [] := by decide

/-- Without a level given, one of the two hypotheses on the free value holds. -/
theorem test_witness_ClosedGateSkipsTheScanStep :
    (gated [false]).cfg.scanGated = true ∧ (gated [false]).serReady = false :: [] ∧
    (gated []).serReady = [] ∧
    (Config.serReadyBeyond (gated []).serSamples = false ∨
      Config.serReadyBeyond (gated []).serSamples = true) :=
  ⟨rfl, rfl, rfl, by cases Config.serReadyBeyond (gated []).serSamples <;> simp⟩

/-- A block without a gate, in the last phase, and a block with a gate whose next four levels are 1. -/
theorem test_witness_FourScanStepsSendEveryByteOnce :
    { ready with scanPhase := 3 }.cfg.scanGated = false ∧
    (gated [true, true, true, true]).cfg.scanGated = true ∧
    ∀ k, k < 4 →
      (gated [true, true, true, true]).serReady.getD k
        (Config.serReadyBeyond ((gated [true, true, true, true]).serSamples + k)) = true :=
  ⟨rfl, rfl, fun k hk => by
    match k, hk with
    | 0, _ => rfl
    | 1, _ => rfl
    | 2, _ => rfl
    | 3, _ => rfl⟩

/-! ### The whole machine -/

theorem test_witness_ResetSatisfiesTheInvariant :
    Config.standard.wellFormed = true ∧
    ({ Config.standard with pw := 1023, ph := 2047 } : Config).wellFormed = true := by decide

theorem test_witness_StepKeepsTheInvariant :
    StateInv { entering with input := [0x31, 0xFF, 0xFF, 0x00, 0x00] } ∧
    ∃ t, step { entering with input := [0x31, 0xFF, 0xFF, 0x00, 0x00] } = .next t :=
  ⟨by decide +kernel, _, rfl⟩

theorem test_witness_GoodStatesNeverStop : StateInv State.reset ∧ StateInv entering := by
  decide +kernel

/-- A later fault, and a reset. -/
theorem test_witness_FirstFaultIsKept :
    (∃ t, step { State.reset with err := 4, input := [0xFF] } = .next t) ∧
    (∃ t, step { State.reset with err := 4, afterReset := [[]] } = .next t) ∧ (4 : BitVec 3) ≠ 0 :=
  ⟨⟨_, rfl⟩, ⟨_, rfl⟩, by decide⟩

theorem test_witness_CommandsIgnoreTheFaultRegister :
    ∃ t, exec (.selectFont 16) { State.reset with err := 3 } = .next t := ⟨_, rfl⟩

theorem test_witness_FaultingCommandChangesOnlyErr :
    ∃ t, exec (.charWidth 0x41) State.reset = .next t ∧ t.err ≠ State.reset.err :=
  ⟨_, rfl, by decide⟩

theorem test_witness_OnlyScanStepDrivesTheLines :
    (∃ t, exec (.line 0 0 31 0 .normal) State.reset = .next t) ∧
    ∃ t, exec .scanStep State.reset = .next t := ⟨⟨_, rfl⟩, _, rfl⟩

/-- Each of the registers changed by a command that writes it. -/
theorem test_witness_RegistersHaveTheirWriters :
    (∃ t, exec (.charWidth 0x41) ready = .next t ∧ t.res ≠ ready.res) ∧
    (∃ t, exec (.selectFont 0) State.reset = .next t ∧ t.fontValid ≠ State.reset.fontValid) ∧
    (∃ t, exec (.marqueeBegin 3 0 [0x41]) ready = .next t ∧ t.mqText ≠ ready.mqText ∧
      t.mqOffX ≠ ready.mqOffX) :=
  ⟨⟨_, rfl, by decide +kernel⟩, ⟨_, rfl, by decide +kernel⟩, ⟨_, rfl, by decide +kernel⟩⟩

end Sys2Proof.Tests
end

/-! # The parameters of the block (`00_scope.md`) -/

namespace Sys2Proof

/-- The check of the parameters decides the legal values of `00_scope.md` R4. -/
theorem Config.wellFormed_iff (c : Config) :
    c.wellFormed = true ↔
      1 ≤ c.pw ∧ c.pw ≤ 1023 ∧ 1 ≤ c.ph ∧ c.ph ≤ 2047 ∧ c.font.length ≤ 65536 := by
  simp only [Config.wellFormed, Bool.and_eq_true, decide_eq_true_eq, and_assoc]

end Sys2Proof

namespace Sys2Proof.Machine

/-- A step of a block with illegal parameters is refused before the command port or the reset input is
looked at (`93_implementation_defined.md` U14). -/
theorem step_of_not_wellFormed {s : State} (h : ¬ s.cfg.wellFormed = true) :
    step s = .refused .illegalConfiguration :=
  if_pos (Bool.eq_false_of_not_eq_true h)

end Sys2Proof.Machine

namespace Sys2Proof.Proofs

open Sys2Proof.Machine

/-- Settles O11: the step's check fails exactly on the parameters outside R4, and a step whose check fails
is refused. -/
theorem illegalConfigurationIsRefused : Obligations.IllegalConfigurationIsRefused := by
  intro s houtside
  have hillegal : ¬ s.cfg.wellFormed = true := mt s.cfg.wellFormed_iff.mp houtside
  exact step_of_not_wellFormed hillegal

end Sys2Proof.Proofs

/-! # The packet at the head of the stream (`30_encoding.md` R61, R81) -/

namespace Sys2Proof

/-- No packet is longer than its opcode's fixed length and the 255 characters a length byte can name
(`30_encoding.md` R61). -/
theorem packetLength_le {op : Opcode} {s : List Byte} {n : Nat} (h : packetLength op s = some n) :
    n ≤ op.fixedLength + 255 := by
  unfold packetLength at h
  split at h
  case h_1 =>
    cases h
    exact Nat.le_add_right _ _
  case h_2 k hlen =>
    obtain ⟨len, -, rfl⟩ := Option.map_eq_some_iff.mp h
    have := len.isLt
    omega

/-- A packet with room for at most 255 characters of text parses to a well-formed instruction
(`30_encoding.md` R73, R75). -/
theorem wellFormed_of_parsePacket {op : Opcode} {p : List Byte} {i : Instr}
    (hlen : p.length ≤ op.fixedLength + 255) (h : parsePacket op p = some i) :
    i.wellFormed = true := by
  cases op with
  | drawString =>
    obtain ⟨mode, -, rfl⟩ := Option.map_eq_some_iff.mp h
    have : (p.drop 7).length ≤ 255 := by
      simp only [List.length_drop, Opcode.fixedLength] at hlen ⊢
      omega
    exact decide_eq_true this
  | marqueeBegin =>
    cases h
    have : (p.drop 6).length ≤ 255 := by
      simp only [List.length_drop, Opcode.fixedLength] at hlen ⊢
      omega
    exact decide_eq_true this
  | selectFont | charWidth | marqueeStep | scanStep =>
    cases h
    rfl
  | _ =>
    obtain ⟨_, -, rfl⟩ := Option.map_eq_some_iff.mp h
    rfl

namespace Machine

/-- An unassigned opcode byte is no beginning of a packet (`30_encoding.md` R78). -/
theorem not_endsInsidePacket_of_unassigned {b : Byte} {rest : List Byte}
    (hop : Opcode.ofByte b = none) : ¬ EndsInsidePacket (b :: rest) := by
  rintro (h | ⟨op, hhead, -⟩)
  · cases h
  · cases hhead
    simp at hop

/-- A stream with an assigned opcode at its head ends inside the packet exactly where its length byte or a
later byte is missing (`30_encoding.md` R61). -/
theorem endsInsidePacket_cons_iff {b : Byte} {rest : List Byte} {op : Opcode}
    (hop : Opcode.ofByte b = some op) :
    EndsInsidePacket (b :: rest) ↔
      packetLength op (b :: rest) = none ∨
        ∃ n, packetLength op (b :: rest) = some n ∧ (b :: rest).length < n := by
  constructor
  · rintro (h | ⟨op', hhead, hends⟩)
    · cases h
    · cases hhead
      rw [ofByte_byte] at hop
      cases hop
      exact hends
  · exact fun hends => .inr ⟨op, congrArg some (byte_of_ofByte hop).symm, hends⟩

/-- The decoder finds no complete packet exactly where the stream ends before one or inside one
(`30_encoding.md` R61). -/
theorem decode_eq_incomplete_iff {s : List Byte} :
    decode s = .incomplete ↔ EndsInsidePacket s := by
  cases s with
  | nil => exact ⟨fun _ => .inl rfl, fun _ => rfl⟩
  | cons b rest =>
    cases hop : Opcode.ofByte b with
    | none => simp [decode, hop, not_endsInsidePacket_of_unassigned hop]
    | some op =>
      rw [endsInsidePacket_cons_iff hop]
      cases hn : packetLength op (b :: rest) with
      | none => simp [decode, hop, hn]
      | some n =>
        by_cases hall : hasBytes n (b :: rest) = true
        · have hfits : ¬ (b :: rest).length < n := not_lt.mpr (hasBytes_iff.mp hall)
          cases hparse : parsePacket op ((b :: rest).take n) <;>
            simp [decode, hop, hn, hall, hparse, hfits, -List.length_cons]
        · have hshort : (b :: rest).length < n := not_le.mp (mt hasBytes_iff.mpr hall)
          simp [decode, hop, hn, hall, hshort, -List.length_cons]

/-- What a decoded instruction was parsed from: the packet its opcode and its length byte give. -/
theorem decode_eq_instr {s rest : List Byte} {i : Instr} (h : decode s = .instr i rest) :
    ∃ (op : Opcode) (n : Nat), s.head? = some op.byte ∧ packetLength op s = some n ∧
      n ≤ s.length ∧ parsePacket op (s.take n) = some i ∧ rest = s.drop n := by
  cases s with
  | nil => cases h
  | cons b tail =>
    simp only [decode] at h
    split at h
    case h_1 => cases h
    case h_2 op hop =>
      split at h
      case h_1 => cases h
      case h_2 n hn =>
        split at h
        case isFalse => cases h
        case isTrue hall =>
          split at h
          case h_1 => cases h
          case h_2 hparse =>
            cases h
            exact ⟨op, n, congrArg some (byte_of_ofByte hop).symm, hn, hasBytes_iff.mp hall,
              hparse, rfl⟩

/-- Every decoded instruction is one a packet can carry: its text has at most 255 characters. -/
theorem wellFormed_of_decode {s rest : List Byte} {i : Instr} (h : decode s = .instr i rest) :
    i.wellFormed = true := by
  obtain ⟨op, n, -, hn, -, hparse, -⟩ := decode_eq_instr h
  refine wellFormed_of_parsePacket ?_ hparse
  calc (s.take n).length ≤ n := List.length_take_le n s
    _ ≤ op.fixedLength + 255 := packetLength_le hn

end Machine

end Sys2Proof

/-! # What a command that completes leaves -/

namespace Sys2Proof.Machine

/-- The framebuffer that a drawing command which reads no font leaves; `none` for the other commands. -/
def paint (c : Config) (fb : Memory) : Instr → Option Memory
  | .clear toBlank => some (fbFill c (if toBlank then 0xFF else 0x00))
  | .setPixel x y mode value => some (plot c mode fb ⟨coord x, coord y, value⟩)
  | .line x0 y0 x1 y1 mode =>
    some (drawPoints c mode fb (linePoints (coord x0) (coord y0) (coord x1) (coord y1)))
  | .circle xc yc r mode =>
    some (drawPoints c mode fb (circlePoints (coord xc) (coord yc) (coord r)))
  | .box x0 y0 x1 y1 mode =>
    some (drawPoints c mode fb (boxPoints (coord x0) (coord y0) (coord x1) (coord y1)))
  | .filledBox x0 y0 x1 y1 mode =>
    some (drawPoints c mode fb (filledBoxPoints (coord x0) (coord y0) (coord x1) (coord y1)))
  | .testPattern pattern => some (plotAll c .normal fb (patternDots c pattern))
  | _ => none

/-- The events of a SCAN_STEP that runs (`44_scan.md` R183). -/
def scanEvents (s : State) : List Event :=
  transferUnits s.cfg s.fb s.scanPhase.toNat ++
    [.blank true, .latch true, .latch false, .rowSel s.scanPhase, .blank false]

/-- `Effect s i t`: the command `i` takes `s` to `t`, one constructor for each way a command completes.
`exec_eq_next_iff` ties it to `exec`. -/
inductive Effect (s : State) : Instr → State → Prop
  | paints {i : Instr} {fb : Memory} (h : paint s.cfg s.fb i = some fb) :
      Effect s i { s with fb := fb }
  | noFont {i : Instr} (reads : ReadsFont i) (unselected : s.fontValid = false) :
      Effect s i (raise .noFont s)
  | fontOutOfBounds {base : Half} (h : fontFits s.cfg (address base) = false) :
      Effect s (.selectFont base) (raise .fontBounds s)
  | selectsFont {base : Half} (h : fontFits s.cfg (address base) = true) :
      Effect s (.selectFont base) { s with fontBase := base, fontValid := true }
  | measures {code : Byte} (font : FontReady s) :
      Effect s (.charWidth code)
        { s with res := toRes (charWidthOf s.cfg (address s.fontBase) (number code)) }
  | drawsChar {x y : Half} {code : Byte} {mode : Mode} {fb : Memory} {w : Int} (font : FontReady s)
      (h : drawCharAt s.cfg (address s.fontBase) s.fb (coord x) (coord y) (number code) mode =
        (fb, w)) :
      Effect s (.drawChar x y code mode) { s with fb := fb, res := toRes w }
  | drawsString {x y : Half} {mode : Mode} {text : List Byte} (font : FontReady s) :
      Effect s (.drawString x y mode text)
        { s with
          fb := drawStringAt s.cfg (address s.fontBase) s.fb (coord x) (coord y) text mode }
  | beginsMarquee {left top : Half} {text : List Byte} (font : FontReady s) :
      Effect s (.marqueeBegin left top text)
        { s with
          mqText := storeText s.mqText 0 text
          mqLen := BitVec.ofNat 8 text.length
          mqWidth := toReg (marqueeWidth s.cfg (address s.fontBase) text)
          mqHeight := toReg (fontHeight s.cfg (address s.fontBase))
          mqOffX := toReg (coord left)
          mqOffY := toReg (coord top)
          fb := drawStringAt s.cfg (address s.fontBase) s.fb (coord left) (coord top) text
            .normal }
  | stepsMarquee {dx dy : Half} {offX offY : Int} {wrapX wrapY : Bool} (font : FontReady s)
      (hx : wrapOffset (signedReg s.mqOffX + coord dx) (signedReg s.mqWidth) (canvasW s.cfg) =
        (offX, wrapX))
      (hy : wrapOffset (signedReg s.mqOffY + coord dy) (signedReg s.mqHeight) (canvasH s.cfg) =
        (offY, wrapY)) :
      Effect s (.marqueeStep dx dy)
        { s with
          mqOffX := toReg offX
          mqOffY := toReg offY
          fb := marqueeRedraw s.cfg (address s.fontBase)
            (if wrapX || wrapY then fbFill s.cfg 0xFF else s.fb) (marqueeText s) (coord dx)
            (coord dy) offX offY
          res := toRes (if wrapX || wrapY then 1 else 0) }
  | scansUngated (gate : s.cfg.scanGated = false) :
      Effect s .scanStep
        { s with
          scanPhase := s.scanPhase + 1, blank := false, latch := false, rowSel := s.scanPhase
          out := s.out ++ scanEvents s }
  | scansReady (gate : s.cfg.scanGated = true) (ready : serReadyNow s = true) :
      Effect s .scanStep
        { s with
          scanPhase := s.scanPhase + 1, blank := false, latch := false, rowSel := s.scanPhase
          out := s.out ++ scanEvents s
          serReady := s.serReady.tail, serSamples := s.serSamples + 1 }
  | skipsScan (gate : s.cfg.scanGated = true) (ready : serReadyNow s = false) :
      Effect s .scanStep (afterSample s)

/-- A drawing command that reads no font always completes, and writes the framebuffer alone. -/
theorem exec_of_paint {s : State} {i : Instr} {fb : Memory} (h : paint s.cfg s.fb i = some fb) :
    exec i s = .next { s with fb := fb } := by
  cases i with
  | clear | setPixel | line | circle | box | filledBox | testPattern =>
    cases h
    rfl
  | _ => cases h

/-- Without a selected font a command that reads one records `NoFont` and does nothing else
(`60_exceptions.md` R201). -/
theorem exec_of_noFont {s : State} {i : Instr} (reads : ReadsFont i)
    (unselected : s.fontValid = false) :
    exec i s = .next (raise .noFont s) := by
  cases i with
  | charWidth | drawChar | drawString | marqueeBegin | marqueeStep =>
    simp only [exec, execCharWidth, execDrawChar, execDrawString, execMarqueeBegin,
      execMarqueeStep, withFont_noFont unselected]
  | _ => exact reads.elim

/-- A font-reading command that completes records `NoFont`, or runs with a font that can be read. -/
theorem effect_of_withFont {s t : State} {i : Instr} {run : Nat → State} (reads : ReadsFont i)
    (runs : FontReady s → Effect s i (run (address s.fontBase)))
    (h : withFont s run = .next t) : Effect s i t := by
  rcases withFont_cases s run with ⟨hnone, hw⟩ | ⟨hvalid, hfits, hw⟩ | ⟨-, -, hw⟩
  · rw [hw] at h
    cases h
    exact .noFont reads hnone
  · rw [hw] at h
    cases h
    exact runs ⟨hvalid, hfits⟩
  · rw [hw] at h
    cases h

/-- Everything a command that completes can do. -/
theorem effect_of_exec {i : Instr} {s t : State} (h : exec i s = .next t) : Effect s i t := by
  cases i with
  | clear | setPixel | line | circle | box | filledBox | testPattern =>
    cases h
    exact .paints rfl
  | selectFont base =>
    simp only [exec, execSelectFont] at h
    split at h
    case isTrue hfits =>
      cases h
      exact .selectsFont hfits
    case isFalse hout =>
      cases h
      exact .fontOutOfBounds (Bool.eq_false_of_not_eq_true hout)
  | charWidth =>
    simp only [exec, execCharWidth] at h
    exact effect_of_withFont trivial .measures h
  | drawChar =>
    simp only [exec, execDrawChar] at h
    exact effect_of_withFont trivial (fun font => .drawsChar font rfl) h
  | drawString =>
    simp only [exec, execDrawString] at h
    exact effect_of_withFont trivial .drawsString h
  | marqueeBegin =>
    simp only [exec, execMarqueeBegin] at h
    exact effect_of_withFont trivial .beginsMarquee h
  | marqueeStep =>
    simp only [exec, execMarqueeStep] at h
    exact effect_of_withFont trivial (fun font => .stepsMarquee font rfl rfl) h
  | scanStep =>
    change execScanStep s = .next t at h
    rcases execScanStep_cases s with ⟨gate, hs⟩ | ⟨gate, ready, hs⟩ | ⟨gate, ready, hs⟩
    · rw [hs, scanOut_eq] at h
      cases h
      exact .scansUngated gate
    · rw [hs, scanOut_eq] at h
      cases h
      exact .scansReady gate ready
    · rw [hs] at h
      cases h
      exact .skipsScan gate ready

/-- Every effect is one `exec` has. -/
theorem exec_of_effect {i : Instr} {s t : State} (h : Effect s i t) : exec i s = .next t := by
  cases h with
  | paints h => exact exec_of_paint h
  | noFont reads unselected => exact exec_of_noFont reads unselected
  | fontOutOfBounds h => simp [exec, execSelectFont, h]
  | selectsFont h => simp [exec, execSelectFont, h]
  | measures font => simp [exec, execCharWidth, withFont_ready font.1 font.2]
  | drawsChar font h => simp [exec, execDrawChar, withFont_ready font.1 font.2, h]
  | drawsString font => simp [exec, execDrawString, withFont_ready font.1 font.2]
  | beginsMarquee font => simp [exec, execMarqueeBegin, withFont_ready font.1 font.2]
  | stepsMarquee font hx hy => simp [exec, execMarqueeStep, withFont_ready font.1 font.2, hx, hy]
  | scansUngated gate => simp [exec, execScanStep, gate, scanOut_eq, scanEvents]
  | scansReady gate ready => simp [exec, execScanStep, gate, ready, scanOut_eq, scanEvents]
  | skipsScan gate ready => simp [exec, execScanStep, gate, ready]

/-- A command completes exactly with its effects. -/
theorem exec_eq_next_iff {i : Instr} {s t : State} : exec i s = .next t ↔ Effect s i t :=
  ⟨effect_of_exec, exec_of_effect⟩

/-! # Which command writes what (`10_state.md`) -/

namespace Effect

variable {s t : State} {i : Instr}

theorem cfg_eq (h : Effect s i t) : t.cfg = s.cfg := by cases h <;> rfl

theorem input_eq (h : Effect s i t) : t.input = s.input := by cases h <;> rfl

theorem afterReset_eq (h : Effect s i t) : t.afterReset = s.afterReset := by cases h <;> rfl

/-- `RES` is written by CHAR_WIDTH, DRAW_CHAR and MARQUEE_STEP only (`10_state.md` R10). -/
theorem res_writer (h : Effect s i t) (hne : t.res ≠ s.res) :
    (∃ c, i = .charWidth c) ∨ (∃ x y c m, i = .drawChar x y c m) ∨
      ∃ dx dy, i = .marqueeStep dx dy := by
  cases h with
  | measures => exact .inl ⟨_, rfl⟩
  | drawsChar => exact .inr (.inl ⟨_, _, _, _, rfl⟩)
  | stepsMarquee => exact .inr (.inr ⟨_, _, rfl⟩)
  | _ => exact absurd rfl hne

/-- The font selection is written by SELECT_FONT only (`10_state.md` R15). -/
theorem font_writer (h : Effect s i t)
    (hne : t.fontBase ≠ s.fontBase ∨ t.fontValid ≠ s.fontValid) : ∃ b, i = .selectFont b := by
  cases h with
  | selectsFont => exact ⟨_, rfl⟩
  | _ => exact hne.elim (absurd rfl) (absurd rfl)

/-- The marquee text and its measures are written by MARQUEE_BEGIN only (`10_state.md` R16). -/
theorem marqueeText_writer (h : Effect s i t)
    (hne : t.mqText ≠ s.mqText ∨ t.mqLen ≠ s.mqLen ∨ t.mqWidth ≠ s.mqWidth ∨
      t.mqHeight ≠ s.mqHeight) : ∃ l u text, i = .marqueeBegin l u text := by
  cases h with
  | beginsMarquee => exact ⟨_, _, _, rfl⟩
  | _ => rcases hne with h | h | h | h <;> exact absurd rfl h

/-- The marquee offsets are written by the two marquee commands only (`10_state.md` R16). -/
theorem offset_writer (h : Effect s i t) (hne : t.mqOffX ≠ s.mqOffX ∨ t.mqOffY ≠ s.mqOffY) :
    (∃ l u text, i = .marqueeBegin l u text) ∨ ∃ dx dy, i = .marqueeStep dx dy := by
  cases h with
  | beginsMarquee => exact .inl ⟨_, _, _, rfl⟩
  | stepsMarquee => exact .inr ⟨_, _, rfl⟩
  | _ => exact hne.elim (absurd rfl) (absurd rfl)

/-- No command but SCAN_STEP touches the phase, the lines, `OUT` or the samples of `ser_ready`
(`10_state.md` R14, R24). -/
theorem lines_eq (h : Effect s i t) (hne : i ≠ .scanStep) :
    t.scanPhase = s.scanPhase ∧ t.blank = s.blank ∧ t.latch = s.latch ∧ t.rowSel = s.rowSel ∧
      t.out = s.out ∧ t.serReady = s.serReady ∧ t.serSamples = s.serSamples := by
  cases h with
  | scansUngated | scansReady | skipsScan => exact absurd rfl hne
  | _ => exact ⟨rfl, rfl, rfl, rfl, rfl, rfl, rfl⟩

/-- SCAN_STEP touches nothing else (`44_scan.md` R183). -/
theorem scanStep_frame (h : Effect s .scanStep t) :
    t = { s with
      scanPhase := t.scanPhase, blank := t.blank, latch := t.latch, rowSel := t.rowSel
      out := t.out, serReady := t.serReady, serSamples := t.serSamples } := by
  cases h with
  | paints h => cases h
  | noFont reads => exact reads.elim
  | scansUngated | scansReady | skipsScan => rfl

/-- Every effect keeps `ERR`, or is the recording of a fault (`60_exceptions.md` R203). -/
theorem err_cases (h : Effect s i t) : t.err = s.err ∨ ∃ f, t = raise f s := by
  cases h with
  | noFont => exact .inr ⟨_, rfl⟩
  | fontOutOfBounds => exact .inr ⟨_, rfl⟩
  | _ => exact .inl rfl

/-- An effect is the same whatever `ERR` holds, but for `ERR` itself (`10_state.md` R12). -/
theorem with_err (h : Effect s i t) (e : BitVec 3) :
    ∃ e', Effect { s with err := e } i { t with err := e' } := by
  cases h with
  | paints h => exact ⟨e, .paints h⟩
  | noFont reads unselected => exact ⟨stickyErr e .noFont, .noFont reads unselected⟩
  | fontOutOfBounds h => exact ⟨stickyErr e .fontBounds, .fontOutOfBounds h⟩
  | selectsFont h => exact ⟨e, .selectsFont h⟩
  | measures font => exact ⟨e, .measures font⟩
  | drawsChar font h => exact ⟨e, .drawsChar font h⟩
  | drawsString font => exact ⟨e, .drawsString font⟩
  | beginsMarquee font => exact ⟨e, .beginsMarquee font⟩
  | stepsMarquee font hx hy => exact ⟨e, .stepsMarquee font hx hy⟩
  | scansUngated gate => exact ⟨e, .scansUngated gate⟩
  | scansReady gate ready => exact ⟨e, .scansReady gate ready⟩
  | skipsScan gate ready => exact ⟨e, .skipsScan gate ready⟩

end Effect

/-- A fault recorded when `ERR` is nonzero leaves it (`60_exceptions.md` R203). -/
theorem stickyErr_of_ne_zero {err : BitVec 3} (h : err ≠ 0) (f : BlockFault) :
    stickyErr err f = err := if_neg h

/-- `marqueeText` is the bytes of the text store below `MQ_LEN` and nothing else (`10_state.md` R22). -/
theorem marqueeText_congr {s : State} {other : Memory}
    (h : ∀ a, a < s.mqLen.toNat → textRead other a = textRead s.mqText a) :
    marqueeText { s with mqText := other } = marqueeText s :=
  List.map_congr_left fun a ha => h a (List.mem_range.mp ha)

/-- A marquee step reads the text store through `marqueeText` alone. -/
theorem Effect.marqueeStep_with_mqText {s t : State} {dx dy : Half} {other : Memory}
    (h : Effect s (.marqueeStep dx dy) t)
    (hsame : ∀ a, a < s.mqLen.toNat → textRead other a = textRead s.mqText a) :
    Effect { s with mqText := other } (.marqueeStep dx dy) { t with mqText := other } := by
  cases h with
  | paints h => cases h
  | noFont reads unselected => exact .noFont reads unselected
  | stepsMarquee font hx hy =>
    rw [← marqueeText_congr hsame]
    exact .stepsMarquee font hx hy

/-! # The invariant of the block -/

/-! ## Registers that hold what is written to them (`00_scope.md` R6) -/

/-- A marquee register holds every integer of 32 bits exactly (`10_state.md` R16). -/
theorem signedReg_toReg {v : Int} (hlo : -2147483648 ≤ v) (hhi : v < 2147483648) :
    signedReg (toReg v) = v :=
  BitVec.toInt_ofInt_eq_self (by decide) hlo hhi

/-- `RES` holds every integer of 16 bits exactly (`10_state.md` R10). -/
theorem toInt_toRes {v : Int} (hlo : -32768 ≤ v) (hhi : v < 32768) : (toRes v).toInt = v :=
  BitVec.toInt_ofInt_eq_self (by decide) hlo hhi

/-- A marquee register keeps a range in which an integer written to it lies (`10_state.md` R16). -/
theorem toReg_range {lo hi v : Int} (hlo : -65280 ≤ lo) (hhi : hi ≤ 65280) (hv : lo ≤ v ∧ v ≤ hi) :
    lo ≤ signedReg (toReg v) ∧ signedReg (toReg v) ≤ hi := by
  rwa [signedReg_toReg (by omega) (by omega)]

/-- `RES` holds the results of the commands, -1 to 255, exactly (`10_state.md` R10). -/
theorem toRes_range {v : Int} (hv : -1 ≤ v ∧ v ≤ 255) :
    -1 ≤ (toRes v).toInt ∧ (toRes v).toInt ≤ 255 := by
  rwa [toInt_toRes (by omega) (by omega)]

/-- A coordinate operand is a signed 16-bit integer (`00_scope.md` R7). -/
theorem coord_range (h : Half) : -32768 ≤ coord h ∧ coord h ≤ 32767 :=
  ⟨BitVec.le_toInt h, Int.lt_add_one_iff.mp BitVec.toInt_lt⟩

/-- The canvas of a legal block is narrower and lower than 32768 pixels (`00_scope.md` R4, R5). -/
theorem canvas_lt {c : Config} (h : c.wellFormed = true) :
    canvasW c < 32768 ∧ canvasH c < 32768 := by
  obtain ⟨-, hpw, -, hph, -⟩ := c.wellFormed_iff.mp h
  unfold canvasW canvasH
  omega

/-- The wrap brings an offset between the negated extent and the edge (`43_marquee.md` R164). -/
theorem wrapOffset_range {off extent edge off' : Int} {wrapped : Bool} (h : -extent ≤ edge)
    (hwrap : wrapOffset off extent edge = (off', wrapped)) : -extent ≤ off' ∧ off' ≤ edge := by
  rcases wrapOffset_cases off extent edge with ⟨-, e⟩ | ⟨-, -, e⟩ | ⟨hlo, hhi, e⟩
  · cases e.symm.trans hwrap
    exact ⟨h, le_rfl⟩
  · cases e.symm.trans hwrap
    exact ⟨le_rfl, h⟩
  · cases e.symm.trans hwrap
    exact ⟨hlo, hhi⟩

/-- `ERR` holds 0 or the code of a fault before and after a fault (`60_exceptions.md` R201). -/
theorem stickyErr_le {err : BitVec 3} (h : err.toNat ≤ 4) (f : BlockFault) :
    (stickyErr err f).toNat ≤ 4 := by
  unfold stickyErr
  split
  · cases f <;> decide
  · exact h

/-- A drawing command keeps the framebuffer's canonical form. -/
theorem fbWf_paint {c : Config} {fb fb' : Memory} {i : Instr} (hfb : fbWf c fb)
    (h : paint c fb i = some fb') : fbWf c fb' := by
  cases i with
  | clear =>
    cases h
    exact fbWf_fbFill c _
  | setPixel =>
    cases h
    exact fbWf_plot hfb
  | line | circle | box | filledBox =>
    cases h
    exact fbWf_drawPoints hfb _
  | testPattern =>
    cases h
    exact fbWf_plotAll hfb _
  | _ => cases h

/-! ## Every effect keeps each part of the invariant -/

namespace Effect

variable {s t : State} {i : Instr}

theorem framebufferOk (h : Effect s i t) (hfb : FramebufferOk s) : FramebufferOk t := by
  cases h with
  | paints h => exact fbWf_paint hfb h
  | @drawsChar x y code mode fb w font hdrawn =>
    have hwf := fbWf_drawCharAt hfb (address s.fontBase) (coord x) (coord y) (number code) mode
    rwa [hdrawn] at hwf
  | drawsString => exact fbWf_drawStringAt hfb _ _ _ _ _
  | beginsMarquee => exact fbWf_drawStringAt hfb _ _ _ _ _
  | stepsMarquee =>
    refine fbWf_marqueeRedraw ?_ _ _ _ _ _ _
    split
    · exact fbWf_fbFill _ _
    · exact hfb
  | _ => exact hfb

theorem textOk (h : Effect s i t) (hi : i.wellFormed = true) (htext : TextOk s) : TextOk t := by
  cases h with
  | beginsMarquee =>
    refine textWf_storeText htext _ ?_
    simpa [textSize] using of_decide_eq_true hi
  | _ => exact htext

theorem fontOk (h : Effect s i t) (hfont : FontOk s) : FontOk t := by
  cases h with
  | selectsFont hfits => exact hfits
  | _ => exact hfont

theorem resultOk (h : Effect s i t) (hres : ResultOk s) : ResultOk t := by
  cases h with
  | @measures code =>
    have := charWidthOf_le s.cfg (address s.fontBase) (number code)
    exact toRes_range (by omega)
  | @drawsChar x y code mode fb w font hdrawn =>
    have hwidth := drawCharAt_width s.cfg (address s.fontBase) s.fb (coord x) (coord y)
      (number code) mode
    rw [hdrawn] at hwidth
    exact toRes_range hwidth
  | stepsMarquee => exact toRes_range (by split <;> decide)
  | _ => exact hres

theorem errorOk (h : Effect s i t) (herr : ErrorOk s) : ErrorOk t := by
  rcases h.err_cases with heq | ⟨f, rfl⟩
  · rwa [ErrorOk, heq]
  · exact stickyErr_le herr f

theorem linesOk (h : Effect s i t) (hlines : LinesOk s) : LinesOk t := by
  cases h with
  | scansUngated | scansReady => exact ⟨rfl, (BitVec.add_sub_cancel s.scanPhase 1).symm⟩
  | _ => exact hlines

theorem marqueeOk (h : Effect s i t) (hi : i.wellFormed = true) (hc : s.cfg.wellFormed = true)
    (hmq : MarqueeOk s) : MarqueeOk t := by
  cases h with
  | @beginsMarquee left top text =>
    have hlen : text.length ≤ 255 := of_decide_eq_true hi
    have hwidth := marqueeWidth_le s.cfg (address s.fontBase) text
    have hheight : fontHeight s.cfg (address s.fontBase) ≤ 255 := fontField_le _ _ _
    have hleft := coord_range left
    exact ⟨toReg_range (by decide) (by decide) (by omega),
      toReg_range (by decide) (by decide) (by omega),
      toReg_range (by decide) (by decide) (by omega),
      toReg_range (by decide) (by decide) (coord_range top)⟩
  | stepsMarquee _ hx hy =>
    obtain ⟨hwidth, hheight, hoffX, hoffY⟩ := hmq
    have hcanvas := canvas_lt hc
    have hx := wrapOffset_range (by omega) hx
    have hy := wrapOffset_range (by omega) hy
    exact ⟨hwidth, hheight, toReg_range (by decide) (by decide) (by omega),
      toReg_range (by decide) (by decide) (by omega)⟩
  | _ => exact hmq

/-- A command a packet can carry keeps the invariant. -/
theorem stateInv (h : Effect s i t) (hi : i.wellFormed = true) (hinv : StateInv s) :
    StateInv t := by
  obtain ⟨hc, hfb, htext, hfont, hmq, hres, herr, hlines⟩ := hinv
  exact ⟨h.cfg_eq ▸ hc, h.framebufferOk hfb, h.textOk hi htext, h.fontOk hfont,
    h.marqueeOk hi hc hmq, h.resultOk hres, h.errorOk herr, h.linesOk hlines⟩

end Effect

/-- The invariant does not speak of the bytes presented. -/
theorem stateInv_with_input {s : State} (h : StateInv s) (rest : List Byte) :
    StateInv { s with input := rest } := h

/-- Recording a fault keeps the invariant. -/
theorem stateInv_raise {s : State} (h : StateInv s) (f : BlockFault) : StateInv (raise f s) := by
  obtain ⟨hc, hfb, htext, hfont, hmq, hres, herr, hlines⟩ := h
  exact ⟨hc, hfb, htext, hfont, hmq, hres, stickyErr_le herr f, hlines⟩

/-- The table of the state after reset meets every part of the invariant
(`70_reset_and_hazards.md` R220). -/
theorem stateInv_resetWith {c : Config} (hc : c.wellFormed = true) :
    StateInv (State.resetWith c) := by
  have hmarquee : MarqueeOk (State.resetWith c) := by
    simp only [MarqueeOk, resetWith_mqWidth, resetWith_mqHeight, resetWith_mqOffX,
      resetWith_mqOffY]
    decide
  have hresult : ResultOk (State.resetWith c) := by
    rw [ResultOk, resetWith_res]
    decide
  exact ⟨hc, Memory.wf_nil _ _, Memory.wf_nil _ _, rfl, hmarquee, hresult, Nat.zero_le 4,
    rfl, rfl, rfl, rfl⟩

/-- So does the state after the reset input, whatever was left before it. -/
theorem stateInv_takeReset {s : State} (hc : s.cfg.wellFormed = true) (next : List Byte)
    (later : List (List Byte)) : StateInv (takeReset next later s) :=
  stateInv_resetWith hc

end Sys2Proof.Machine

namespace Sys2Proof.Proofs

open Sys2Proof.Machine

/-- Settles O47, by the cases of a step: waiting, the reset input, a fault of decoding, or the effect of a
command a packet can carry. -/
theorem stepKeepsTheInvariant : Obligations.StepKeepsTheInvariant := by
  intro s t hinv hstep
  obtain ⟨hc, ⟨-, -, rfl⟩ | ⟨next, later, -, -, rfl⟩ | ⟨rest, -, rfl⟩ | ⟨rest, -, rfl⟩ |
    ⟨i, rest, hdecode, hexec⟩⟩ := step_cases hstep
  · exact hinv
  · exact stateInv_takeReset hc next later
  · exact stateInv_raise (stateInv_with_input hinv rest) _
  · exact stateInv_raise (stateInv_with_input hinv rest) _
  · exact (effect_of_exec hexec).stateInv (wellFormed_of_decode hdecode)
      (stateInv_with_input hinv rest)

/-- Settles O42: the text store is read through `marqueeText`, which stops at `MQ_LEN`. -/
theorem textBeyondLengthIsNeverRead : Obligations.TextBeyondLengthIsNeverRead := by
  intro dx dy s t other hsame hexec
  rw [exec_eq_next_iff] at hexec ⊢
  exact hexec.marqueeStep_with_mqText hsame

/-- Settles O50: `ERR` is written by recording a fault, which leaves a nonzero code, and by the reset input,
which is taken only where the stream ends before or inside a packet. -/
theorem firstFaultIsKept : Obligations.FirstFaultIsKept := by
  intro s t hstep herr
  obtain ⟨-, ⟨-, -, rfl⟩ | ⟨next, later, hdecode, hdue, rfl⟩ | ⟨rest, -, rfl⟩ | ⟨rest, -, rfl⟩ |
    ⟨i, rest, -, hexec⟩⟩ := step_cases hstep
  · exact .inl rfl
  · refine .inr ⟨decode_eq_incomplete_iff.mp hdecode, ?_, rfl⟩
    rw [hdue]
    exact List.cons_ne_nil next later
  · exact .inl (stickyErr_of_ne_zero herr _)
  · exact .inl (stickyErr_of_ne_zero herr _)
  · obtain heq | ⟨f, rfl⟩ := (effect_of_exec hexec).err_cases
    · exact .inl heq
    · exact .inl (stickyErr_of_ne_zero herr f)

/-- Settles O51: every effect is there whatever `ERR` holds. -/
theorem commandsIgnoreTheFaultRegister : Obligations.CommandsIgnoreTheFaultRegister := by
  intro i s t e hexec
  simp only [exec_eq_next_iff] at hexec ⊢
  exact hexec.with_err e

/-- Settles O53, from the two frames: of every other command, and of SCAN_STEP. -/
theorem onlyScanStepDrivesTheLines : Obligations.OnlyScanStepDrivesTheLines := by
  intro i s t hexec
  refine ⟨(effect_of_exec hexec).lines_eq, ?_⟩
  rintro rfl
  exact (effect_of_exec hexec).scanStep_frame

/-- Settles O54, register by register. -/
theorem registersHaveTheirWriters : Obligations.RegistersHaveTheirWriters := by
  intro i s t hexec
  have h := effect_of_exec hexec
  exact ⟨h.res_writer, h.font_writer, h.marqueeText_writer, h.offset_writer, h.cfg_eq, h.input_eq,
    h.afterReset_eq⟩

/-- Settles O46, from the table of the reset values. -/
theorem resetSatisfiesTheInvariant : Obligations.ResetSatisfiesTheInvariant :=
  fun _ hc => stateInv_resetWith hc

end Sys2Proof.Proofs

/-! # Pixels and framebuffer bits (`20_memory.md` R42, R43) -/

namespace Sys2Proof.Machine

/-- The bit of a pixel in its byte (`20_memory.md` R42(a)). -/
theorem bitMask_eq (c : Config) (x y : Nat) : bitMask c x y = 0x80#8 >>> (x % 8) := by
  rw [bitMask, unrolledX_mod]

/-- The eight positions of the bit mask are different. -/
theorem bit_position_unique : ∀ j < 8, ∀ k < 8, 0x80#8 >>> j = 0x80#8 >>> k → j = k := by decide

/-- A framebuffer is 16 framebuffer rows (`20_memory.md` R42(b)). -/
theorem fbSize_eq (c : Config) : fbSize c = 16 * rowBytes c := by
  unfold fbSize rowBytes; omega

/-- A framebuffer row is `PH` segments (`20_memory.md` R42(e)). -/
theorem rowBytes_eq (c : Config) : rowBytes c = segBytes c * c.ph := by
  unfold rowBytes segBytes tiles; ring

/-- The byte of a pixel by framebuffer row, segment and place in the segment (`20_memory.md` R42(d)). -/
theorem byteIdx_eq (c : Config) (x y : Nat) :
    byteIdx c x y = x / 8 + y / 16 * segBytes c + y % 16 * rowBytes c := by
  rw [byteIdx, unrolledX_div, segBytes, rowBytes, Nat.mul_comm (tiles c) 4]

section

variable {c : Config} {x y : Nat}

theorem place_lt_segBytes (hx : x < canvasW c) : x / 8 < segBytes c := by
  unfold canvasW at hx; unfold segBytes; omega

/-- The segment of a canvas row ends inside its framebuffer row. -/
theorem place_lt_rowBytes (hx : x < canvasW c) (hy : y < canvasH c) :
    x / 8 + y / 16 * segBytes c < rowBytes c := by
  have hplace := place_lt_segBytes hx
  have hseg : y / 16 + 1 ≤ c.ph := by unfold canvasH at hy; omega
  calc x / 8 + y / 16 * segBytes c < (y / 16 + 1) * segBytes c := by rw [Nat.succ_mul]; omega
    _ ≤ c.ph * segBytes c := Nat.mul_le_mul_right _ hseg
    _ = rowBytes c := by rw [rowBytes_eq, Nat.mul_comm]

/-! ## The pixel of a bit, by division (R43) -/

/-- The column of bit `k`, counted from the left, of the framebuffer byte `i`. -/
def pixelX (c : Config) (i k : Nat) : Nat := 8 * (i % rowBytes c % segBytes c) + k

/-- The row of the pixels of the framebuffer byte `i`. -/
def pixelY (c : Config) (i : Nat) : Nat := 16 * (i % rowBytes c / segBytes c) + i / rowBytes c

theorem byteIdx_mod_rowBytes (hx : x < canvasW c) (hy : y < canvasH c) :
    byteIdx c x y % rowBytes c = x / 8 + y / 16 * segBytes c := by
  rw [byteIdx_eq, Nat.add_mul_mod_self_right, Nat.mod_eq_of_lt (place_lt_rowBytes hx hy)]

theorem byteIdx_div_rowBytes (hx : x < canvasW c) (hy : y < canvasH c) :
    byteIdx c x y / rowBytes c = y % 16 := by
  have hplace := place_lt_rowBytes hx hy
  rw [byteIdx_eq, Nat.add_mul_div_right _ _ (by omega), Nat.div_eq_of_lt hplace, Nat.zero_add]

theorem pixelX_byteIdx (hx : x < canvasW c) (hy : y < canvasH c) :
    pixelX c (byteIdx c x y) (x % 8) = x := by
  rw [pixelX, byteIdx_mod_rowBytes hx hy, Nat.add_mul_mod_self_right,
    Nat.mod_eq_of_lt (place_lt_segBytes hx), Nat.div_add_mod]

theorem pixelY_byteIdx (hx : x < canvasW c) (hy : y < canvasH c) :
    pixelY c (byteIdx c x y) = y := by
  have hplace := place_lt_segBytes hx
  rw [pixelY, byteIdx_mod_rowBytes hx hy, byteIdx_div_rowBytes hx hy,
    Nat.add_mul_div_right _ _ (by omega), Nat.div_eq_of_lt hplace, Nat.zero_add, Nat.div_add_mod]

end

section

variable {c : Config} {i k : Nat}

/-- A framebuffer that holds a byte has segments and rows of segments. -/
theorem segBytes_pos (hi : i < fbSize c) : 0 < segBytes c := by
  rw [fbSize_eq, rowBytes_eq] at hi
  exact Nat.pos_of_mul_pos_right (show 0 < segBytes c * c.ph by omega)

theorem rowBytes_pos (hi : i < fbSize c) : 0 < rowBytes c := by
  rw [fbSize_eq] at hi; omega

theorem fbRow_lt (hi : i < fbSize c) : i / rowBytes c < 16 :=
  (Nat.div_lt_iff_lt_mul (rowBytes_pos hi)).mpr (fbSize_eq c ▸ hi)

theorem pixelX_lt (hi : i < fbSize c) (hk : k < 8) : pixelX c i k < canvasW c := by
  have hplace : i % rowBytes c % segBytes c < segBytes c := Nat.mod_lt _ (segBytes_pos hi)
  have hW : canvasW c = 8 * segBytes c := by unfold canvasW segBytes; omega
  unfold pixelX
  omega

theorem pixelY_lt (hi : i < fbSize c) : pixelY c i < canvasH c := by
  have hseg : i % rowBytes c / segBytes c < c.ph :=
    Nat.div_lt_of_lt_mul (rowBytes_eq c ▸ Nat.mod_lt _ (rowBytes_pos hi))
  have hrow := fbRow_lt hi
  unfold pixelY canvasH
  omega

theorem pixelX_mod (hk : k < 8) : pixelX c i k % 8 = k := by
  rw [pixelX, Nat.mul_add_mod, Nat.mod_eq_of_lt hk]

theorem bitMask_pixel (hk : k < 8) (y : Nat) : bitMask c (pixelX c i k) y = 0x80#8 >>> k := by
  rw [bitMask_eq, pixelX_mod hk]

theorem byteIdx_pixel (hi : i < fbSize c) (hk : k < 8) :
    byteIdx c (pixelX c i k) (pixelY c i) = i := by
  have hrow := fbRow_lt hi
  have hplace : pixelX c i k / 8 = i % rowBytes c % segBytes c := by
    rw [pixelX, Nat.mul_add_div (by decide), Nat.div_eq_of_lt hk, Nat.add_zero]
  have hseg : pixelY c i / 16 = i % rowBytes c / segBytes c := by
    rw [pixelY, Nat.mul_add_div (by decide), Nat.div_eq_of_lt hrow, Nat.add_zero]
  have hfbRow : pixelY c i % 16 = i / rowBytes c := by
    rw [pixelY, Nat.mul_add_mod, Nat.mod_eq_of_lt hrow]
  rw [byteIdx_eq, hplace, hseg, hfbRow, Nat.mod_add_div', Nat.mod_add_div']

end

/-- Two canvas pixels with the same byte and the same bit are the same (`20_memory.md` R43). -/
theorem pixel_unique {c : Config} {x y x' y' : Nat} (hx : x < canvasW c) (hy : y < canvasH c)
    (hx' : x' < canvasW c) (hy' : y' < canvasH c) (hbyte : byteIdx c x y = byteIdx c x' y')
    (hmask : bitMask c x y = bitMask c x' y') : x = x' ∧ y = y' := by
  have hbit : x % 8 = x' % 8 := by
    rw [bitMask_eq, bitMask_eq] at hmask
    exact bit_position_unique _ (Nat.mod_lt _ (by decide)) _ (Nat.mod_lt _ (by decide)) hmask
  constructor
  · rw [← pixelX_byteIdx hx hy, hbyte, hbit, pixelX_byteIdx hx' hy']
  · rw [← pixelY_byteIdx hx hy, hbyte, pixelY_byteIdx hx' hy']

/-- The top left pixel lies in the first byte, whatever the topology. -/
theorem byteIdx_origin (c : Config) : byteIdx c 0 0 = 0 := by simp [byteIdx_eq]

end Sys2Proof.Machine

namespace Sys2Proof.Proofs

open Sys2Proof.Machine

/-- Settles O12: `pixelX` and `pixelY` invert the address translation from both sides. -/
theorem pixelAddressingIsABijection : Obligations.PixelAddressingIsABijection := by
  intro c
  refine ⟨fun x y hx hy => ?inRange, fun x y x' y' => pixel_unique, fun i k hi hk => ?onto,
    fun _ _ => ?origin⟩
  case inRange => exact ⟨byteIdx_lt hx hy, x % 8, Nat.mod_lt _ (by decide), bitMask_eq c x y⟩
  case onto =>
    exact ⟨pixelX c i k, pixelY c i, pixelX_lt hi hk, pixelY_lt hi, byteIdx_pixel hi hk,
      bitMask_pixel hk _⟩
  case origin => exact ⟨byteIdx_origin c, bitMask_eq c 0 0⟩

end Sys2Proof.Proofs

/-! # The packet fields, read back and reserved (`30_encoding.md` R64, R65, R79) -/

namespace Sys2Proof

/-! ## A field's bytes are the bytes it was read from -/

/-- A word is its high bits followed by its low bits. -/
theorem highBits_append_lowBits {m k : Nat} (x : BitVec (m + k)) :
    x.extractLsb' k m ++ x.extractLsb' 0 k = x :=
  (BitVec.extractLsb'_append_extractLsb'_eq_extractLsb' (Nat.zero_add k).symm).trans
    BitVec.extractLsb'_eq_self

theorem ofBool_getLsbD (b : Byte) (k : Nat) :
    BitVec.ofBool (b.getLsbD k) = b.extractLsb' k 1 := by
  apply BitVec.eq_of_getLsbD_eq
  intro j hj
  obtain rfl : j = 0 := Nat.lt_one_iff.mp hj
  simp

@[simp] theorem halfBytes_halfAt (p : List Byte) (k : Nat) :
    halfBytes (halfAt p k) = [byteAt p k, byteAt p (k + 1)] := by
  have hhigh : (halfAt p k).extractLsb' 8 8 = byteAt p k := BitVec.extractLsb'_append_eq_left
  have hlow : (halfAt p k).extractLsb' 0 8 = byteAt p (k + 1) :=
    (BitVec.extractLsb'_append_eq_of_add_le (Nat.le_refl 8)).trans BitVec.extractLsb'_eq_self
  rw [halfBytes, hhigh, hlow]

theorem codeOfMode_of_modeOfCode {code : BitVec 3} {m : Mode} (h : modeOfCode code = some m) :
    codeOfMode m = code := by
  have hcodes : ∀ code : BitVec 3, ∀ m ∈ modeOfCode code, codeOfMode m = code := by decide
  exact hcodes code m h

theorem modeByte_of_modeOfByte {b : Byte} {m : Mode} (h : modeOfByte b = some m) :
    modeByte m = b := by
  obtain ⟨hzero, hcode⟩ := Option.ite_none_right_eq_some.mp h
  rw [modeByte, codeOfMode_of_modeOfCode hcode, ← hzero]
  exact highBits_append_lowBits (m := 5) (k := 3) b

theorem modeValueByte_of_modeValueOfByte {b : Byte} {mv : Mode × Bool}
    (h : modeValueOfByte b = some mv) : modeValueByte mv.1 mv.2 = b := by
  obtain ⟨hzero, hmode⟩ := Option.ite_none_right_eq_some.mp h
  obtain ⟨m, hcode, rfl⟩ := Option.map_eq_some_iff.mp hmode
  have hjoin : b.extractLsb' 4 4 ++ b.extractLsb' 3 1 = b.extractLsb' 3 5 :=
    BitVec.extractLsb'_append_extractLsb'_eq_extractLsb' rfl
  rw [modeValueByte, codeOfMode_of_modeOfCode hcode, ofBool_getLsbD, ← hzero, hjoin]
  exact highBits_append_lowBits (m := 5) (k := 3) b

theorem flagByte_of_flagOfByte {b : Byte} {f : Bool} (h : flagOfByte b = some f) :
    (0 : BitVec 7) ++ BitVec.ofBool f = b := by
  obtain ⟨hzero, hflag⟩ := Option.ite_none_right_eq_some.mp h
  cases hflag
  rw [ofBool_getLsbD, ← hzero]
  exact highBits_append_lowBits (m := 7) (k := 1) b

theorem patternByte_of_patternOfByte {b : Byte} {k : BitVec 2} (h : patternOfByte b = some k) :
    (0 : BitVec 6) ++ k = b := by
  obtain ⟨hzero, hpattern⟩ := Option.ite_none_right_eq_some.mp h
  cases hpattern
  rw [← hzero]
  exact highBits_append_lowBits (m := 6) (k := 2) b

/-! ## The reserved values of a field, as numbers (R79) -/

/-- A "must be 0" rule on the bits from `k` up bounds the byte. -/
theorem highBits_eq_zero_iff (b : Byte) {k m : Nat} (hwidth : k + m = 8) :
    b.extractLsb' k m = 0 ↔ b.toNat < 2 ^ k := by
  have hquot : b.toNat / 2 ^ k < 2 ^ m := by
    rw [Nat.div_lt_iff_lt_mul (Nat.two_pow_pos k), ← pow_add, Nat.add_comm, hwidth]
    exact b.isLt
  simp [BitVec.toNat_eq, Nat.shiftRight_eq_div_pow, Nat.mod_eq_of_lt hquot, Nat.div_eq_zero_iff]

/-- A byte with such a rule is reserved if it breaks the rule or its low bits are reserved. -/
theorem ruled_eq_none_iff (b : Byte) {k m : Nat} (hwidth : k + m = 8) {α : Type}
    (field : Option α) :
    (if b.extractLsb' k m = 0 then field else none) = none ↔ 2 ^ k ≤ b.toNat ∨ field = none := by
  rw [ite_eq_right_iff, highBits_eq_zero_iff b hwidth, ← not_lt, imp_iff_not_or]

theorem modeOfCode_eq_none_iff (b : Byte) :
    modeOfCode (b.extractLsb' 0 3) = none ↔ 4 < b.toNat % 8 := by
  have hcodes : ∀ code : BitVec 3, modeOfCode code = none ↔ 4 < code.toNat := by decide
  rw [hcodes, BitVec.extractLsb'_toNat]
  rfl

theorem modeOfByte_eq_none_iff (b : Byte) : modeOfByte b = none ↔ 4 < b.toNat := by
  rw [modeOfByte, ruled_eq_none_iff b rfl, modeOfCode_eq_none_iff]
  omega

theorem modeValueOfByte_eq_none_iff (b : Byte) :
    modeValueOfByte b = none ↔ 16 ≤ b.toNat ∨ 4 < b.toNat % 8 := by
  rw [modeValueOfByte, ruled_eq_none_iff b rfl, Option.map_eq_none_iff, modeOfCode_eq_none_iff]
  rfl

theorem flagOfByte_eq_none_iff (b : Byte) : flagOfByte b = none ↔ 1 < b.toNat := by
  rw [flagOfByte, ruled_eq_none_iff b rfl]
  exact or_iff_left (Option.some_ne_none _)

theorem patternOfByte_eq_none_iff (b : Byte) : patternOfByte b = none ↔ 3 < b.toNat := by
  rw [patternOfByte, ruled_eq_none_iff b rfl]
  simp [Nat.lt_iff_add_one_le]

end Sys2Proof

/-! # One complete packet (`30_encoding.md` R61, R66 to R81) -/

namespace Sys2Proof

/-- The length byte of a packet is one of its fixed bytes. -/
theorem Opcode.lengthByte_lt {op : Opcode} {k : Nat} (h : op.lengthByte = some k) :
    k < op.fixedLength := by
  cases op <;> cases h <;> decide

theorem Opcode.fixedLength_pos (op : Opcode) : 0 < op.fixedLength := by
  cases op <;> decide

theorem fixedLength_le_packetLength {op : Opcode} {s : List Byte} {n : Nat}
    (h : packetLength op s = some n) : op.fixedLength ≤ n := by
  unfold packetLength at h
  split at h
  case h_1 =>
    cases h
    exact Nat.le_refl _
  case h_2 =>
    obtain ⟨len, -, rfl⟩ := Option.map_eq_some_iff.mp h
    exact Nat.le_add_right _ _

/-- Once the fixed bytes of a packet are there, the bytes after them do not change its length. -/
theorem packetLength_append {op : Opcode} {p : List Byte} (hfixed : op.fixedLength ≤ p.length)
    (rest : List Byte) : packetLength op (p ++ rest) = packetLength op p := by
  unfold packetLength
  split
  case h_1 => rfl
  case h_2 k hk =>
    rw [List.getElem?_append_left ((Opcode.lengthByte_lt hk).trans_le hfixed)]

/-- The first bytes of a packet, by their numbers, and the bytes after them. -/
theorem bytes_append_drop {p : List Byte} {n : Nat} (h : n ≤ p.length) :
    (List.range n).map (byteAt p) ++ p.drop n = p := by
  have hbytes : (List.range n).map (byteAt p) = p.take n := by
    apply List.ext_getElem
    · simp [h]
    · intro k hk _
      have hkp : k < p.length := by simp at hk; omega
      simp [byteAt, hkp]
  rw [hbytes, List.take_append_drop]

/-- An opcode's byte is one of the fourteen of the table (R62). -/
theorem Opcode.byte_mem (op : Opcode) :
    op.byte.toNat ∈ [0x01, 0x02, 0x10, 0x11, 0x12, 0x13, 0x14, 0x20, 0x21, 0x22, 0x23, 0x30, 0x31,
      0x40] := by
  cases op <;> decide

theorem ofByte_eq_none {b : Byte}
    (h : b.toNat ∉ [0x01, 0x02, 0x10, 0x11, 0x12, 0x13, 0x14, 0x20, 0x21, 0x22, 0x23, 0x30, 0x31,
      0x40]) : Opcode.ofByte b = none := by
  rw [Option.eq_none_iff_forall_ne_some]
  intro op hop
  rw [← byte_of_ofByte hop] at h
  exact h op.byte_mem

namespace Laws.PacketShape

/-- Every command's packet has the shape its format gives it. -/
theorem statement (i : Instr) : Statement i := by
  cases i with
  | clear => exact clear _
  | setPixel => exact setPixel _ _ _ _
  | line => exact line _ _ _ _ _
  | circle => exact circle _ _ _ _
  | box => exact box _ _ _ _ _
  | filledBox => exact filledBox _ _ _ _ _
  | testPattern => exact testPattern _
  | selectFont => exact selectFont _
  | charWidth => exact charWidth _
  | drawChar => exact drawChar _ _ _ _
  | drawString => exact drawString _ _ _ _
  | marqueeBegin => exact marqueeBegin _ _ _
  | marqueeStep => exact marqueeStep _ _
  | scanStep => exact scanStep

end Laws.PacketShape

namespace Machine

namespace CompletePacket

variable {op : Opcode} {p : List Byte}

theorem fixedLength_le (h : CompletePacket op p) : op.fixedLength ≤ p.length :=
  fixedLength_le_packetLength h.2

theorem byteAt_zero (h : CompletePacket op p) : byteAt p 0 = op.byte := by
  obtain ⟨hhead, -⟩ := h
  rw [List.head?_eq_getElem?] at hhead
  simp [byteAt, hhead]

/-- A packet without a length byte has no byte after its fixed ones. -/
theorem drop_fixedLength_eq_nil (h : CompletePacket op p) (hnone : op.lengthByte = none) :
    p.drop op.fixedLength = [] := by
  obtain ⟨-, hlen⟩ := h
  simp only [packetLength, hnone, Option.some.injEq] at hlen
  exact List.drop_eq_nil_of_le hlen.ge

/-- The length byte of a packet holds the length of its text (R73, R75). -/
theorem lengthByte_eq {k : Nat} (h : CompletePacket op p) (hsome : op.lengthByte = some k) :
    BitVec.ofNat 8 (p.drop op.fixedLength).length = byteAt p k := by
  have hk : k < p.length := (Opcode.lengthByte_lt hsome).trans_le h.fixedLength_le
  obtain ⟨-, hlen⟩ := h
  simp only [packetLength, hsome, List.getElem?_eq_getElem hk, Option.map_some,
    Option.some.injEq] at hlen
  have hbyte : byteAt p k = p[k] := by simp [byteAt, hk]
  rw [List.length_drop, ← hlen, Nat.add_sub_cancel_left, hbyte, BitVec.ofNat_toNat]
  exact BitVec.setWidth_eq _

/-- The packet at the head of a stream decodes by its format alone, and what follows it is left (R81). -/
theorem decode_append (h : CompletePacket op p) (rest : List Byte) :
    decode (p ++ rest) =
      (parsePacket op p).elim (.reservedOperand rest) fun i => .instr i rest := by
  have hlen : packetLength op (p ++ rest) = some p.length :=
    (packetLength_append h.fixedLength_le rest).trans h.2
  have hall : hasBytes p.length (p ++ rest) = true := hasBytes_iff.mpr (by simp)
  obtain ⟨hhead, -⟩ := h
  obtain ⟨tail, rfl⟩ := List.head?_eq_some_iff.mp hhead
  rw [List.cons_append] at hlen hall ⊢
  simp only [decode, ofByte_byte, hlen, hall]
  cases hparse : parsePacket op (op.byte :: tail) <;> simp [hparse]

/-- The packet at the head of a stream is complete once its bytes are there. -/
theorem of_take {s : List Byte} {n : Nat} (hhead : s.head? = some op.byte)
    (hlen : packetLength op s = some n) (hall : n ≤ s.length) : CompletePacket op (s.take n) := by
  have hn : (s.take n).length = n := List.length_take_of_le hall
  have hfixed : op.fixedLength ≤ (s.take n).length :=
    (fixedLength_le_packetLength hlen).trans_eq hn.symm
  have hpos : n ≠ 0 := by have := op.fixedLength_pos; omega
  refine ⟨by rw [List.head?_take, if_neg hpos, hhead], ?_⟩
  rw [← packetLength_append hfixed (s.drop n), List.take_append_drop, hlen, hn]

/-- A packet is its opcode byte, the other fixed bytes by their numbers, and its text. -/
theorem eq_bytes (h : CompletePacket op p) :
    p = op.byte :: (List.range' 1 (op.fixedLength - 1)).map (byteAt p) ++
      p.drop op.fixedLength := by
  have hrange : List.range op.fixedLength = 0 :: List.range' 1 (op.fixedLength - 1) := by
    cases op <;> rfl
  have hbytes := bytes_append_drop h.fixedLength_le
  rw [hrange, List.map_cons, h.byteAt_zero] at hbytes
  exact hbytes.symm

/-- A packet is the encoding of the command it parses to: no bit of it is ignored (R66 to R76). -/
theorem encode_of_parsePacket (h : CompletePacket op p) {i : Instr}
    (hparse : parsePacket op p = some i) : encode i = p := by
  refine .trans ?_ h.eq_bytes.symm
  cases op with
  | clear =>
    obtain ⟨f, hf, rfl⟩ := Option.map_eq_some_iff.mp hparse
    rw [h.drop_fixedLength_eq_nil rfl, encode, flagByte_of_flagOfByte hf]
    rfl
  | testPattern =>
    obtain ⟨k, hk, rfl⟩ := Option.map_eq_some_iff.mp hparse
    rw [h.drop_fixedLength_eq_nil rfl, encode, patternByte_of_patternOfByte hk]
    rfl
  | setPixel =>
    obtain ⟨mv, hmv, rfl⟩ := Option.map_eq_some_iff.mp hparse
    simp only [h.drop_fixedLength_eq_nil rfl, encode, halfBytes_halfAt,
      modeValueByte_of_modeValueOfByte hmv]
    rfl
  | line | circle | box | filledBox | drawChar =>
    obtain ⟨m, hm, rfl⟩ := Option.map_eq_some_iff.mp hparse
    simp only [h.drop_fixedLength_eq_nil rfl, encode, halfBytes_halfAt,
      modeByte_of_modeOfByte hm]
    rfl
  | selectFont | charWidth | marqueeStep | scanStep =>
    cases hparse
    simp only [h.drop_fixedLength_eq_nil rfl, encode, halfBytes_halfAt]
    rfl
  | drawString =>
    obtain ⟨m, hm, rfl⟩ := Option.map_eq_some_iff.mp hparse
    have hlen : BitVec.ofNat 8 (p.drop 7).length = byteAt p 6 := h.lengthByte_eq rfl
    simp only [encode, halfBytes_halfAt, modeByte_of_modeOfByte hm, hlen]
    rfl
  | marqueeBegin =>
    cases hparse
    have hlen : BitVec.ofNat 8 (p.drop 6).length = byteAt p 5 := h.lengthByte_eq rfl
    simp only [encode, halfBytes_halfAt, hlen]
    rfl

end CompletePacket

/-- R79 reserves exactly the operand values the packet's format has no command for. -/
theorem reservedPacket_iff (op : Opcode) (p : List Byte) :
    ReservedPacket op p ↔ parsePacket op p = none := by
  cases op <;>
    simp [ReservedPacket, parsePacket, flagOfByte_eq_none_iff, modeOfByte_eq_none_iff,
      modeValueOfByte_eq_none_iff, patternOfByte_eq_none_iff]

/-- The packet the encoder writes is complete and parses back to its command. -/
theorem completePacket_encode {i : Instr} (hi : i.wellFormed = true) :
    ∃ op, CompletePacket op (encode i) ∧ parsePacket op (encode i) = some i := by
  obtain ⟨op, hhead, hlen, hparse⟩ := Laws.PacketShape.statement i hi
  exact ⟨op, ⟨hhead, hlen⟩, hparse⟩

/-! ## What the decoder makes of a stream -/

theorem decode_of_unassigned {b : Byte} (hop : Opcode.ofByte b = none) (rest : List Byte) :
    decode (b :: rest) = .illegalOpcode rest := by
  simp only [decode, hop]

theorem decode_encode_append {i : Instr} (hi : i.wellFormed = true) (rest : List Byte) :
    decode (encode i ++ rest) = .instr i rest := by
  obtain ⟨op, hpacket, hparse⟩ := completePacket_encode hi
  rw [hpacket.decode_append, hparse]
  rfl

theorem eq_encode_append_of_decode {s rest : List Byte} {i : Instr}
    (h : decode s = .instr i rest) : s = encode i ++ rest := by
  obtain ⟨op, n, hhead, hlen, hall, hparse, rfl⟩ := decode_eq_instr h
  have hpacket : CompletePacket op (s.take n) := .of_take hhead hlen hall
  rw [hpacket.encode_of_parsePacket hparse, List.take_append_drop]

/-- Decoder and encoder agree: a stream decodes to a command exactly where the command can be carried and
its one packet stands at the head. -/
theorem decode_eq_instr_iff {s rest : List Byte} {i : Instr} :
    decode s = .instr i rest ↔ s = encode i ++ rest ∧ i.wellFormed = true := by
  constructor
  · exact fun h => ⟨eq_encode_append_of_decode h, wellFormed_of_decode h⟩
  · rintro ⟨rfl, hi⟩
    exact decode_encode_append hi rest

theorem CompletePacket.decode_of_reserved {op : Opcode} {p : List Byte} (h : CompletePacket op p)
    (hreserved : ReservedPacket op p) (rest : List Byte) :
    decode (p ++ rest) = .reservedOperand rest := by
  rw [h.decode_append, (reservedPacket_iff op p).mp hreserved]
  rfl

theorem CompletePacket.exists_decode_of_not_reserved {op : Opcode} {p : List Byte}
    (h : CompletePacket op p) (hfree : ¬ ReservedPacket op p) (rest : List Byte) :
    ∃ i, decode (p ++ rest) = .instr i rest ∧ encode i = p := by
  obtain ⟨i, hparse⟩ := Option.ne_none_iff_exists'.mp (mt (reservedPacket_iff op p).mpr hfree)
  refine ⟨i, ?_, h.encode_of_parsePacket hparse⟩
  rw [h.decode_append, hparse]
  rfl

/-! ## What a step makes of the decoder's answer (R60, R61, R78, R79) -/

section

variable {s : State} (hc : s.cfg.wellFormed = true)

include hc

theorem step_of_incomplete (h : decode s.input = .incomplete) (hreset : s.afterReset = []) :
    step s = .next s := by
  simp [step, hc, h, hreset]

theorem step_of_illegalOpcode {rest : List Byte} (h : decode s.input = .illegalOpcode rest) :
    step s = .next (raise .illegalOpcode { s with input := rest }) := by
  simp [step, hc, h]

theorem step_of_reservedOperand {rest : List Byte} (h : decode s.input = .reservedOperand rest) :
    step s = .next (raise .reservedOperand { s with input := rest }) := by
  simp [step, hc, h]

theorem step_of_instr {i : Instr} {rest : List Byte} (h : decode s.input = .instr i rest) :
    step s = exec i { s with input := rest } := by
  simp [step, hc, h]

end

end Machine

end Sys2Proof

namespace Sys2Proof.Proofs

open Sys2Proof.Machine

/-- Settles O1: the encoder's packet is complete and parses back to its command. -/
theorem decodeInvertsEncode : Obligations.DecodeInvertsEncode :=
  fun _ _ hi => decode_eq_instr_iff.mpr ⟨rfl, hi⟩

/-- Settles O2: the packet a command was parsed from is its encoding, field by field, and its text has a
length that one byte can name. -/
theorem decodedPacketIsTheEncoding : Obligations.DecodedPacketIsTheEncoding :=
  fun _ _ _ h => decode_eq_instr_iff.mp h

/-- Settles O4: a byte that is none of the fourteen opcodes is consumed alone, and the fault recorded. -/
theorem illegalOpcodeConsumesOneByte : Obligations.IllegalOpcodeConsumesOneByte := by
  intro s b rest hc hinput hunassigned
  have hdecode : decode s.input = .illegalOpcode rest := by
    rw [hinput, decode_of_unassigned (ofByte_eq_none hunassigned)]
  exact step_of_illegalOpcode hc hdecode

/-- Settles O5: the format has no command for a reserved value, so the step records the fault and leaves
the bytes after the packet. -/
theorem reservedOperandConsumesThePacket : Obligations.ReservedOperandConsumesThePacket := by
  intro s op packet rest hc hpacket hinput hreserved
  have hdecode : decode s.input = .reservedOperand rest := by
    rw [hinput, hpacket.decode_of_reserved hreserved]
  exact step_of_reservedOperand hc hdecode

/-- Settles O6: the format has a command for every value that is not reserved. -/
theorem completePacketDecodes : Obligations.CompletePacketDecodes :=
  fun _ _ rest hpacket hfree => hpacket.exists_decode_of_not_reserved hfree rest

/-- Settles O7: the decoder finds no complete packet, and no reset is due. -/
theorem incompletePacketWaits : Obligations.IncompletePacketWaits :=
  fun _ hc hends hreset => step_of_incomplete hc (decode_eq_incomplete_iff.mpr hends) hreset

/-- Settles O3: each packet written out is the one the encoder gives its command. -/
theorem specPacketsDecode : Obligations.SpecPacketsDecode := by
  refine ⟨?_, ?_, ?_, ?_, ?_⟩ <;> exact decode_eq_instr_iff.mpr (by decide)

/-- Settles O10: the arm of the step for a decoded command. -/
theorem stepRunsTheDecodedCommand : Obligations.StepRunsTheDecodedCommand :=
  fun _ _ _ hc hdecode => step_of_instr hc hdecode

end Sys2Proof.Proofs

/-! # `Plot` on the picture (`40_framebuffer.md` R91, R92, R95) -/

namespace Sys2Proof.Machine

/-! ## The bits of a composited byte (R91) -/

/-- NOR is OR: where the bit is 0, clearing it changes nothing (R91). -/
theorem composite_nor (v : Bool) (mask old : Byte) :
    composite .nor v mask old = composite .or v mask old := by
  by_cases hset : old &&& mask = 0#8
  · have hclear : old &&& ~~~mask = old :=
      calc old &&& ~~~mask = (old &&& mask) ||| (old &&& ~~~mask) := by rw [hset, BitVec.zero_or]
        _ = old := by rw [← BitVec.and_or_distrib_left, BitVec.or_not_self, BitVec.and_allOnes]
    simp [composite, hclear]
  · have hne : old &&& mask ≠ 0 := hset
    simp only [composite, hne, ne_eq, not_false_eq_true, and_true]

/-- A `Plot` passes the bits of its mask through the truth table and keeps the others (R92). -/
theorem getLsbD_composite (mode : Mode) (v : Bool) (mask old : Byte) {j : Nat} (hj : j < 8) :
    (composite mode v mask old).getLsbD j =
      if mask.getLsbD j then modeBit mode v (old.getLsbD j) else old.getLsbD j := by
  cases mode with
  | normal | inverse | toggle | or =>
    cases v <;> cases hbit : mask[j] <;> simp [composite, modeBit, hbit, hj]
  | nor =>
    rw [composite_nor]
    cases v <;> cases hbit : mask[j] <;> simp [composite, modeBit, hbit, hj]

/-! ## The pixels after a `Plot` (R92) -/

section

variable {c : Config} {mode : Mode} {fb : Memory} {dot : Dot}

/-- A `Plot` changes no byte but the one of its pixel, and none when it is clipped. -/
theorem fbRead_plot_of_ne (hfb : fbWf c fb) {a : Nat}
    (h : ¬ (onCanvas c dot.x dot.y ∧ a = byteIdx c dot.x.toNat dot.y.toNat)) :
    fbRead (plot c mode fb dot) a = fbRead fb a := by
  by_cases hon : onCanvas c dot.x dot.y
  · rw [fbRead_plot hfb hon, if_neg fun ha => h ⟨hon, ha⟩]
  · rw [plot_off hon]

/-- A `Plot` passes its own pixel through the truth table and keeps every other canvas pixel, those of the
same byte included. -/
theorem pixelBit_plot (hfb : fbWf c fb) {px py : Nat} (hpx : px < canvasW c)
    (hpy : py < canvasH c) :
    pixelBit c (plot c mode fb dot) px py =
      if dot.x = px ∧ dot.y = py then modeBit mode dot.v (pixelBit c fb px py)
      else pixelBit c fb px py := by
  unfold pixelBit
  by_cases hbyte : onCanvas c dot.x dot.y ∧ byteIdx c px py = byteIdx c dot.x.toNat dot.y.toNat
  · obtain ⟨hon, hsame⟩ := hbyte
    have hpixel : 7 - px % 8 = 7 - dot.x.toNat % 8 ↔ dot.x = px ∧ dot.y = py := by
      constructor
      · intro hbit
        have hmask : bitMask c px py = bitMask c dot.x.toNat dot.y.toNat := by
          rw [bitMask_eq, bitMask_eq, show px % 8 = dot.x.toNat % 8 by omega]
        have := pixel_unique hpx hpy (by omega) (by omega) hsame hmask
        omega
      · rintro ⟨hx, -⟩
        rw [hx, Int.toNat_natCast]
    have hj : 7 - px % 8 < 8 := by omega
    rw [fbRead_plot hfb hon, if_pos hsame, bitMask_eq, getLsbD_composite _ _ _ _ hj,
      getLsbD_mask _ _ (Nat.mod_lt _ (by decide)) hj]
    exact if_congr (decide_eq_true_iff.trans hpixel) rfl rfl
  · have hother : ¬ (dot.x = px ∧ dot.y = py) := by
      rintro ⟨hx, hy⟩
      exact hbyte ⟨by omega, by rw [hx, hy, Int.toNat_natCast, Int.toNat_natCast]⟩
    rw [fbRead_plot_of_ne hfb hbyte, if_neg hother]

end

/-! ## Equal pictures are equal framebuffers -/

/-- The pixels determine a canonical framebuffer: every bit of every byte is the bit of a canvas pixel
(`20_memory.md` R43). -/
theorem fb_ext_of_pixelBit {c : Config} {fb fb' : Memory} (hfb : fbWf c fb) (hfb' : fbWf c fb')
    (h : ∀ px py, px < canvasW c → py < canvasH c → pixelBit c fb px py = pixelBit c fb' px py) :
    fb = fb' := by
  refine Memory.ext_of_read hfb hfb' fun a => ?_
  by_cases ha : a < fbSize c
  · apply BitVec.eq_of_getLsbD_eq
    intro j hj
    have hk : 7 - j < 8 := by omega
    have hbit := h (pixelX c a (7 - j)) (pixelY c a) (pixelX_lt ha hk) (pixelY_lt ha)
    unfold pixelBit at hbit
    rw [byteIdx_pixel ha hk, pixelX_mod hk, show 7 - (7 - j) = j by omega] at hbit
    exact hbit
  · rw [Memory.read_beyond hfb (Nat.le_of_not_lt ha), Memory.read_beyond hfb' (Nat.le_of_not_lt ha)]

/-! ## The laws of the truth table, and of `Plot` (R95) -/

theorem modeBit_toggle_toggle (b : Bool) :
    modeBit .toggle true (modeBit .toggle true b) = b := Bool.not_not b

theorem modeBit_idem {m : Mode} (hm : m ≠ .toggle) (v b : Bool) :
    modeBit m v (modeBit m v b) = modeBit m v b := by
  cases m with
  | toggle => exact absurd rfl hm
  | normal | inverse => rfl
  | or | nor => cases v <;> rfl

theorem modeBit_false {m : Mode} (hm : m = .toggle ∨ m = .or ∨ m = .nor) (b : Bool) :
    modeBit m false b = b := by
  rcases hm with rfl | rfl | rfl <;> rfl

theorem plot_nor (c : Config) (fb : Memory) (d : Dot) : plot c .nor fb d = plot c .or fb d := by
  have hbyte : ∀ mask, composite .nor d.v mask = composite .or d.v mask :=
    fun mask => funext (composite_nor d.v mask)
  unfold plot
  rw [hbyte]

section

variable {c : Config} {fb : Memory} (hfb : fbWf c fb)

include hfb

theorem plot_toggle_toggle {d : Dot} (hv : d.v = true) :
    plot c .toggle (plot c .toggle fb d) d = fb := by
  refine fb_ext_of_pixelBit (fbWf_plot (fbWf_plot hfb)) hfb fun px py hpx hpy => ?_
  rw [pixelBit_plot (fbWf_plot hfb) hpx hpy, pixelBit_plot hfb hpx hpy, hv]
  split
  · exact modeBit_toggle_toggle _
  · rfl

theorem plot_idem {m : Mode} (hm : m ≠ .toggle) (d : Dot) :
    plot c m (plot c m fb d) d = plot c m fb d := by
  refine fb_ext_of_pixelBit (fbWf_plot (fbWf_plot hfb)) (fbWf_plot hfb) fun px py hpx hpy => ?_
  rw [pixelBit_plot (fbWf_plot hfb) hpx hpy, pixelBit_plot hfb hpx hpy]
  split
  · exact modeBit_idem hm _ _
  · rfl

theorem plot_false {m : Mode} (hm : m = .toggle ∨ m = .or ∨ m = .nor) {d : Dot}
    (hv : d.v = false) : plot c m fb d = fb := by
  refine fb_ext_of_pixelBit (fbWf_plot hfb) hfb fun px py hpx hpy => ?_
  rw [pixelBit_plot hfb hpx hpy, hv, modeBit_false hm, ite_self]

/-- `Plot` calls on different points commute, whatever the mode of each. -/
theorem plot_comm (m m' : Mode) {d e : Dot} (hne : d.x ≠ e.x ∨ d.y ≠ e.y) :
    plot c m' (plot c m fb d) e = plot c m (plot c m' fb e) d := by
  refine fb_ext_of_pixelBit (fbWf_plot (fbWf_plot hfb)) (fbWf_plot (fbWf_plot hfb))
    fun px py hpx hpy => ?_
  rw [pixelBit_plot (fbWf_plot hfb) hpx hpy, pixelBit_plot hfb hpx hpy,
    pixelBit_plot (fbWf_plot hfb) hpx hpy, pixelBit_plot hfb hpx hpy]
  by_cases hd : d.x = px ∧ d.y = py
  · have he : ¬ (e.x = px ∧ e.y = py) := by omega
    rw [if_neg he, if_neg he]
  · rw [if_neg hd, if_neg hd]

end

end Sys2Proof.Machine

namespace Sys2Proof.Proofs

open Sys2Proof.Machine

/-- Settles O13, by the clip off the canvas and by the bits of the composited byte on it. -/
theorem plotFollowsTheTruthTable : Obligations.PlotFollowsTheTruthTable :=
  fun _ _ _ x y v hfb =>
    ⟨plot_off (dot := ⟨x, y, v⟩), fun _ => ⟨fun _ _ => pixelBit_plot hfb,
      fun _ ha => fbRead_plot_of_ne hfb fun hbyte => ha hbyte.2⟩⟩

/-- Settles O14: the laws of the truth table hold pixel by pixel, and the pixels determine the
framebuffer. -/
theorem plotLaws : Obligations.PlotLaws := by
  intro c fb d e m hfb
  refine ⟨?involution, fun hm => plot_idem hfb hm d, fun hm => plot_false hfb hm, plot_nor c fb d,
    plot_comm hfb m m⟩
  case involution =>
    rintro rfl hv
    exact plot_toggle_toggle hfb hv

/-- Settles O15, by the bytes of a filled framebuffer. -/
theorem clearFillsTheFramebuffer : Obligations.ClearFillsTheFramebuffer :=
  fun toBlank s =>
    ⟨fbFill s.cfg (if toBlank then 0xFF else 0x00), exec_of_paint rfl, fbWf_fbFill _ _,
      fun a ha => by rw [fbRead_fbFill, if_pos ha]⟩

/-- Settles O16: the command is one `Plot`. -/
theorem setPixelPlotsOnePixel : Obligations.SetPixelPlotsOnePixel :=
  fun x y mode v s hfb =>
    ⟨plot s.cfg mode s.fb ⟨coord x, coord y, v⟩, exec_of_paint rfl, fbWf_plot hfb,
      fun _ _ => pixelBit_plot hfb, fun _ => fbRead_plot_of_ne (dot := ⟨coord x, coord y, v⟩) hfb⟩

end Sys2Proof.Proofs

/-! # What the primitives leave of the picture (`41_graphics.md` R110, R111) -/

namespace Sys2Proof.Machine

section

variable {c : Config} {mode : Mode} {fb : Memory}

/-- A pixel goes through the truth table once for each time a list of points holds it. -/
theorem pixelBit_drawPoints (hfb : fbWf c fb) (points : List (Int × Int)) {px py : Nat}
    (hpx : px < canvasW c) (hpy : py < canvasH c) :
    pixelBit c (drawPoints c mode fb points) px py =
      (modeBit mode true)^[timesPlotted points px py] (pixelBit c fb px py) := by
  induction points generalizing fb with
  | nil => rfl
  | cons p points ih =>
    have hhead := pixelBit_plot (mode := mode) (dot := ⟨p.1, p.2, true⟩) hfb hpx hpy
    have hcons : pixelBit c (drawPoints c mode fb (p :: points)) px py = _ := ih (fbWf_plot hfb)
    rw [hcons, hhead, timesPlotted, timesPlotted, List.count_cons]
    by_cases hp : p.1 = px ∧ p.2 = py
    · rw [if_pos hp, if_pos (beq_iff_eq.mpr (Prod.ext_iff.mpr hp)), Function.iterate_succ_apply]
    · rw [if_neg hp, if_neg fun h => hp (Prod.ext_iff.mp (beq_iff_eq.mp h)), Nat.add_zero]

theorem drawsPoints_drawPoints (hfb : fbWf c fb) (points : List (Int × Int)) :
    DrawsPoints c mode points fb (drawPoints c mode fb points) := by
  refine ⟨fbWf_drawPoints hfb points, fun _ _ => pixelBit_drawPoints hfb points,
    fun a ha => fbRead_plotAll_of_ne hfb fun dot hdot => ?_⟩
  obtain ⟨p, hp, rfl⟩ := List.mem_map.mp hdot
  exact ha p hp

end

/-! # The test patterns (`41_graphics.md` R120) -/

/-- The last NORMAL `Plot` of a pixel decides it: if all dots at the pixel have one value, the pixel has
that value where there is such a dot, and is as it was where there is none. -/
theorem pixelBit_plotAll_normal {c : Config} {fb : Memory} (hfb : fbWf c fb) {dots : List Dot}
    {px py : Nat} (hpx : px < canvasW c) (hpy : py < canvasH c) {v : Bool}
    (hv : ∀ dot ∈ dots, dot.x = px → dot.y = py → dot.v = v) :
    pixelBit c (plotAll c .normal fb dots) px py =
      if ∃ dot ∈ dots, dot.x = px ∧ dot.y = py then !v else pixelBit c fb px py := by
  induction dots generalizing fb with
  | nil => simp
  | cons dot dots ih =>
    rw [plotAll_cons, ih (fbWf_plot hfb) fun d hd => hv d (List.mem_cons_of_mem _ hd),
      pixelBit_plot hfb hpx hpy]
    simp only [List.exists_mem_cons_iff]
    by_cases hdot : dot.x = px ∧ dot.y = py
    · have hvalue := hv dot List.mem_cons_self hdot.1 hdot.2
      simp [hdot, modeBit, hvalue]
    · simp [hdot]

/-- A test pattern plots every canvas pixel, and nothing else. -/
theorem mem_patternDots {c : Config} {pattern : BitVec 2} {dot : Dot} :
    dot ∈ patternDots c pattern ↔
      ∃ x y, x < canvasW c ∧ y < canvasH c ∧
        dot = ⟨(x : Nat), (y : Nat), patternValue pattern x y⟩ := by
  rw [patternDots, List.mem_map]
  constructor
  · rintro ⟨i, hi, rfl⟩
    have hi := List.mem_range.mp hi
    have hW : 0 < canvasW c := Nat.pos_of_mul_pos_right (Nat.zero_lt_of_lt hi)
    exact ⟨_, _, Nat.mod_lt i hW, Nat.div_lt_of_lt_mul hi, rfl⟩
  · rintro ⟨x, y, hx, hy, rfl⟩
    have hlast : (y + 1) * canvasW c ≤ canvasH c * canvasW c := Nat.mul_le_mul_right _ hy
    refine ⟨x + y * canvasW c, List.mem_range.mpr ?_, ?_⟩
    · rw [Nat.succ_mul] at hlast
      rw [Nat.mul_comm (canvasW c)]
      omega
    · rw [Nat.add_mul_mod_self_right, Nat.mod_eq_of_lt hx, Nat.add_mul_div_right _ _ (by omega),
        Nat.div_eq_of_lt hx, Nat.zero_add]

/-- Every canvas pixel after a test pattern, whatever the framebuffer held. -/
theorem pixelBit_plotAll_patternDots {c : Config} {fb : Memory} (hfb : fbWf c fb)
    (pattern : BitVec 2) {x y : Nat} (hx : x < canvasW c) (hy : y < canvasH c) :
    pixelBit c (plotAll c .normal fb (patternDots c pattern)) x y = !patternValue pattern x y := by
  rw [pixelBit_plotAll_normal hfb hx hy, if_pos]
  · exact ⟨_, mem_patternDots.mpr ⟨x, y, hx, hy, rfl⟩, rfl, rfl⟩
  · intro dot hdot hdx hdy
    obtain ⟨x', y', -, -, rfl⟩ := mem_patternDots.mp hdot
    rw [Int.natCast_inj.mp hdx, Int.natCast_inj.mp hdy]

/-- A byte masked to one bit is 0 exactly where that bit is. -/
theorem and_mask_eq_zero_iff (b : Byte) {k : Nat} (hk : k < 8) :
    b &&& 0x80#8 >>> k = 0 ↔ b.getLsbD (7 - k) = false := by
  have hbits : ∀ j < 8, (b &&& 0x80#8 >>> k).getLsbD j = (b.getLsbD j && decide (j = 7 - k)) :=
    fun j hj => by rw [BitVec.getLsbD_and, getLsbD_mask k j hk hj]
  constructor
  · intro hzero
    simpa [hzero] using (hbits (7 - k) (by omega)).symm
  · intro hclear
    refine BitVec.eq_of_getLsbD_eq fun j hj => ?_
    rw [hbits j hj, show BitVec.getLsbD 0 j = false from BitVec.getLsbD_zero]
    by_cases hjk : j = 7 - k
    · rw [hjk, hclear, Bool.false_and]
    · rw [decide_eq_false hjk, Bool.and_false]

/-- A pixel is lit where its bit is 0 (`20_memory.md` R41). -/
theorem lit_eq_not_pixelBit (c : Config) (fb : Memory) (x y : Nat) :
    lit c fb x y = !pixelBit c fb x y := by
  rw [lit, pixelBit, bitMask_eq, Bool.eq_iff_iff, beq_iff_eq,
    and_mask_eq_zero_iff _ (Nat.mod_lt _ (by decide)), Bool.not_eq_true']

/-- The bits of a framebuffer byte are the bits of its eight pixels, bit 7 the leftmost
(`20_memory.md` R41). -/
theorem getLsbD_fbRead {c : Config} (fb : Memory) {a j : Nat} (ha : a < fbSize c) (hj : j < 8) :
    (fbRead fb a).getLsbD j = pixelBit c fb (pixelX c a (7 - j)) (pixelY c a) := by
  rw [pixelBit, byteIdx_pixel ha (by omega), pixelX_mod (by omega), Nat.sub_sub_self (by omega)]

theorem pixelY_mod_two (c : Config) (i : Nat) : pixelY c i % 2 = i / rowBytes c % 2 := by
  unfold pixelY; omega

/-- In `0xAA` the leftmost pixel is unlit and lit pixels alternate with unlit ones. -/
theorem getLsbD_0xAA : ∀ j < 8, (0xAA#8).getLsbD j = decide ((7 - j) % 2 = 0) := by decide

/-- In `0x55` the leftmost pixel is lit and unlit pixels alternate with lit ones. -/
theorem getLsbD_0x55 : ∀ j < 8, (0x55#8).getLsbD j = decide ((7 - j) % 2 = 1) := by decide

/-- The byte of a test pattern in a framebuffer row. -/
def testPatternByte (pattern : BitVec 2) (row : Nat) : Byte :=
  if pattern = 2 then 0xAA
  else if pattern = 3 then 0x55
  else if pattern = 0 then (if row % 2 = 0 then 0xAA else 0x55)
  else (if row % 2 = 0 then 0x55 else 0xAA)

/-- Bit `j` of a pattern's byte is that of any pixel in column `7 - j` modulo 8 of a row of that parity. -/
theorem getLsbD_testPatternByte (pattern : BitVec 2) {row j x y : Nat} (hj : j < 8)
    (hx : x % 8 = 7 - j) (hy : y % 2 = row % 2) :
    (testPatternByte pattern row).getLsbD j = !patternValue pattern x y := by
  have hids : ∀ k : BitVec 2, k = 0 ∨ k = 1 ∨ k = 2 ∨ k = 3 := by decide
  have hAA := getLsbD_0xAA j hj
  have h55 := getLsbD_0x55 j hj
  rw [Bool.eq_iff_iff]
  rcases hids pattern with rfl | rfl | rfl | rfl
  case inl | inr.inl =>
    by_cases hrow : row % 2 = 0
    · simp [testPatternByte, patternValue, hrow, hAA, h55]
      omega
    · simp [testPatternByte, patternValue, hrow, hAA, h55]
      omega
  case inr.inr.inl | inr.inr.inr =>
    simp [testPatternByte, patternValue, hAA, h55]
    omega

end Sys2Proof.Machine

namespace Sys2Proof.Proofs

open Sys2Proof.Machine

/-- Settles O17: each primitive is its points, plotted one by one. -/
theorem primitivesDrawTheirPoints : Obligations.PrimitivesDrawTheirPoints :=
  fun _ _ _ _ _ _ hfb =>
    ⟨⟨_, exec_of_paint rfl, drawsPoints_drawPoints hfb _⟩,
      ⟨_, exec_of_paint rfl, drawsPoints_drawPoints hfb _⟩,
      ⟨_, exec_of_paint rfl, drawsPoints_drawPoints hfb _⟩,
      ⟨_, exec_of_paint rfl, drawsPoints_drawPoints hfb _⟩⟩

/-- Settles O24: every canvas pixel is plotted, and in NORMAL mode the value plotted decides it. -/
theorem testPatternWritesEveryPixel : Obligations.TestPatternWritesEveryPixel :=
  fun pattern s hfb =>
    ⟨_, exec_of_paint rfl, fbWf_plotAll hfb _, fun x y hx hy => by
      rw [lit_eq_not_pixelBit, pixelBit_plotAll_patternDots hfb pattern hx hy, Bool.not_not,
        patternValue]⟩

/-- Settles O25: bit by bit, by the pixel each bit of the framebuffer belongs to. -/
theorem testPatternBytes : Obligations.TestPatternBytes := by
  intro pattern s t hfb h a ha
  cases h
  refine BitVec.eq_of_getLsbD_eq fun j hj => ?_
  have hk : 7 - j < 8 := by omega
  rw [getLsbD_fbRead _ ha hj,
    pixelBit_plotAll_patternDots hfb pattern (pixelX_lt ha hk) (pixelY_lt ha)]
  exact (getLsbD_testPatternByte pattern hj (pixelX_mod hk) (pixelY_mod_two _ _)).symm

end Sys2Proof.Proofs

/-! # Lines in closed form (`41_graphics.md` R112, R113) -/

namespace Sys2Proof.Machine

/-- The minor coordinate of a line, counted from its start, after `k` steps along a major extent of `a`:
`b * k / a`, rounded to the nearest integer and a half up. -/
def minorSteps (a b k : Nat) : Nat := (2 * b * k + a) / (2 * a)

/-- The points of a line as (major, minor) pairs, by the closed form. -/
def segmentPoints (a b : Nat) (sMajor sMinor major minor : Int) : List (Int × Int) :=
  (List.range (a + 1)).map fun (k : Nat) =>
    (major + sMajor * k, minor + sMinor * (minorSteps a b k : Nat))

section

variable {a b : Nat}

@[simp] theorem minorSteps_start (a b : Nat) : minorSteps a b 0 = 0 := by
  rcases Nat.eq_zero_or_pos a with rfl | ha
  · simp [minorSteps]
  · exact (Nat.div_eq_zero_iff_lt (by omega)).mpr (by omega)

theorem minorSteps_end (hb : b ≤ a) : minorSteps a b a = b := by
  rcases Nat.eq_zero_or_pos a with rfl | ha
  · simp [minorSteps]; omega
  · rw [minorSteps, show 2 * b * a + a = a + b * (2 * a) by ring,
      Nat.add_mul_div_right _ _ (by omega), Nat.div_eq_of_lt (by omega), Nat.zero_add]

@[simp] theorem minorSteps_flat (a k : Nat) : minorSteps a 0 k = 0 := by
  simp [minorSteps]; omega

/-- The rounding brackets the exact line. -/
theorem minorSteps_bounds (ha : 0 < a) (b k : Nat) :
    2 * a * minorSteps a b k ≤ 2 * b * k + a ∧ 2 * b * k + a < 2 * a * (minorSteps a b k + 1) :=
  ⟨Nat.mul_div_le _ _, Nat.lt_mul_div_succ _ (by omega)⟩

/-- The error `f` of R112 before step `k + 1`. -/
def lineError (a b k : Nat) : Int := 2 * b * (k + 1) - a - 2 * a * (minorSteps a b k : Nat)

/-- The test of R112 on the error decides whether the rounded minor coordinate moves. -/
theorem minorSteps_succ (ha : 0 < a) (hb : b ≤ a) (k : Nat) :
    minorSteps a b (k + 1) =
      if 0 ≤ lineError a b k then minorSteps a b k + 1 else minorSteps a b k := by
  obtain ⟨hlo, hhi⟩ := minorSteps_bounds ha b k
  have hmove : 0 ≤ lineError a b k ↔
      2 * a * (minorSteps a b k + 1) ≤ 2 * b * (k + 1) + a := by
    unfold lineError
    zify
    constructor <;> intro h <;> linarith
  simp only [hmove]
  split
  case isTrue hle => exact Nat.div_eq_of_lt_le (by linarith) (by linarith)
  case isFalse hgt => exact Nat.div_eq_of_lt_le (by linarith) (by linarith)

theorem minorSteps_le_succ (ha : 0 < a) (hb : b ≤ a) (k : Nat) :
    minorSteps a b k ≤ minorSteps a b (k + 1) ∧ minorSteps a b (k + 1) ≤ minorSteps a b k + 1 := by
  rw [minorSteps_succ ha hb]
  split <;> omega

/-- The loop of R112 from its turn `k` on plots the closed form from point `k + 1` on. -/
theorem lineSteps_eq (ha : 0 < a) (hb : b ≤ a) (sMajor sMinor major minor : Int) (n k : Nat) :
    lineSteps a b sMajor sMinor n (major + sMajor * k) (minor + sMinor * (minorSteps a b k : Nat))
        (lineError a b k) =
      (List.range' (k + 1) n).map fun (j : Nat) =>
        (major + sMajor * j, minor + sMinor * (minorSteps a b j : Nat)) := by
  induction n generalizing k with
  | zero => rfl
  | succ n ih =>
    have hsucc := minorSteps_succ ha hb k
    have hmajor : major + sMajor * k + sMajor = major + sMajor * (k + 1 : Nat) := by
      push_cast; ring
    have hminor : (if 0 ≤ lineError a b k then minor + sMinor * (minorSteps a b k : Nat) + sMinor
        else minor + sMinor * (minorSteps a b k : Nat)) =
        minor + sMinor * (minorSteps a b (k + 1) : Nat) := by
      rw [hsucc]; split
      · push_cast; ring
      · rfl
    have herror :
        (if 0 ≤ lineError a b k then lineError a b k - 2 * a else lineError a b k) + 2 * b =
          lineError a b (k + 1) := by
      conv_rhs => rw [lineError, hsucc]
      split <;> · unfold lineError; push_cast; ring
    simp only [lineSteps, hmajor, hminor, herror, ih, List.range'_succ, List.map_cons]

end

/-- The loop of R112 as a whole: the start and the turns plot the closed form. -/
theorem cons_lineSteps_eq {a b : Nat} (hb : b ≤ a) (sMajor sMinor major minor : Int) :
    (major, minor) :: lineSteps a b sMajor sMinor a major minor (2 * b - a) =
      segmentPoints a b sMajor sMinor major minor := by
  rcases Nat.eq_zero_or_pos a with rfl | ha
  · simp [lineSteps, segmentPoints]
  · have hsteps := lineSteps_eq ha hb sMajor sMinor major minor a 0
    rw [minorSteps_start, show lineError a b 0 = 2 * b - a by simp [lineError]] at hsteps
    simp only [Nat.cast_zero, mul_zero, add_zero, zero_add] at hsteps
    rw [hsteps, segmentPoints, List.range_eq_range', List.range'_succ, List.map_cons]
    simp

theorem stepSign_eq_sign {d : Int} (hd : d ≠ 0) : stepSign d = d.sign := by
  rcases lt_or_gt_of_ne hd with h | h
  · rw [stepSign, if_pos h, Int.sign_eq_neg_one_of_neg h]
  · rw [stepSign, if_neg (by omega), Int.sign_eq_one_of_pos h]

/-- An axis along which the line does not move needs no direction. -/
theorem segmentPoints_stepSign {a b : Nat} {dMajor dMinor : Int} (ha : dMajor.natAbs = a)
    (hb : dMinor.natAbs = b) (major minor : Int) :
    segmentPoints a b (stepSign dMajor) (stepSign dMinor) major minor =
      segmentPoints a b dMajor.sign dMinor.sign major minor := by
  refine List.map_congr_left fun k hk => ?_
  have hk := List.mem_range.mp hk
  congr 2
  · by_cases hd : dMajor = 0
    · rw [show k = 0 by omega]; simp
    · rw [stepSign_eq_sign hd]
  · by_cases hd : dMinor = 0
    · rw [show b = 0 by omega]; simp
    · rw [stepSign_eq_sign hd]

/-- A line with the x axis as its major axis. -/
theorem linePoints_of_flat {x0 y0 x1 y1 : Int} (h : (y1 - y0).natAbs < (x1 - x0).natAbs) :
    linePoints x0 y0 x1 y1 =
      segmentPoints (x1 - x0).natAbs (y1 - y0).natAbs (x1 - x0).sign (y1 - y0).sign x0 y0 := by
  rw [← segmentPoints_stepSign rfl rfl, ← cons_lineSteps_eq h.le, linePoints, if_pos (by omega)]

/-- A line with the y axis as its major axis, a diagonal included. -/
theorem linePoints_of_steep {x0 y0 x1 y1 : Int} (h : (x1 - x0).natAbs ≤ (y1 - y0).natAbs) :
    linePoints x0 y0 x1 y1 =
      (segmentPoints (y1 - y0).natAbs (x1 - x0).natAbs (y1 - y0).sign (x1 - x0).sign y0 x0).map
        Prod.swap := by
  rw [← segmentPoints_stepSign rfl rfl, ← cons_lineSteps_eq h, linePoints, if_neg (by omega)]
  rfl

/-! ## The points in order (R113) -/

section

variable {a b : Nat} {sMajor sMinor major minor : Int}

@[simp] theorem length_segmentPoints :
    (segmentPoints a b sMajor sMinor major minor).length = a + 1 := by simp [segmentPoints]

@[simp] theorem head?_segmentPoints :
    (segmentPoints a b sMajor sMinor major minor).head? = some (major, minor) := by
  simp [segmentPoints, List.range_succ_eq_map]

theorem getLast?_segmentPoints (hb : b ≤ a) :
    (segmentPoints a b sMajor sMinor major minor).getLast? =
      some (major + sMajor * a, minor + sMinor * b) := by
  simp [segmentPoints, List.range_succ, minorSteps_end hb]

/-- The major coordinate moves at every step, so no point comes twice. -/
theorem nodup_segmentPoints (hs : a ≠ 0 → sMajor ≠ 0) :
    (segmentPoints a b sMajor sMinor major minor).Nodup := by
  refine List.Nodup.map_on (fun j hj k hk hjk => ?_) List.nodup_range
  have hj := List.mem_range.mp hj
  have hk := List.mem_range.mp hk
  by_cases ha : a = 0
  · omega
  · have hmajor : sMajor * j = sMajor * k := by simpa using congrArg Prod.fst hjk
    exact Int.natCast_inj.mp (mul_left_cancel₀ (hs ha) hmajor)

theorem nodup_segmentPoints_sign (d : Int) (b : Nat) (sMinor major minor : Int) :
    (segmentPoints d.natAbs b d.sign sMinor major minor).Nodup :=
  nodup_segmentPoints fun h => by simpa using h

/-- Two points of a list that stand side by side. -/
theorem getElem?_of_pair_infix {α : Type} {p q : α} {l : List α} (h : [p, q] <:+: l) :
    ∃ k, l[k]? = some p ∧ l[k + 1]? = some q := by
  obtain ⟨before, after, rfl⟩ := h
  exact ⟨before.length, by simp, by simp⟩

/-- Successive points differ by one along the major axis and by at most one along the minor axis. -/
theorem segmentPoints_step (hb : b ≤ a) (hMajor : sMajor.natAbs ≤ 1) (hMinor : sMinor.natAbs ≤ 1)
    {p q : Int × Int} (h : [p, q] <:+: segmentPoints a b sMajor sMinor major minor) :
    (q.1 - p.1).natAbs ≤ 1 ∧ (q.2 - p.2).natAbs ≤ 1 := by
  obtain ⟨k, hp, hq⟩ := getElem?_of_pair_infix h
  simp only [segmentPoints, List.getElem?_map, Option.map_eq_some_iff, List.getElem?_eq_some_iff,
    List.length_range, List.getElem_range] at hp hq
  obtain ⟨_, ⟨_, rfl⟩, rfl⟩ := hp
  obtain ⟨_, ⟨hk, rfl⟩, rfl⟩ := hq
  obtain ⟨hlo, hhi⟩ := minorSteps_le_succ (show 0 < a by omega) hb k
  constructor
  · have : major + sMajor * (k + 1 : Nat) - (major + sMajor * k) = sMajor := by push_cast; ring
    rwa [this]
  · have : minor + sMinor * (minorSteps a b (k + 1) : Nat) -
          (minor + sMinor * (minorSteps a b k : Nat)) =
        sMinor * (minorSteps a b (k + 1) - minorSteps a b k : Nat) := by
      push_cast [hlo]; ring
    rw [this, Int.natAbs_mul, Int.natAbs_natCast]
    exact Nat.mul_le_mul hMinor (show _ ≤ 1 by omega)

end

/-- No line plots a point twice (R113). -/
theorem linePoints_nodup (x0 y0 x1 y1 : Int) : (linePoints x0 y0 x1 y1).Nodup := by
  rcases lt_or_ge (y1 - y0).natAbs (x1 - x0).natAbs with h | h
  · rw [linePoints_of_flat h]
    exact nodup_segmentPoints_sign ..
  · rw [linePoints_of_steep h]
    exact (nodup_segmentPoints_sign ..).map Prod.swap_injective

/-! ## Lines along an axis (R113) -/

/-- A line without minor extent is the run of points between its ends. -/
theorem mem_segmentPoints_straight {p0 p1 minor : Int} {p : Int × Int} :
    p ∈ segmentPoints (p1 - p0).natAbs 0 (p1 - p0).sign 0 p0 minor ↔
      (min p0 p1 ≤ p.1 ∧ p.1 ≤ max p0 p1) ∧ p.2 = minor := by
  simp only [segmentPoints, minorSteps_flat, List.mem_map, List.mem_range, Prod.ext_iff]
  constructor
  · rintro ⟨k, hk, hp, hp'⟩
    rcases lt_trichotomy (p1 - p0) 0 with h | h | h
    · rw [Int.sign_eq_neg_one_of_neg h] at hp
      omega
    · rw [h] at hp
      simp at hp
      omega
    · rw [Int.sign_eq_one_of_pos h] at hp
      omega
  · rintro ⟨hp, hp'⟩
    refine ⟨(p.1 - p0).natAbs, by omega, ?_, by omega⟩
    rcases lt_trichotomy (p1 - p0) 0 with h | h | h
    · rw [Int.sign_eq_neg_one_of_neg h]
      omega
    · rw [h, Int.sign_zero]
      omega
    · rw [Int.sign_eq_one_of_pos h]
      omega

theorem mem_linePoints_row {x0 x1 y px py : Int} :
    (px, py) ∈ linePoints x0 y x1 y ↔ (min x0 x1 ≤ px ∧ px ≤ max x0 x1) ∧ py = y := by
  by_cases h : x0 = x1
  · subst h
    simp [linePoints, lineSteps]
    omega
  · rw [linePoints_of_flat (by omega)]
    simp only [sub_self, Int.natAbs_zero, Int.sign_zero]
    exact mem_segmentPoints_straight

theorem mem_linePoints_column {x y0 y1 px py : Int} :
    (px, py) ∈ linePoints x y0 x y1 ↔ (min y0 y1 ≤ py ∧ py ≤ max y0 y1) ∧ px = x := by
  rw [linePoints_of_steep (by omega)]
  simp only [sub_self, Int.natAbs_zero, Int.sign_zero]
  exact (List.mem_map_swap _ _ _).trans mem_segmentPoints_straight

@[simp] theorem linePoints_self (x y : Int) : linePoints x y x y = [(x, y)] := by
  simp [linePoints, lineSteps]

end Sys2Proof.Machine

namespace Sys2Proof.Proofs

open Sys2Proof.Machine

/-- Settles O19: the loop keeps the minor coordinate at the rounded exact line. -/
theorem lineIsTheRoundedSegment : Obligations.LineIsTheRoundedSegment := by
  intro x0 y0 x1 y1
  refine ⟨linePoints_of_flat, fun h => ?_⟩
  rw [linePoints_of_steep h, segmentPoints, List.map_map]
  rfl

/-- Settles O18, by the closed form along either major axis. -/
theorem lineVisitsEachPointOnce : Obligations.LineVisitsEachPointOnce := by
  intro x0 y0 x1 y1
  have hsign : ∀ d : Int, d.sign.natAbs ≤ 1 := fun d => by rw [Int.natAbs_sign]; split <;> omega
  have hend : ∀ d0 d1 : Int, d0 + (d1 - d0).sign * (d1 - d0).natAbs = d1 := fun d0 d1 => by
    rw [Int.sign_mul_natAbs]; omega
  rcases lt_or_ge (y1 - y0).natAbs (x1 - x0).natAbs with h | h
  case inl =>
    rw [linePoints_of_flat h]
    refine ⟨?_, nodup_segmentPoints_sign .., head?_segmentPoints, ?_,
      fun p q => segmentPoints_step h.le (hsign _) (hsign _)⟩
    · rw [length_segmentPoints, max_eq_left h.le]
    · rw [getLast?_segmentPoints h.le, hend, hend]
  case inr =>
    rw [linePoints_of_steep h]
    refine ⟨?_, (nodup_segmentPoints_sign ..).map Prod.swap_injective, ?_, ?_, fun p q hpq => ?_⟩
    · rw [List.length_map, length_segmentPoints, max_eq_right h]
    · rw [List.head?_map, head?_segmentPoints]
      rfl
    · rw [List.getLast?_map, getLast?_segmentPoints h, hend, hend]
      rfl
    · have hswap := hpq.map Prod.swap
      rw [List.map_map, Prod.swap_swap_eq, List.map_id] at hswap
      exact (segmentPoints_step h (hsign _) (hsign _) hswap).symm

/-- Settles O22: no side plots a point twice, and two sides meet in the corners alone. -/
theorem boxPlotsItsOutline : Obligations.BoxPlotsItsOutline := by
  intro x0 y0 x1 y1 px py
  simp only [boxPoints, List.mem_append, List.count_append, (linePoints_nodup _ _ _ _).count,
    mem_linePoints_row, mem_linePoints_column, min_comm x1 x0, max_comm x1 x0, min_comm y1 y0,
    max_comm y1 y0]
  have hcolumn : px = x0 ∨ px = x1 → min x0 x1 ≤ px ∧ px ≤ max x0 x1 := by omega
  have hrow : py = y0 ∨ py = y1 → min y0 y1 ≤ py ∧ py ≤ max y0 y1 := by omega
  refine ⟨by grind, fun hx hy hmem => ?_, ?_⟩
  · by_cases hcorner : (px = x0 ∨ px = x1) ∧ (py = y0 ∨ py = y1)
    · rw [if_pos hcorner]
      grind
    · rw [if_neg hcorner]
      grind
  · rintro rfl rfl
    simp [List.replicate]

/-- Settles O23: the columns are different lines, none of which plots a point twice. -/
theorem filledBoxPlotsEachPixelOnce : Obligations.FilledBoxPlotsEachPixelOnce := by
  intro x0 y0 x1 y1 px py
  have hnodup : (filledBoxPoints x0 y0 x1 y1).Nodup := by
    refine List.nodup_flatMap.mpr ⟨fun _ _ => linePoints_nodup _ _ _ _, ?_⟩
    refine List.nodup_range.imp fun hne => ?_
    rintro ⟨qx, qy⟩ hj hk
    rw [mem_linePoints_column] at hj hk
    omega
  have hmem : (px, py) ∈ filledBoxPoints x0 y0 x1 y1 ↔
      x0 ≤ px ∧ px ≤ x1 ∧ min y0 y1 ≤ py ∧ py ≤ max y0 y1 := by
    simp only [filledBoxPoints, List.mem_flatMap, List.mem_range, mem_linePoints_column]
    constructor
    · rintro ⟨k, hk, hy, hx⟩
      omega
    · rintro ⟨hlo, hhi, hy⟩
      exact ⟨(px - x0).toNat, by omega, hy, by omega⟩
  rw [hnodup.count]
  exact if_congr hmem rfl rfl

end Sys2Proof.Proofs

/-! # Circles (`41_graphics.md` R114, R115) -/

namespace Sys2Proof.Machine

/-! ## The eight images of a point -/

/-- `Points` plots what the eight symmetries of the square make of `(x, y)`, and nothing where `x > y`. -/
theorem mem_circleOctants {xc yc x y px py : Int} :
    (px, py) ∈ circleOctants xc yc x y ↔ (x = 0 ∨ x ≤ y) ∧
      (((px - xc).natAbs = x.natAbs ∧ (py - yc).natAbs = y.natAbs) ∨
        ((px - xc).natAbs = y.natAbs ∧ (py - yc).natAbs = x.natAbs)) := by
  simp only [Int.natAbs_eq_natAbs_iff]
  unfold circleOctants
  split_ifs
  · simp; grind
  · simp; grind
  · simp; grind
  · simp; grind

/-- The images of a point other than the centre are different. -/
theorem nodup_circleOctants (xc yc : Int) {x y : Int} (hx : 0 ≤ x) (hy : x = 0 → 0 < y) :
    (circleOctants xc yc x y).Nodup := by
  unfold circleOctants
  split_ifs
  · simp; omega
  · simp; omega
  · simp; omega
  · exact List.nodup_nil

/-- The smaller distance of an image from the two axes tells the pair it is an image of. -/
theorem min_natAbs_of_mem_circleOctants {xc yc x y px py : Int} (hx : 0 ≤ x)
    (h : (px, py) ∈ circleOctants xc yc x y) :
    (min (px - xc).natAbs (py - yc).natAbs : Int) = x := by
  obtain ⟨hplotted, himage⟩ := mem_circleOctants.mp h
  have hle : x.natAbs ≤ y.natAbs := by omega
  rcases himage with ⟨hpx, hpy⟩ | ⟨hpx, hpy⟩
  · rw [hpx, hpy]; omega
  · rw [hpx, hpy]; omega

/-! ## The path of the loop -/

/-- `y` after a turn of the loop of R114. -/
def turnY (y p : Int) : Int := if p < 0 then y else y - 1

/-- `p` after a turn of the loop of R114. -/
def turnP (x y p : Int) : Int :=
  if p < 0 then p + 2 * (x + 1) + 1 else p + 2 * (x + 1 - turnY y p) + 1

/-- The pairs `(x, y)` for which R114 calls `Points`, from `(x, y)` on, in at most `n` turns. -/
def circlePath : Nat → Int → Int → Int → List (Int × Int)
  | 0, x, y, _ => [(x, y)]
  | n + 1, x, y, p =>
    (x, y) :: if x < y then circlePath n (x + 1) (turnY y p) (turnP x y p) else []

/-- The pairs `(x, y)` of a circle. -/
def circleArc (r : Int) : List (Int × Int) := circlePath r.toNat 0 r ((5 - 4 * r).tdiv 4)

theorem circleSteps_eq (xc yc : Int) (n : Nat) (x y p : Int) :
    circleOctants xc yc x y ++ circleSteps xc yc n x y p =
      (circlePath n x y p).flatMap fun q => circleOctants xc yc q.1 q.2 := by
  induction n generalizing x y p with
  | zero => simp [circleSteps, circlePath]
  | succ n ih =>
    rw [circleSteps, circlePath, List.flatMap_cons]
    congr 1
    split
    · rw [← ih, turnP, turnY]
    · rfl

/-- A circle is what `Points` makes of its path. -/
theorem circlePoints_eq (xc yc r : Int) :
    circlePoints xc yc r = (circleArc r).flatMap fun q => circleOctants xc yc q.1 q.2 :=
  circleSteps_eq ..

theorem mem_circlePoints {xc yc r dx dy : Int} :
    (xc + dx, yc + dy) ∈ circlePoints xc yc r ↔ ∃ x y, (x, y) ∈ circleArc r ∧ (x = 0 ∨ x ≤ y) ∧
      ((dx.natAbs = x.natAbs ∧ dy.natAbs = y.natAbs) ∨
        (dx.natAbs = y.natAbs ∧ dy.natAbs = x.natAbs)) := by
  simp only [circlePoints_eq, List.mem_flatMap, mem_circleOctants, Prod.exists,
    add_sub_cancel_left]

/-- What every turn of the loop keeps holds of every pair on the path. -/
theorem circlePath_invariant {Inv : Int → Int → Int → Prop}
    (hturn : ∀ x y p, x < y → Inv x y p → Inv (x + 1) (turnY y p) (turnP x y p)) {n : Nat}
    {x y p : Int} (h : Inv x y p) {q : Int × Int} (hq : q ∈ circlePath n x y p) :
    ∃ p', Inv q.1 q.2 p' := by
  induction n generalizing x y p with
  | zero =>
    cases List.mem_singleton.mp hq
    exact ⟨p, h⟩
  | succ n ih =>
    rcases List.mem_cons.mp hq with rfl | hq
    · exact ⟨p, h⟩
    · split at hq
      case isTrue hlt => exact ih (hturn x y p hlt h) hq
      case isFalse => cases hq

theorem turnY_le (y p : Int) : y - 1 ≤ turnY y p ∧ turnY y p ≤ y := by
  unfold turnY
  split <;> omega

theorem le_fst_of_mem_circlePath {n : Nat} {x y p : Int} {q : Int × Int}
    (hq : q ∈ circlePath n x y p) : x ≤ q.1 := by
  obtain ⟨-, hle⟩ := circlePath_invariant (Inv := fun x' _ _ => x ≤ x')
    (fun _ _ _ _ h => by omega) le_rfl hq
  exact hle

/-- `x` grows with every turn. -/
theorem circlePath_increasing (n : Nat) (x y p : Int) :
    (circlePath n x y p).Pairwise fun q q' => q.1 < q'.1 := by
  induction n generalizing x y p with
  | zero => exact List.pairwise_singleton _ _
  | succ n ih =>
    rw [circlePath]
    split
    · exact List.pairwise_cons.mpr ⟨fun q hq => le_fst_of_mem_circlePath hq, ih ..⟩
    · exact List.pairwise_singleton _ _

/-- The path has no gap: every number from its first `x` to its first `y` is a coordinate of one of its
pairs with `x ≤ y`. -/
theorem exists_mem_circlePath {n : Nat} {x y p d : Int} (hn : y - x ≤ n) (hlo : x ≤ d)
    (hhi : d ≤ y) : ∃ q ∈ circlePath n x y p, q.1 ≤ q.2 ∧ (q.1 = d ∨ q.2 = d) := by
  induction n generalizing x y p with
  | zero => exact ⟨(x, y), List.mem_singleton_self _, by omega, by omega⟩
  | succ n ih =>
    rw [circlePath]
    by_cases hends : x = d ∨ y = d
    · exact ⟨(x, y), List.mem_cons_self, by omega, hends⟩
    · have hy := turnY_le y p
      obtain ⟨q, hq, hdist⟩ :=
        ih (p := turnP x y p) (show turnY y p - (x + 1) ≤ n by omega) (by omega) (by omega)
      rw [if_pos (by omega)]
      exact ⟨q, List.mem_cons_of_mem _ hq, hdist⟩

/-! ## The circle the path follows -/

/-- What the loop of R114 keeps. With `e` the squared distance less `r * r` that a turn at constant `y`
would leave, the decision variable is `e - y` or `e - y + 1`; so its sign picks a turn after which the
squared distance is still within `r` of `r * r`. -/
structure OnCircle (r x y p : Int) : Prop where
  x_nonneg : 0 ≤ x
  y_le : y ≤ r
  y_of_start : x = 0 → y = r
  decision_ge : x * x + y * y - r * r + 2 * x + 1 - y ≤ p
  decision_le : p ≤ x * x + y * y - r * r + 2 * x + 2 - y
  dist_ge : r * r - r ≤ x * x + y * y
  dist_le : x * x + y * y ≤ r * r + r

/-- The start value of the decision variable: `2 - r`, but for a radius of 1. -/
theorem decision_start_bounds {r : Int} (hr : 1 ≤ r) :
    1 - r ≤ (5 - 4 * r).tdiv 4 ∧ (5 - 4 * r).tdiv 4 ≤ 2 - r := by
  rcases eq_or_lt_of_le hr with rfl | hr
  · decide
  · rw [show 5 - 4 * r = -(4 * r - 5) by omega, Int.neg_tdiv,
      Int.tdiv_eq_ediv_of_nonneg (by omega)]
    omega

theorem onCircle_start {r : Int} (hr : 1 ≤ r) : OnCircle r 0 r ((5 - 4 * r).tdiv 4) := by
  have hp := decision_start_bounds hr
  constructor <;> intros <;> linarith

theorem OnCircle.turn {r x y p : Int} (hlt : x < y) (h : OnCircle r x y p) :
    OnCircle r (x + 1) (turnY y p) (turnP x y p) := by
  obtain ⟨hx, hy, -, hpge, hple, hge, hle⟩ := h
  unfold turnP turnY
  split
  case isTrue hp => constructor <;> intros <;> linarith
  case isFalse hp => constructor <;> intros <;> linarith

theorem onCircle_of_mem_circleArc {r : Int} (hr : 1 ≤ r) {q : Int × Int} (hq : q ∈ circleArc r) :
    ∃ p, OnCircle r q.1 q.2 p :=
  circlePath_invariant (fun _ _ _ => OnCircle.turn) (onCircle_start hr) hq

/-! ## The points of a circle -/

theorem swap_mem_circlePoints {xc yc r dx dy : Int}
    (h : (xc + dx, yc + dy) ∈ circlePoints xc yc r) :
    (xc + dy, yc + dx) ∈ circlePoints xc yc r := by
  obtain ⟨x, y, hq, hplotted, himage⟩ := mem_circlePoints.mp h
  exact mem_circlePoints.mpr ⟨x, y, hq, hplotted, himage.symm.imp And.symm And.symm⟩

/-- Every distance from the centre up to the radius is that of a column with a point. -/
theorem exists_mem_circlePoints {xc yc r d : Int} (hlo : -r ≤ d) (hhi : d ≤ r) :
    ∃ e, (xc + d, yc + e) ∈ circlePoints xc yc r := by
  obtain ⟨⟨x, y⟩, hq, hle, hd⟩ :
      ∃ q ∈ circleArc r, q.1 ≤ q.2 ∧ (q.1 = d.natAbs ∨ q.2 = d.natAbs) :=
    exists_mem_circlePath (by omega) (by omega) (by omega)
  rcases hd with rfl | rfl
  · exact ⟨y, mem_circlePoints.mpr ⟨_, y, hq, .inr hle, .inl ⟨rfl, rfl⟩⟩⟩
  · exact ⟨x, mem_circlePoints.mpr ⟨x, _, hq, .inr hle, .inr ⟨rfl, rfl⟩⟩⟩

section

variable {xc yc r : Int} (hr : 1 ≤ r)

include hr

/-- No point is plotted twice: two pairs of the path differ in their smaller coordinate. -/
theorem nodup_circlePoints : (circlePoints xc yc r).Nodup := by
  have hpair : ∀ q ∈ circleArc r, 0 ≤ q.1 ∧ (q.1 = 0 → 0 < q.2) := fun q hq => by
    obtain ⟨p, hon⟩ := onCircle_of_mem_circleArc hr hq
    exact ⟨hon.x_nonneg, fun hzero => by have := hon.y_of_start hzero; omega⟩
  rw [circlePoints_eq, List.nodup_flatMap]
  refine ⟨fun q hq => nodup_circleOctants xc yc (hpair q hq).1 (hpair q hq).2, ?_⟩
  refine (circlePath_increasing ..).imp_of_mem fun {q q'} hq hq' hlt => ?_
  rintro ⟨px, py⟩ hmem hmem'
  have hmin := min_natAbs_of_mem_circleOctants (hpair q hq).1 hmem
  have hmin' := min_natAbs_of_mem_circleOctants (hpair q' hq').1 hmem'
  omega

theorem dist_of_mem_circlePoints {dx dy : Int} (h : (xc + dx, yc + dy) ∈ circlePoints xc yc r) :
    r * r - r ≤ dx * dx + dy * dy ∧ dx * dx + dy * dy ≤ r * r + r := by
  obtain ⟨x, y, hq, -, himage⟩ := mem_circlePoints.mp h
  obtain ⟨p, hon⟩ := onCircle_of_mem_circleArc hr hq
  have hge := hon.dist_ge
  have hle := hon.dist_le
  simp only [Int.natAbs_eq_iff_mul_self_eq] at himage
  rcases himage with ⟨hdx, hdy⟩ | ⟨hdx, hdy⟩
  · rw [hdx, hdy]
    exact ⟨hge, hle⟩
  · rw [hdx, hdy, add_comm]
    exact ⟨hge, hle⟩

end

end Sys2Proof.Machine

namespace Sys2Proof.Proofs

open Sys2Proof.Machine

/-- Settles O20: the eight images of each pair are closed under the symmetries, and are all different along
the path. -/
theorem circleIsSymmetricAndDistinct : Obligations.CircleIsSymmetricAndDistinct := by
  intro xc yc r
  refine ⟨fun dx dy hmem => ⟨?_, ?_, swap_mem_circlePoints hmem⟩, nodup_circlePoints, ?_,
    fun hr => ?_⟩
  · rw [sub_eq_add_neg, mem_circlePoints, Int.natAbs_neg]
    exact mem_circlePoints.mp hmem
  · rw [sub_eq_add_neg, mem_circlePoints, Int.natAbs_neg]
    exact mem_circlePoints.mp hmem
  · rintro rfl
    simp [circlePoints, circleOctants, circleSteps, List.replicate]
  · rw [circlePoints, Int.toNat_of_nonpos hr.le]
    simp [circleOctants, circleSteps]

/-- Settles O21: the loop keeps to the circle, and neither coordinate of its path skips a value. -/
theorem circleFollowsItsRadius : Obligations.CircleFollowsItsRadius :=
  fun _ _ _ hr =>
    ⟨fun _ _ => dist_of_mem_circlePoints hr, fun _ => exists_mem_circlePoints, fun _ hlo hhi =>
      (exists_mem_circlePoints hlo hhi).imp fun _ => swap_mem_circlePoints⟩

end Sys2Proof.Proofs

/-! # Fonts (`42_font.md` R130 to R133) -/

namespace Sys2Proof.Machine

section

variable {c : Config} {base : Nat}

theorem fontFixed_iff :
    fontFixed c base = true ↔ fontField c base 0 = 0 ∧ fontField c base 1 = 0 := by
  simp [fontFixed]

theorem fontExtent_of_fixed (h : fontFixed c base = true) :
    fontExtent c base = 6 + fontCount c base * columnBytes c base * fontFixedWidth c base := by
  simp [fontExtent, h]

theorem fontExtent_of_table (h : ¬ fontFixed c base = true) :
    fontExtent c base =
      6 + fontCount c base + columnBytes c base * widthSum c base (fontCount c base) := by
  simp [fontExtent, h]

/-- The checks of SELECT_FONT for a font of either kind, the extent written out (R131). -/
theorem fontFits_iff_extent :
    fontFits c base = true ↔
      base + 6 ≤ fontBytes c ∧
      (fontFixed c base = true →
        base + (6 + fontCount c base * columnBytes c base * fontFixedWidth c base) ≤ fontBytes c) ∧
      (¬ fontFixed c base = true →
        base + 6 + fontCount c base ≤ fontBytes c ∧
        base + (6 + fontCount c base + columnBytes c base * widthSum c base (fontCount c base)) ≤
          fontBytes c) := by
  rw [fontFits_iff]
  by_cases hfixed : fontFixed c base = true
  · simp [hfixed, fontExtent_of_fixed hfixed]
  · simp [hfixed, fontExtent_of_table hfixed]

/-! ## A glyph's bytes lie inside the blob (R132) -/

theorem widthSum_succ (k : Nat) :
    widthSum c base (k + 1) = widthSum c base k + tableWidth c base k := by
  simp [widthSum, List.range_succ]

theorem widthSum_mono {k n : Nat} (h : k ≤ n) : widthSum c base k ≤ widthSum c base n :=
  monotone_nat_of_le_succ (fun m => by rw [widthSum_succ]; exact Nat.le_add_right _ _) h

/-- The last byte of a glyph stands before the end of the blob. -/
theorem glyphOffset_add_size_le {g : Nat} (hg : g < fontCount c base) :
    glyphOffset c base g + glyphWidth c base g * columnBytes c base ≤ fontExtent c base := by
  by_cases hfixed : fontFixed c base = true
  · have hglyphs : (g + 1) * (columnBytes c base * fontFixedWidth c base) ≤
        fontCount c base * (columnBytes c base * fontFixedWidth c base) :=
      Nat.mul_le_mul_right _ hg
    rw [fontExtent_of_fixed hfixed]
    simp only [glyphOffset, glyphWidth, hfixed, if_true]
    linarith
  · have hwidths : widthSum c base g + tableWidth c base g ≤ widthSum c base (fontCount c base) := by
      rw [← widthSum_succ]
      exact widthSum_mono hg
    have hbytes := Nat.mul_le_mul_left (columnBytes c base) hwidths
    rw [fontExtent_of_table hfixed]
    simp only [glyphOffset, glyphWidth, hfixed]
    simp only [Bool.false_eq_true, if_false]
    linarith

/-- Byte `i` of column `j` of a glyph that is `w` columns of `b` bytes. -/
theorem column_byte_lt {w b j i : Nat} (hj : j < w) (hi : i < b) : j * b + i < w * b := by
  have := Nat.mul_le_mul_right b hj
  rw [Nat.succ_mul] at this
  omega

/-! ## Widths (R133) -/

theorem supported_iff {code : Nat} :
    supported c base code = true ↔
      fontFirst c base ≤ code ∧ code < fontFirst c base + fontCount c base := by
  simp [supported]

theorem not_supported_iff {code : Nat} :
    supported c base code = false ↔
      code < fontFirst c base ∨ fontFirst c base + fontCount c base ≤ code := by
  rw [← Bool.not_eq_true, supported_iff]
  omega

/-- The width of a code, a space measured as 'n', in the fields of the blob. -/
theorem charWidthOf_eq (code : Nat) :
    charWidthOf c base code =
      let k := if code = spaceCode then sentinelCode else code
      if k < fontFirst c base ∨ fontFirst c base + fontCount c base ≤ k then 0
      else if fontField c base 0 = 0 ∧ fontField c base 1 = 0 then fontFixedWidth c base
      else tableWidth c base (k - fontFirst c base) := by
  simp only [charWidthOf, ← fontFixed_iff, ← not_supported_iff]
  generalize (if code = spaceCode then sentinelCode else code) = k
  cases supported c base k <;> rfl

theorem charWidthOf_of_supported {code : Nat} (hspace : code ≠ spaceCode)
    (h : supported c base code = true) :
    charWidthOf c base code = glyphWidth c base (code - fontFirst c base) := by
  simp [charWidthOf, hspace, h]

end

/-- A character is a space exactly when its code is that of a space. -/
theorem number_eq_spaceCode {code : Byte} : number code = spaceCode ↔ code = 0x20 :=
  BitVec.toNat_inj (y := 0x20#8)

theorem toRes_natCast (n : Nat) : toRes n = BitVec.ofNat 16 n := BitVec.ofInt_natCast 16 n

/-! ## Which commands stop (`60_exceptions.md` R201, R203) -/

/-- A command reads a selected font that does not lie in `FONT`, the one state in which the model stops
(log entry 6). -/
def ReadsUnreadableFont (i : Instr) (s : State) : Prop :=
  ReadsFont i ∧ s.fontValid = true ∧ fontFits s.cfg (address s.fontBase) = false

/-- A font-reading command opens with the check of the selected font. -/
theorem exists_exec_eq_withFont {i : Instr} (reads : ReadsFont i) (s : State) :
    ∃ run, exec i s = withFont s run := by
  cases i with
  | charWidth | drawChar | drawString | marqueeBegin | marqueeStep =>
    simp only [exec, execCharWidth, execDrawChar, execDrawString, execMarqueeBegin, execMarqueeStep]
    exact ⟨_, rfl⟩
  | _ => exact reads.elim

/-- A font-reading command stops exactly where the font is unreadable. -/
theorem exec_cases_of_readsFont {i : Instr} (reads : ReadsFont i) (s : State) :
    (ReadsUnreadableFont i s ∧ exec i s = .fault .fontOutOfSpace) ∨
      (¬ ReadsUnreadableFont i s ∧ ∃ t, exec i s = .next t) := by
  obtain ⟨run, h⟩ := exists_exec_eq_withFont reads s
  rw [h]
  rcases withFont_cases s run with ⟨hnone, hw⟩ | ⟨-, hfits, hw⟩ | ⟨hvalid, hout, hw⟩
  · exact .inr ⟨fun ⟨_, hvalid, _⟩ => by simp [hnone] at hvalid, _, hw⟩
  · exact .inr ⟨fun ⟨_, _, hout⟩ => by simp [hfits] at hout, _, hw⟩
  · exact .inl ⟨⟨reads, hvalid, hout⟩, hw⟩

/-- A command stops with the model's own fault where it reads an unreadable font, and completes
everywhere else. -/
theorem exec_cases (i : Instr) (s : State) :
    (ReadsUnreadableFont i s ∧ exec i s = .fault .fontOutOfSpace) ∨
      (¬ ReadsUnreadableFont i s ∧ ∃ t, exec i s = .next t) := by
  cases i with
  | clear | setPixel | line | circle | box | filledBox | testPattern =>
    exact .inr ⟨fun h => h.1, _, exec_of_paint rfl⟩
  | charWidth | drawChar | drawString | marqueeBegin | marqueeStep =>
    exact exec_cases_of_readsFont (by trivial) s
  | selectFont base =>
    refine .inr ⟨fun h => h.1, ?_⟩
    cases hfits : fontFits s.cfg (address base) with
    | true => exact ⟨_, exec_of_effect (.selectsFont hfits)⟩
    | false => exact ⟨_, exec_of_effect (.fontOutOfBounds hfits)⟩
  | scanStep =>
    refine .inr ⟨fun h => h.1, ?_⟩
    rcases execScanStep_cases s with ⟨-, hs⟩ | ⟨-, -, hs⟩ | ⟨-, -, hs⟩ <;> exact ⟨_, hs⟩

end Sys2Proof.Machine

namespace Sys2Proof.Proofs

open Sys2Proof.Machine

/-- Settles O26: the statement's `fits` is SELECT_FONT's own check, with the fields written out. -/
theorem selectFontChecksTheExtent : Obligations.SelectFontChecksTheExtent := by
  intro base s size b F fixed B sum fits
  have hfixed : fixed ↔ fontFixed s.cfg b = true := fontFixed_iff.symm
  have hfits : fits ↔ fontFits s.cfg b = true := by
    rw [fontFits_iff_extent, ← hfixed]
    rfl
  refine ⟨fun h => exec_of_effect (.selectsFont (hfits.mp h)), fun h => ?_⟩
  exact exec_of_effect (.fontOutOfBounds (Bool.eq_false_of_not_eq_true (mt hfits.mpr h)))

/-- Settles O27: every glyph ends inside the extent that SELECT_FONT checked. -/
theorem selectedFontReadsInBounds : Obligations.SelectedFontReadsInBounds := by
  intro c base h
  obtain ⟨hheader, htable, hextent⟩ := (fontFits_iff c base).mp h
  refine ⟨by omega, fun g hg => ⟨fun hfixed => ?_, fun j i hj hi => ?_⟩⟩
  · have := htable hfixed
    omega
  · have hglyph := glyphOffset_add_size_le hg
    have hbyte := column_byte_lt hj hi
    omega

/-- Settles O28, by the width in the fields of the blob. -/
theorem charWidthMeasuresTheCode : Obligations.CharWidthMeasuresTheCode := by
  intro code s font F k
  have hk : (if number code = spaceCode then sentinelCode else number code) = k :=
    if_congr number_eq_spaceCode rfl rfl
  rw [exec_of_effect (.measures font), toRes_natCast, charWidthOf_eq, hk]
  rfl

/-- Settles O49: every command either completes or stops at an unreadable font. -/
theorem onlyAnUnreadableFontStops : Obligations.OnlyAnUnreadableFontStops := by
  intro i s
  rcases exec_cases i s with ⟨hstops, he⟩ | ⟨hruns, t, he⟩
  · rw [he]
    exact ⟨nofun, fun _ => hstops, fun _ => ⟨_, rfl⟩⟩
  · rw [he]
    exact ⟨nofun, nofun, fun h => absurd h hruns⟩

end Sys2Proof.Proofs

/-! # Drawn characters (`42_font.md` R135 to R138) -/

namespace Sys2Proof.Machine

/-! ## DRAW_CHAR by its four cases (R135) -/

section

variable {c : Config} {base : Nat} {fb : Memory} {x y : Int} {code : Nat} {mode : Mode}

theorem drawCharAt_off (h : (canvasW c : Int) < x ∨ (canvasH c : Int) < y) :
    drawCharAt c base fb x y code mode = (fb, -1) := if_pos h

theorem drawCharAt_space (h : ¬ ((canvasW c : Int) < x ∨ (canvasH c : Int) < y)) :
    drawCharAt c base fb x y spaceCode mode =
      (drawPoints c .inverse fb (filledBoxPoints x y (x + (charWidthOf c base spaceCode : Nat))
        (y + fontHeight c base)), (charWidthOf c base spaceCode : Int)) := by
  rw [drawCharAt, if_neg h, if_pos rfl]

theorem drawCharAt_unsupported (h : ¬ ((canvasW c : Int) < x ∨ (canvasH c : Int) < y))
    (hspace : code ≠ spaceCode) (hcode : supported c base code = false) :
    drawCharAt c base fb x y code mode = (fb, 0) := by
  rw [drawCharAt, if_neg h, if_neg hspace, if_pos hcode]

theorem drawCharAt_glyph (h : ¬ ((canvasW c : Int) < x ∨ (canvasH c : Int) < y))
    (hspace : code ≠ spaceCode) (hcode : supported c base code = true) :
    drawCharAt c base fb x y code mode =
      (plotAll c mode fb (glyphDots c base x y (code - fontFirst c base)),
        (glyphWidth c base (code - fontFirst c base) : Int)) := by
  rw [drawCharAt, if_neg h, if_neg hspace, if_neg (by simp [hcode])]

end

/-- DRAW_CHAR with a font that can be read. -/
theorem exec_drawChar {s : State} (font : FontReady s) (x y : Half) (code : Byte) (mode : Mode) :
    exec (.drawChar x y code mode) s = .next { s with
      fb := (drawCharAt s.cfg s.fontBase.toNat s.fb x.toInt y.toInt code.toNat mode).1
      res := toRes (drawCharAt s.cfg s.fontBase.toNat s.fb x.toInt y.toInt code.toNat mode).2 } :=
  exec_of_effect (.drawsChar font rfl)

/-! ## The place of a row in a glyph column (R136, R137) -/

/-- Row `r` is one of those that the last byte of a column of several bytes, anchored to the bottom,
owns. -/
abbrev AnchoredRow (align : PartialAlign) (b r : Nat) : Prop :=
  align = .bottom ∧ 1 < b ∧ 8 * (b - 1) ≤ r

/-- The byte of a column and the bit of that byte that row `r` is plotted from; `none` where the row is
not plotted. `glyphRow_eq_some_iff` ties it to `glyphRow`, `glyphBitAt_eq` to `glyphBitAt`. -/
def glyphPlace (align : PartialAlign) (h b r : Nat) : Option (Nat × Nat) :=
  if AnchoredRow align b r then if r < h then some (b - 1, h - 1 - r) else none
  else if r < 8 * b ∧ r ≤ h then some (r / 8, 7 - r % 8) else none

section

variable {align : PartialAlign} {h b i k r : Nat}

theorem glyphPlace_of_anchored (ha : AnchoredRow align b r) :
    glyphPlace align h b r = if r < h then some (b - 1, h - 1 - r) else none := if_pos ha

theorem glyphPlace_of_not_anchored (ha : ¬ AnchoredRow align b r) :
    glyphPlace align h b r = if r < 8 * b ∧ r ≤ h then some (r / 8, 7 - r % 8) else none :=
  if_neg ha

theorem of_glyphPlace_eq_some (hb : b = (h + 7) / 8)
    (hplace : glyphPlace align h b r = some (i, k)) : i < b ∧ k < 8 ∧ r ≤ h := by
  unfold glyphPlace at hplace
  split at hplace <;> split at hplace <;> cases hplace <;> omega

/-- The bits whose row is inside the clip, and only those, are the places of rows. -/
theorem glyphRow_eq_some_iff (hb : b = (h + 7) / 8) (hi : i < b) (hk : k < 8) :
    glyphRow align h b i k = some r ∧ r ≤ h ↔ glyphPlace align h b r = some (i, k) := by
  cases align with
  | top =>
    rw [glyphPlace_of_not_anchored (by simp)]
    simp only [glyphRow, Option.ite_none_right_eq_some, Option.some.injEq, Prod.mk.injEq]
    omega
  | bottom =>
    by_cases hrow : AnchoredRow .bottom b r
    · rw [glyphPlace_of_anchored hrow]
      simp only [glyphRow, Option.ite_none_right_eq_some, Option.some.injEq, Prod.mk.injEq]
      obtain ⟨-, hcolumn, hbyte⟩ := hrow
      split <;> omega
    · rw [glyphPlace_of_not_anchored hrow]
      simp only [glyphRow, Option.ite_none_right_eq_some, Option.some.injEq, Prod.mk.injEq]
      simp only [AnchoredRow, true_and] at hrow
      split <;> omega

end

theorem glyphBitAt_eq (c : Config) (base g j r : Nat) :
    glyphBitAt c base g j r =
      (glyphPlace c.partialAlign (fontHeight c base) (columnBytes c base) r).map
        fun place => (columnByte c base g j place.1).getLsbD place.2 := by
  have hb : columnBytes c base = (fontHeight c base + 7) / 8 := rfl
  cases halign : c.partialAlign with
  | top =>
    rw [glyphPlace_of_not_anchored (by simp)]
    simp only [glyphBitAt, halign]
    split <;> rfl
  | bottom =>
    simp only [glyphBitAt, halign]
    by_cases hone : columnBytes c base ≤ 1
    · rw [if_pos hone, glyphPlace_of_not_anchored (by omega)]
      split <;> rfl
    · rw [if_neg hone]
      by_cases hfirst : r < 8 * (columnBytes c base - 1)
      · rw [if_pos hfirst, glyphPlace_of_not_anchored (by omega), if_pos (by omega)]
        rfl
      · rw [if_neg hfirst, glyphPlace_of_anchored ⟨rfl, by omega, by omega⟩]
        split <;> rfl

/-! ## The dots of a glyph (R135) -/

section

variable {c : Config} {base : Nat} {x y : Int} {g : Nat}

theorem glyphBitDot_eq_some_iff {j i k : Nat} {dot : Dot} (hi : i < columnBytes c base)
    (hk : k < 8) :
    glyphBitDot c base x y g j i k = some dot ↔
      ∃ r : Nat,
        glyphPlace c.partialAlign (fontHeight c base) (columnBytes c base) r = some (i, k) ∧
        dot = ⟨x + j, y + r, (columnByte c base g j i).getLsbD k⟩ := by
  have hplace : ∀ r,
      glyphPlace c.partialAlign (fontHeight c base) (columnBytes c base) r = some (i, k) ↔
      glyphRow c.partialAlign (fontHeight c base) (columnBytes c base) i k = some r ∧
        r ≤ fontHeight c base := fun r => (glyphRow_eq_some_iff rfl hi hk).symm
  simp only [hplace, glyphBitDot]
  cases glyphRow c.partialAlign (fontHeight c base) (columnBytes c base) i k with
  | none => simp
  | some r => simp [and_assoc, eq_comm]

/-- A glyph plots each row of each of its columns with the bit the font has for it. -/
theorem mem_glyphDots {dot : Dot} :
    dot ∈ glyphDots c base x y g ↔
      ∃ (j r : Nat) (v : Bool), j < glyphWidth c base g ∧ glyphBitAt c base g j r = some v ∧
        dot = ⟨x + j, y + r, v⟩ := by
  simp only [glyphDots, List.mem_flatMap, List.mem_filterMap, List.mem_reverse, List.mem_range,
    glyphBitAt_eq, Option.map_eq_some_iff, Prod.exists]
  constructor
  · rintro ⟨j, hj, i, hi, k, hk, hdot⟩
    obtain ⟨r, hplace, rfl⟩ := (glyphBitDot_eq_some_iff hi hk).mp hdot
    exact ⟨j, r, _, hj, ⟨i, k, hplace, rfl⟩, rfl⟩
  · rintro ⟨j, r, _, hj, ⟨i, k, hplace, rfl⟩, rfl⟩
    obtain ⟨hi, hk, -⟩ := of_glyphPlace_eq_some rfl hplace
    exact ⟨j, hj, i, hi, k, hk, (glyphBitDot_eq_some_iff hi hk).mpr ⟨r, hplace, rfl⟩⟩

/-- The bit a dot comes from can be told from its point: a row has one place (R136). -/
theorem glyphBitDot_inj {j i k j' i' k' : Nat} {d e : Dot} (hi : i < columnBytes c base)
    (hk : k < 8) (hi' : i' < columnBytes c base) (hk' : k' < 8)
    (hd : glyphBitDot c base x y g j i k = some d)
    (he : glyphBitDot c base x y g j' i' k' = some e) (hpoint : d.x = e.x ∧ d.y = e.y) :
    j = j' ∧ i = i' ∧ k = k' := by
  obtain ⟨r, hr, rfl⟩ := (glyphBitDot_eq_some_iff hi hk).mp hd
  obtain ⟨r', hr', rfl⟩ := (glyphBitDot_eq_some_iff hi' hk').mp he
  obtain ⟨rfl, rfl⟩ : j = j' ∧ r = r' := by simpa using hpoint
  simpa using hr.symm.trans hr'

/-- The dots stand at different points. -/
abbrev DistinctDots (dots : List Dot) : Prop := dots.Pairwise fun d e => ¬ (d.x = e.x ∧ d.y = e.y)

/-- No pixel is plotted twice by a glyph (R136). -/
theorem distinct_glyphDots : DistinctDots (glyphDots c base x y g) := by
  have hdown : ∀ n, (List.range n).reverse.Nodup := fun n => List.nodup_reverse.mpr List.nodup_range
  simp only [DistinctDots, glyphDots, List.pairwise_flatMap, List.pairwise_filterMap,
    List.mem_flatMap, List.mem_filterMap]
  refine ⟨fun j _ => ⟨fun i hi => (hdown 8).imp_of_mem ?bits, (hdown _).imp_of_mem ?bytes⟩,
    List.nodup_range.imp ?columns⟩
  case bits =>
    intro k k' hk hk' hne d hd e he hpoint
    simp only [List.mem_reverse, List.mem_range] at hi hk hk'
    exact hne (glyphBitDot_inj hi hk hi hk' hd he hpoint).2.2
  case bytes =>
    rintro i i' hi hi' hne d ⟨k, hk, hd⟩ e ⟨k', hk', he⟩ hpoint
    simp only [List.mem_reverse, List.mem_range] at hi hi' hk hk'
    exact hne (glyphBitDot_inj hi hk hi' hk' hd he hpoint).2.1
  case columns =>
    rintro j j' hne d ⟨i, hi, k, hk, hd⟩ e ⟨i', hi', k', hk', he⟩ hpoint
    simp only [List.mem_reverse, List.mem_range] at hi hi' hk hk'
    exact hne (glyphBitDot_inj hi hk hi' hk' hd he hpoint).1

end

/-! ## The picture of a glyph (R135) -/

section

variable {c : Config} {mode : Mode} {fb : Memory} (hfb : fbWf c fb) {px py : Nat}
  (hpx : px < canvasW c) (hpy : py < canvasH c)

include hfb hpx hpy

/-- A pixel no dot stands at keeps its value. -/
theorem pixelBit_plotAll_of_not_plotted {dots : List Dot}
    (h : ∀ dot ∈ dots, ¬ (dot.x = px ∧ dot.y = py)) :
    pixelBit c (plotAll c mode fb dots) px py = pixelBit c fb px py := by
  induction dots generalizing fb with
  | nil => rfl
  | cons dot dots ih =>
    rw [plotAll_cons, ih (fbWf_plot hfb) fun d hd => h d (List.mem_cons_of_mem _ hd),
      pixelBit_plot hfb hpx hpy, if_neg (h dot List.mem_cons_self)]

/-- Of dots at different points, the one at a pixel passes it through the truth table once. -/
theorem pixelBit_plotAll_of_plotted {dots : List Dot} (hdots : DistinctDots dots) {v : Bool}
    (h : ⟨px, py, v⟩ ∈ dots) :
    pixelBit c (plotAll c mode fb dots) px py = modeBit mode v (pixelBit c fb px py) := by
  induction dots generalizing fb with
  | nil => cases h
  | cons dot dots ih =>
    obtain ⟨hfirst, hrest⟩ := List.pairwise_cons.mp hdots
    rw [plotAll_cons]
    rcases List.mem_cons.mp h with rfl | hmem
    · rw [pixelBit_plotAll_of_not_plotted (fbWf_plot hfb) hpx hpy fun d hd hpoint =>
        hfirst d hd ⟨hpoint.1.symm, hpoint.2.symm⟩,
        pixelBit_plot hfb hpx hpy, if_pos ⟨rfl, rfl⟩]
    · rw [ih (fbWf_plot hfb) hrest hmem, pixelBit_plot hfb hpx hpy, if_neg (hfirst _ hmem)]

/-- Every canvas pixel after the blit of a glyph. -/
theorem pixelBit_plotAll_glyphDots (base : Nat) (x y : Int) (g : Nat) :
    pixelBit c (plotAll c mode fb (glyphDots c base x y g)) px py =
      if x ≤ px ∧ (px : Int) < x + glyphWidth c base g ∧ y ≤ py then
        match glyphBitAt c base g (px - x).toNat (py - y).toNat with
        | some v => modeBit mode v (pixelBit c fb px py)
        | none => pixelBit c fb px py
      else pixelBit c fb px py := by
  split
  case isTrue hbox =>
    split
    case h_1 v hbit =>
      refine pixelBit_plotAll_of_plotted hfb hpx hpy distinct_glyphDots ?_
      refine mem_glyphDots.mpr ⟨_, _, v, ?_, hbit, ?_⟩
      · omega
      · rw [Int.toNat_of_nonneg (by omega), Int.toNat_of_nonneg (by omega), add_sub_cancel,
          add_sub_cancel]
    case h_2 hbit =>
      refine pixelBit_plotAll_of_not_plotted hfb hpx hpy fun dot hdot hpoint => ?_
      obtain ⟨j, r, v, -, hv, rfl⟩ := mem_glyphDots.mp hdot
      obtain ⟨hcolumn, hrow⟩ : x + j = px ∧ y + r = py := hpoint
      rw [show (px - x).toNat = j by omega, show (py - y).toNat = r by omega, hv] at hbit
      cases hbit
  case isFalse hbox =>
    refine pixelBit_plotAll_of_not_plotted hfb hpx hpy fun dot hdot hpoint => hbox ?_
    obtain ⟨j, r, v, hj, -, rfl⟩ := mem_glyphDots.mp hdot
    obtain ⟨hcolumn, hrow⟩ : x + j = px ∧ y + r = py := hpoint
    omega

end

end Sys2Proof.Machine

namespace Sys2Proof.Proofs

open Sys2Proof.Machine

/-- Settles O30, by the four cases of DRAW_CHAR. -/
theorem drawCharAnswersTheAdvance : Obligations.DrawCharAnswersTheAdvance := by
  intro x y code mode s font hfb base
  refine ⟨_, exec_drawChar font x y code mode, rfl, fbWf_drawCharAt hfb _ _ _ _ _, ?_⟩
  split
  case isTrue hoff =>
    rw [drawCharAt_off hoff]
    exact ⟨rfl, rfl⟩
  case isFalse hon =>
    split
    case isTrue hspace =>
      rw [show code.toNat = spaceCode from number_eq_spaceCode.mpr hspace, drawCharAt_space hon]
      exact ⟨toRes_natCast _, drawsPoints_drawPoints hfb _⟩
    case isFalse hspace =>
      have hcode : code.toNat ≠ spaceCode := mt number_eq_spaceCode.mp hspace
      split
      case isTrue hout =>
        rw [drawCharAt_unsupported hon hcode (not_supported_iff.mpr hout)]
        exact ⟨rfl, rfl⟩
      case isFalse hin =>
        rw [drawCharAt_glyph hon hcode (Bool.of_not_eq_false (mt not_supported_iff.mp hin))]
        exact toRes_natCast _

/-- Settles O31, by the dots of the glyph, which stand at different points. -/
theorem glyphIsBlittedBitByBit : Obligations.GlyphIsBlittedBitByBit := by
  intro x y code mode s t font hfb hx hy hspace hlo hhi h base g px py hpx hpy
  have hdraw : drawCharAt s.cfg base s.fb x.toInt y.toInt code.toNat mode = _ :=
    drawCharAt_glyph (by omega) (mt number_eq_spaceCode.mp hspace) (supported_iff.mpr ⟨hlo, hhi⟩)
  cases (exec_drawChar font x y code mode).symm.trans h
  rw [hdraw]
  exact pixelBit_plotAll_glyphDots hfb hpx hpy base x.toInt y.toInt g

end Sys2Proof.Proofs

/-! # Strings (`42_font.md` R140, R141) -/

namespace Sys2Proof.Machine

/-! ## The columns a string leaves unlit -/

section

variable {c : Config} {base : Nat} {fb : Memory} {x y : Int}

/-- The pixels of the column `x` in the rows of a string at `y` are unlit. -/
def ColumnUnlit (c : Config) (base : Nat) (fb : Memory) (x y : Int) : Prop :=
  ∀ px py : Nat, px < canvasW c → py < canvasH c → (px : Int) = x → y ≤ py →
    (py : Int) ≤ y + fontHeight c base → pixelBit c fb px py = true

/-- A blank column leaves its pixels unlit and every other canvas pixel as it was. -/
theorem pixelBit_blankColumn (hfb : fbWf c fb) {px py : Nat} (hpx : px < canvasW c)
    (hpy : py < canvasH c) :
    pixelBit c (blankColumn c base fb x y) px py =
      if (px : Int) = x ∧ y ≤ py ∧ (py : Int) ≤ y + fontHeight c base then true
      else pixelBit c fb px py := by
  have hcount : timesPlotted (linePoints x y x (y + fontHeight c base)) px py =
      if (px : Int) = x ∧ y ≤ py ∧ (py : Int) ≤ y + fontHeight c base then 1 else 0 := by
    rw [timesPlotted, (linePoints_nodup _ _ _ _).count]
    refine if_congr (mem_linePoints_column.trans ?_) rfl rfl
    omega
  rw [blankColumn, pixelBit_drawPoints hfb _ hpx hpy, hcount]
  split <;> rfl

theorem columnUnlit_blankColumn (hfb : fbWf c fb) :
    ColumnUnlit c base (blankColumn c base fb x y) x y :=
  fun _ _ hpx hpy hcolumn htop hbottom => by
    rw [pixelBit_blankColumn hfb hpx hpy, if_pos ⟨hcolumn, htop, hbottom⟩]

/-- A column that is unlit already is not changed by a blank column. -/
theorem blankColumn_of_columnUnlit (hfb : fbWf c fb) (h : ColumnUnlit c base fb x y) :
    blankColumn c base fb x y = fb := by
  refine fb_ext_of_pixelBit (fbWf_blankColumn hfb base x y) hfb fun px py hpx hpy => ?_
  rw [pixelBit_blankColumn hfb hpx hpy]
  split
  case isTrue hin =>
    obtain ⟨hcolumn, htop, hbottom⟩ := hin
    exact (h px py hpx hpy hcolumn htop hbottom).symm
  case isFalse => rfl

end

/-! ## What a character leaves outside its box -/

/-- A row the glyph has a bit for lies inside the closed clip (R137). -/
theorem le_of_glyphBitAt_eq_some {c : Config} {base g j r : Nat} {v : Bool}
    (h : glyphBitAt c base g j r = some v) : r ≤ fontHeight c base := by
  rw [glyphBitAt_eq] at h
  obtain ⟨⟨i, k⟩, hplace, -⟩ := Option.map_eq_some_iff.mp h
  exact (of_glyphPlace_eq_some rfl hplace).2.2

/-- The canvas pixel `(px, py)` is outside the columns `lo .. hi` or outside the rows of a string at
`y`. -/
abbrev OutsideStrip (c : Config) (base : Nat) (lo hi y : Int) (px py : Nat) : Prop :=
  (px : Int) < lo ∨ hi < px ∨ (py : Int) < y ∨ y + fontHeight c base < py

section

variable {c : Config} {base : Nat} {fb : Memory} {y : Int} (hfb : fbWf c fb) {px py : Nat}
  (hpx : px < canvasW c) (hpy : py < canvasH c)

include hfb hpx hpy

theorem pixelBit_blankColumn_of_outside {x lo hi : Int} (hx : lo ≤ x ∧ x ≤ hi)
    (hout : OutsideStrip c base lo hi y px py) :
    pixelBit c (blankColumn c base fb x y) px py = pixelBit c fb px py := by
  rw [pixelBit_blankColumn hfb hpx hpy, if_neg (by omega)]

/-- The space box leaves every pixel outside it (R138). -/
theorem pixelBit_spaceBox_of_outside {lo hi : Int} (hout : OutsideStrip c base lo hi y px py) :
    pixelBit c (drawPoints c .inverse fb (filledBoxPoints lo y hi (y + fontHeight c base))) px py =
      pixelBit c fb px py := by
  have hnot : timesPlotted (filledBoxPoints lo y hi (y + fontHeight c base)) px py = 0 := by
    rw [timesPlotted, Proofs.filledBoxPlotsEachPixelOnce, if_neg (by omega)]
  rw [pixelBit_drawPoints hfb _ hpx hpy, hnot, Function.iterate_zero, id]

/-- A glyph leaves every pixel outside its columns and its rows, the closed clip included (R137). -/
theorem pixelBit_glyph_of_outside {x : Int} {mode : Mode} {g : Nat}
    (hout : OutsideStrip c base x (x + glyphWidth c base g) y px py) :
    pixelBit c (plotAll c mode fb (glyphDots c base x y g)) px py = pixelBit c fb px py := by
  refine pixelBit_plotAll_of_not_plotted hfb hpx hpy fun dot hdot hpoint => ?_
  obtain ⟨j, r, v, hj, hbit, rfl⟩ := mem_glyphDots.mp hdot
  obtain ⟨hcolumn, hrow⟩ : x + j = px ∧ y + r = py := hpoint
  have hr := le_of_glyphBitAt_eq_some hbit
  omega

/-- `DrawChar` leaves every pixel outside the box of its character's width and the font's height. -/
theorem pixelBit_drawCharAt_of_outside {x : Int} {code : Nat} {mode : Mode}
    (hout : OutsideStrip c base x (x + charWidthOf c base code) y px py) :
    pixelBit c (drawCharAt c base fb x y code mode).1 px py = pixelBit c fb px py := by
  rcases drawCharAt_cases c base fb x y code mode with
    ⟨-, e⟩ | ⟨-, rfl, e⟩ | ⟨-, -, -, e⟩ | ⟨-, hspace, hcode, e⟩
  · rw [e]
  · rw [e]
    exact pixelBit_spaceBox_of_outside hfb hpx hpy hout
  · rw [e]
  · rw [e]
    rw [charWidthOf_of_supported hspace hcode] at hout
    exact pixelBit_glyph_of_outside hfb hpx hpy hout

end

/-! ## A string character by character -/

/-- How far a character moves the pen of a string: by its width and the gap column, or not at all. -/
def charAdvance (c : Config) (base : Nat) (code : Byte) : Nat :=
  if charWidthOf c base (number code) = 0 then 0 else charWidthOf c base (number code) + 1

theorem charAdvance_of_width_zero {c : Config} {base : Nat} {code : Byte}
    (h : charWidthOf c base (number code) = 0) : charAdvance c base code = 0 := if_pos h

theorem charAdvance_of_width_ne_zero {c : Config} {base : Nat} {code : Byte}
    (h : charWidthOf c base (number code) ≠ 0) :
    charAdvance c base code = charWidthOf c base (number code) + 1 := if_neg h

theorem charAdvance_le (c : Config) (base : Nat) (code : Byte) : charAdvance c base code ≤ 256 := by
  have := charWidthOf_le c base (number code)
  unfold charAdvance
  split <;> omega

section

variable {c : Config} {base : Nat} {fb : Memory} {pen y : Int} {mode : Mode}

/-- A string of one character of width 0 is the character. -/
theorem drawChars_singleton_of_width_zero (hpen : pen < canvasW c) (hy : y < canvasH c) {code : Byte}
    (hw : charWidthOf c base (number code) = 0) :
    drawChars c base y mode [code] fb pen = (drawCharAt c base fb pen y (number code) mode).1 := by
  have hwidth := drawCharAt_width_eq base fb (number code) mode hpen.le hy.le
  simp [drawChars, hwidth, hw]

/-- A string of one character with a width is the character and its gap column. -/
theorem drawChars_singleton_of_width_ne_zero (hpen : pen < canvasW c) (hy : y < canvasH c)
    {code : Byte} (hw : charWidthOf c base (number code) ≠ 0) :
    drawChars c base y mode [code] fb pen =
      blankColumn c base (drawCharAt c base fb pen y (number code) mode).1
        (pen + charWidthOf c base (number code)) y := by
  have hwidth := drawCharAt_width_eq base fb (number code) mode hpen.le hy.le
  simp [drawChars, hwidth, Nat.pos_of_ne_zero hw]

/-- The loop of `DrawString`: the first character, and then, if the pen is still on the canvas, the rest
at the pen. -/
theorem drawChars_cons_of_onCanvas (hpen : pen < canvasW c) (hy : y < canvasH c) (code : Byte)
    (rest : List Byte) :
    drawChars c base y mode (code :: rest) fb pen =
      if (canvasW c : Int) ≤ pen + charAdvance c base code then
        drawChars c base y mode [code] fb pen
      else drawChars c base y mode rest (drawChars c base y mode [code] fb pen)
        (pen + charAdvance c base code) := by
  have hwidth := drawCharAt_width_eq base fb (number code) mode hpen.le hy.le
  by_cases hw : charWidthOf c base (number code) = 0
  · rw [drawChars_singleton_of_width_zero hpen hy hw, charAdvance_of_width_zero hw, drawChars]
    simp [hwidth, hw]
  · rw [drawChars_singleton_of_width_ne_zero hpen hy hw, charAdvance_of_width_ne_zero hw, drawChars]
    simp [hwidth, Nat.pos_of_ne_zero hw, add_assoc]

/-- How far a text moves the pen, if it does not run past the edge. -/
def textAdvance (c : Config) (base : Nat) (text : List Byte) : Nat :=
  (text.map (charAdvance c base)).sum

theorem textAdvance_cons (code : Byte) (rest : List Byte) :
    textAdvance c base (code :: rest) = charAdvance c base code + textAdvance c base rest := by
  simp [textAdvance]

section

variable {px py : Nat} (hpx : px < canvasW c) (hpy : py < canvasH c) (hpen : pen < canvasW c)
  (hy : y < canvasH c)

include hpx hpy hpen hy

/-- A character of a string leaves every pixel outside the columns from the pen to the next pen. -/
theorem pixelBit_drawChars_singleton_of_outside (hfb : fbWf c fb) {code : Byte}
    (hout : OutsideStrip c base pen (pen + charAdvance c base code) y px py) :
    pixelBit c (drawChars c base y mode [code] fb pen) px py = pixelBit c fb px py := by
  by_cases hw : charWidthOf c base (number code) = 0
  · rw [charAdvance_of_width_zero hw] at hout
    rw [drawChars_singleton_of_width_zero hpen hy hw]
    exact pixelBit_drawCharAt_of_outside hfb hpx hpy (by rwa [hw])
  · rw [charAdvance_of_width_ne_zero hw] at hout
    rw [drawChars_singleton_of_width_ne_zero hpen hy hw,
      pixelBit_blankColumn_of_outside (fbWf_drawCharAt hfb _ _ _ _ _) hpx hpy (by omega) hout]
    exact pixelBit_drawCharAt_of_outside hfb hpx hpy (by omega)

/-- The characters of a string leave every pixel outside the columns from the pen to the last pen. -/
theorem pixelBit_drawChars_of_outside (hfb : fbWf c fb) {text : List Byte}
    (hout : OutsideStrip c base pen (pen + textAdvance c base text) y px py) :
    pixelBit c (drawChars c base y mode text fb pen) px py = pixelBit c fb px py := by
  induction text generalizing fb pen with
  | nil => rfl
  | cons code rest ih =>
    rw [textAdvance_cons] at hout
    have hfirst : pixelBit c (drawChars c base y mode [code] fb pen) px py = pixelBit c fb px py :=
      pixelBit_drawChars_singleton_of_outside hpx hpy hpen hy hfb (by omega)
    rw [drawChars_cons_of_onCanvas hpen hy]
    split
    case isTrue => exact hfirst
    case isFalse hnext =>
      rw [ih (by omega) (fbWf_drawChars base y mode [code] hfb pen) (by omega), hfirst]

end

/-! ## DRAW_STRING -/

variable {x : Int}

theorem drawStringAt_off (h : (canvasW c : Int) ≤ x ∨ (canvasH c : Int) ≤ y) (text : List Byte) :
    drawStringAt c base fb x y text mode = fb := if_pos h

theorem drawStringAt_on (hx : x < canvasW c) (hy : y < canvasH c) (text : List Byte) :
    drawStringAt c base fb x y text mode =
      drawChars c base y mode text (blankColumn c base fb (x - 1) y) x := if_neg (by omega)

/-- After a string of one character the column before the pen is unlit: it is the gap column, or the
leading column where the pen has not moved. -/
theorem columnUnlit_drawStringAt_singleton (hfb : fbWf c fb) (hx : x < canvasW c)
    (hy : y < canvasH c) (code : Byte) :
    ColumnUnlit c base (drawStringAt c base fb x y [code] mode) (x + charAdvance c base code - 1)
      y := by
  have hlead : ColumnUnlit c base (blankColumn c base fb (x - 1) y) (x - 1) y :=
    columnUnlit_blankColumn hfb
  have hwf := fbWf_blankColumn hfb base (x - 1) y
  rw [drawStringAt_on hx hy]
  by_cases hw : charWidthOf c base (number code) = 0
  · rw [charAdvance_of_width_zero hw, Nat.cast_zero, add_zero]
    intro px py hpx hpy hcolumn htop hbottom
    rw [pixelBit_drawChars_singleton_of_outside hpx hpy hx hy hwf (.inl (by omega))]
    exact hlead px py hpx hpy hcolumn htop hbottom
  · rw [charAdvance_of_width_ne_zero hw, drawChars_singleton_of_width_ne_zero hx hy hw,
      Nat.cast_succ, ← add_assoc, add_sub_cancel_right]
    exact columnUnlit_blankColumn (fbWf_drawCharAt hwf _ _ _ _ _)

/-- A string is its first character and then the rest at the pen: the rest's leading column is unlit
already. -/
theorem drawStringAt_cons (hfb : fbWf c fb) (code : Byte) (rest : List Byte) :
    drawStringAt c base fb x y (code :: rest) mode =
      drawStringAt c base (drawStringAt c base fb x y [code] mode) (x + charAdvance c base code) y rest
        mode := by
  by_cases hoff : (canvasW c : Int) ≤ x ∨ (canvasH c : Int) ≤ y
  · rw [drawStringAt_off hoff, drawStringAt_off hoff, drawStringAt_off (by omega)]
  · obtain ⟨hx, hy⟩ : x < canvasW c ∧ y < canvasH c := by omega
    have hunlit := columnUnlit_drawStringAt_singleton (base := base) (mode := mode) hfb hx hy code
    have hwf := fbWf_drawStringAt hfb base x y [code] mode
    rw [drawStringAt_on hx hy (code :: rest), drawChars_cons_of_onCanvas hx hy,
      ← drawStringAt_on hx hy]
    split
    case isTrue hpast => rw [drawStringAt_off (.inl hpast)]
    case isFalse hnext =>
      rw [drawStringAt_on (Int.not_le.mp hnext) hy, blankColumn_of_columnUnlit hwf hunlit]

end

/-- Drawing leaves the font selection alone. -/
theorem fontReady_with_fb {s : State} (font : FontReady s) (fb : Memory) :
    FontReady { s with fb := fb } := font

/-- DRAW_STRING with a font that can be read. -/
theorem exec_drawString {s : State} (font : FontReady s) (x y : Half) (mode : Mode)
    (text : List Byte) :
    exec (.drawString x y mode text) s = .next { s with
      fb := drawStringAt s.cfg s.fontBase.toNat s.fb x.toInt y.toInt text mode } :=
  exec_of_effect (.drawsString font)

/-- DRAW_CHAR at a place from which `DrawChar` draws. -/
theorem exec_drawChar_onCanvas {s : State} (font : FontReady s) {x y : Half}
    (hx : x.toInt ≤ canvasW s.cfg) (hy : y.toInt ≤ canvasH s.cfg) (code : Byte) (mode : Mode) :
    exec (.drawChar x y code mode) s = .next { s with
      fb := (drawCharAt s.cfg s.fontBase.toNat s.fb x.toInt y.toInt (number code) mode).1
      res := toRes (charWidthOf s.cfg s.fontBase.toNat (number code)) } := by
  rw [exec_drawChar font, ← drawCharAt_width_eq s.fontBase.toNat s.fb (number code) mode hx hy]
  rfl

/-- The columns of a string are lines. -/
theorem exec_line_of_blankColumn {s : State} {base : Nat} {y bottom : Half}
    (hbottom : bottom.toInt = y.toInt + fontHeight s.cfg base) (x : Half) :
    exec (.line x y x bottom .inverse) s = .next { s with
      fb := blankColumn s.cfg base s.fb x.toInt y.toInt } := by
  rw [blankColumn, ← hbottom]
  exact exec_of_paint rfl

/-! ## Operands computed from operands -/

/-- A sum that fits 16 bits is the operand it is computed as. -/
theorem toInt_add_toRes {x : Half} {v : Int} (hlo : -32768 ≤ x.toInt + v)
    (hhi : x.toInt + v ≤ 32767) : (x + toRes v).toInt = x.toInt + v := by
  have hsum : x + toRes v = toRes (x.toInt + v) := by
    rw [toRes, toRes, BitVec.ofInt_add, BitVec.ofInt_toInt]
  rw [hsum, toInt_toRes hlo (by omega)]

theorem toInt_sub_one {x : Half} (h : -32768 < x.toInt) : (x - 1).toInt = x.toInt - 1 := by
  have hneg : x - 1 = x + toRes (-1) := sub_eq_add_neg x 1
  have := x.toInt_lt
  rw [hneg, toInt_add_toRes (by omega) (by omega)]
  rfl

theorem toRes_natCast_eq_zero {n : Nat} (h : n ≤ 255) : toRes n = 0 ↔ n = 0 := by
  constructor
  · intro hzero
    have hvalue : (toRes n).toInt = n := toInt_toRes (by omega) (by omega)
    rw [hzero] at hvalue
    exact Int.natCast_eq_zero.mp hvalue.symm
  · rintro rfl
    rfl

end Sys2Proof.Machine

namespace Sys2Proof.Proofs

open Sys2Proof.Machine

/-- Settles O32: each character keeps to the columns from the pen to the next pen. -/
theorem drawStringStaysInItsStrip : Obligations.DrawStringStaysInItsStrip := by
  intro x y mode text s font hfb h advance
  refine ⟨_, exec_drawString font x y mode text, fbWf_drawStringAt hfb _ _ _ _ _,
    fun hoff => drawStringAt_off hoff text, fun hx hy px py hpx hpy => ?_⟩
  have hlead := fbWf_blankColumn hfb s.fontBase.toNat (x.toInt - 1) y.toInt
  have hadvance : advance = textAdvance s.cfg s.fontBase.toNat text := rfl
  rw [drawStringAt_on hx hy]
  refine ⟨fun hout => ?_, fun hcolumn htop hbottom => ?_⟩
  · have hstrip : OutsideStrip s.cfg s.fontBase.toNat (x.toInt - 1)
        (x.toInt + textAdvance s.cfg s.fontBase.toNat text) y.toInt px py := by omega
    rw [pixelBit_drawChars_of_outside hpx hpy hx hy hlead (by omega),
      pixelBit_blankColumn_of_outside hfb hpx hpy (by omega) hstrip]
  · rw [pixelBit_drawChars_of_outside hpx hpy hx hy hlead (.inl (by omega))]
    exact columnUnlit_blankColumn hfb px py hpx hpy hcolumn htop hbottom

/-- Settles O33: the string's two columns are lines whose operands fit 16 bits. -/
theorem oneCharacterStringIsLineCharLine : Obligations.OneCharacterStringIsLineCharLine := by
  intro x y mode code s font hc base bottom hx hy hleft hright hbottom
  have hw := charWidthOf_le s.cfg s.fontBase.toNat (number code)
  have hrows : bottom.toInt = y.toInt + fontHeight s.cfg base :=
    toInt_toRes (by have := y.le_toInt; omega) (by omega)
  have hline : ∀ (x : Half) (fb : Memory) (res : Half),
      exec (.line x y x bottom .inverse) { s with fb := fb, res := res } = .next { s with
        fb := blankColumn s.cfg base fb x.toInt y.toInt, res := res } :=
    fun x fb res => exec_line_of_blankColumn (s := { s with fb := fb, res := res }) hrows x
  have hchar := exec_drawChar_onCanvas
    (s := { s with fb := blankColumn s.cfg base s.fb (x - 1).toInt y.toInt }) font hx.le hy.le code mode
  refine ⟨_, _, _, _, hline (x - 1) s.fb s.res, hchar, hline _ _ _,
    exec_drawString font x y mode [code], ?_⟩
  dsimp only
  rw [drawStringAt_on hx hy, toInt_sub_one hleft]
  by_cases hzero : charWidthOf s.cfg s.fontBase.toNat (number code) = 0
  · rw [if_pos ((toRes_natCast_eq_zero hw).mpr hzero), drawChars_singleton_of_width_zero hx hy hzero]
  · rw [if_neg (mt (toRes_natCast_eq_zero hw).mp hzero),
      drawChars_singleton_of_width_ne_zero hx hy hzero, toInt_add_toRes (by omega) (by omega)]

/-- Settles O34: the leading column of the rest is the gap column of the first character. -/
theorem stringIsDrawnCharacterByCharacter : Obligations.StringIsDrawnCharacterByCharacter := by
  intro x y mode code rest s font hfb hfits w pen
  have hadvance := charAdvance_le s.cfg s.fontBase.toNat code
  have hpen : pen.toInt = x.toInt + charAdvance s.cfg s.fontBase.toNat code := by
    rw [← toInt_add_toRes (by have := x.le_toInt; omega) (by omega), toRes_natCast]
    rfl
  refine ⟨_, _, exec_drawString font x y mode [code],
    exec_drawString (fontReady_with_fb font _) pen y mode rest, ?_⟩
  rw [exec_drawString font, hpen, drawStringAt_cons hfb]

end Sys2Proof.Proofs

/-! # The shifts on the picture (`43_marquee.md` R166, R168) -/

namespace Sys2Proof.Machine

/-- The place of a pixel's byte in its segment (R168). -/
theorem byteIdx_mod_segBytes {c : Config} {x : Nat} (hx : x < canvasW c) (y : Nat) :
    byteIdx c x y % segBytes c = x / 8 := by
  have hrows : y % 16 * rowBytes c = y % 16 * c.ph * segBytes c := by rw [rowBytes_eq]; ring
  rw [byteIdx_eq, hrows, Nat.add_mul_mod_self_right, Nat.add_mul_mod_self_right,
    Nat.mod_eq_of_lt (place_lt_segBytes hx)]

/-- The pixel right of the last pixel of a byte is in the next byte (R42). -/
theorem byteIdx_succ_of_last {c : Config} {x : Nat} (hx : x % 8 = 7) (y : Nat) :
    byteIdx c (x + 1) y = byteIdx c x y + 1 := by
  rw [byteIdx_eq, byteIdx_eq, show (x + 1) / 8 = x / 8 + 1 by omega]
  omega

/-- The pixel right of any other pixel is in the same byte (R42). -/
theorem byteIdx_succ_of_not_last {c : Config} {x : Nat} (hx : x % 8 ≠ 7) (y : Nat) :
    byteIdx c (x + 1) y = byteIdx c x y := by
  rw [byteIdx_eq, byteIdx_eq, show (x + 1) / 8 = x / 8 by omega]

/-- `ShiftLeft` moves every bit of a byte up by one place and brings in a bit at the bottom (R166). -/
theorem getLsbD_shiftLeftByte (seg : Nat) (old : Nat → Byte) (i : Nat) {j : Nat} (hj : j < 8) :
    (shiftLeftByte seg old i).getLsbD j =
      if j = 0 then (if i % seg = seg - 1 then true else (old (i + 1)).getLsbD 7)
      else (old i).getLsbD (j - 1) := by
  have hcin : ∀ b : Byte, (b >>> 7).getLsbD j = (decide (j = 0) && b.getLsbD 7) := fun b => by
    rw [BitVec.getLsbD_ushiftRight]
    rcases Nat.eq_zero_or_pos j with rfl | hpos
    · simp
    · rw [BitVec.getLsbD_of_ge _ _ (by omega), decide_eq_false (by omega), Bool.false_and]
  have hone : (1 : Byte).getLsbD j = decide (j = 0) := by
    rcases Nat.eq_zero_or_pos j with rfl | hpos
    · rfl
    · simp [BitVec.getLsbD_one]
  rw [shiftLeftByte, BitVec.getLsbD_or, BitVec.getLsbD_shiftLeft, apply_ite (BitVec.getLsbD · j),
    hcin, hone]
  by_cases h0 : j = 0 <;> by_cases hseg : i % seg = seg - 1 <;> simp [h0, hseg, hj]

/-- `ShiftRight` moves every bit of a byte down by one place and brings in a bit at the top (R166). -/
theorem getLsbD_shiftRightByte (seg : Nat) (old : Nat → Byte) (i : Nat) {j : Nat} (hj : j < 8) :
    (shiftRightByte seg old i).getLsbD j =
      if j = 7 then (if i % seg = 0 then true else (old (i - 1)).getLsbD 0)
      else (old i).getLsbD (j + 1) := by
  have hcin : ∀ b : Byte, (b <<< 7).getLsbD j = (decide (j = 7) && b.getLsbD 0) := fun b => by
    rw [BitVec.getLsbD_shiftLeft]
    by_cases h7 : j = 7
    · simp [h7]
    · simp [h7, show j < 7 by omega]
  rw [shiftRightByte, BitVec.getLsbD_or, BitVec.getLsbD_ushiftRight, hcin]
  by_cases h7 : j = 7
  · by_cases hseg : i % seg = 0 <;> simp [h7, hseg]
  · simp [h7, Nat.add_comm]

section

variable {c : Config} {x y : Nat} (fb : Memory) (hx : x < canvasW c) (hy : y < canvasH c)

include hx hy

/-- After `ShiftLeft` a pixel has the bit of the one right of it, and the last column is unlit (R168). -/
theorem pixelBit_shiftLeft :
    pixelBit c (shiftLeft c fb) x y =
      if x + 1 < canvasW c then pixelBit c fb (x + 1) y else true := by
  have hW : canvasW c = 8 * segBytes c := by unfold canvasW segBytes; omega
  unfold pixelBit
  rw [fbRead_shiftLeft, if_pos (byteIdx_lt hx hy), getLsbD_shiftLeftByte _ _ _ (by omega),
    byteIdx_mod_segBytes hx]
  by_cases hlast : x % 8 = 7
  · have hedge : x / 8 = segBytes c - 1 ↔ ¬ x + 1 < canvasW c := by omega
    rw [if_pos (by omega), ite_cond_congr (propext hedge), ite_not, byteIdx_succ_of_last hlast,
      show 7 - (x + 1) % 8 = 7 by omega]
  · rw [if_neg (by omega), if_pos (by omega), byteIdx_succ_of_not_last hlast,
      show 7 - x % 8 - 1 = 7 - (x + 1) % 8 by omega]

/-- After `ShiftRight` a pixel has the bit of the one left of it, and the first column is unlit (R168). -/
theorem pixelBit_shiftRight :
    pixelBit c (shiftRight c fb) x y = if 0 < x then pixelBit c fb (x - 1) y else true := by
  unfold pixelBit
  rw [fbRead_shiftRight, if_pos (byteIdx_lt hx hy), getLsbD_shiftRightByte _ _ _ (by omega),
    byteIdx_mod_segBytes hx]
  rcases x with _ | x
  · simp
  · rw [if_pos x.succ_pos, Nat.add_sub_cancel]
    by_cases hlast : x % 8 = 7
    · rw [if_pos (by omega), if_neg (by omega), byteIdx_succ_of_last hlast, Nat.add_sub_cancel,
        show 7 - x % 8 = 0 by omega]
    · rw [if_neg (by omega), byteIdx_succ_of_not_last hlast,
        show 7 - (x + 1) % 8 + 1 = 7 - x % 8 by omega]

end

end Sys2Proof.Machine

namespace Sys2Proof.Proofs

open Sys2Proof.Machine

/-- Settles O38: a pixel is lit where its bit is 0, and the shifts move the bits. -/
theorem shiftScrollsThePicture : Obligations.ShiftScrollsThePicture := by
  intro c fb x y hx hy
  simp only [lit_eq_not_pixelBit, pixelBit_shiftLeft fb hx hy, pixelBit_shiftRight fb hx hy]
  constructor
  · by_cases hedge : x + 1 < canvasW c <;> simp [hedge]
  · by_cases hedge : 0 < x <;> simp [hedge]

end Sys2Proof.Proofs

/-! # MARQUEE_BEGIN and MARQUEE_STEP (`43_marquee.md` R161 to R165) -/

namespace Sys2Proof.Machine

/-- MARQUEE_BEGIN with a font that can be read. -/
theorem exec_marqueeBegin {s : State} (font : FontReady s) (left top : Half) (text : List Byte) :
    exec (.marqueeBegin left top text) s = .next { s with
      mqText := storeText s.mqText 0 text
      mqLen := BitVec.ofNat 8 text.length
      mqWidth := toReg (marqueeWidth s.cfg s.fontBase.toNat text)
      mqHeight := toReg (fontHeight s.cfg s.fontBase.toNat)
      mqOffX := toReg left.toInt
      mqOffY := toReg top.toInt
      fb := drawStringAt s.cfg s.fontBase.toNat s.fb left.toInt top.toInt text .normal } :=
  exec_of_effect (.beginsMarquee font)

/-- A marquee register holds a coordinate exactly. -/
theorem toInt_toReg_coord (h : Half) : (toReg h.toInt).toInt = h.toInt := by
  have hrange : -32768 ≤ h.toInt ∧ h.toInt ≤ 32767 := coord_range h
  exact signedReg_toReg (by omega) (by omega)

/-- A marquee register holds a natural number that MARQUEE_BEGIN measures exactly. -/
theorem toInt_toReg_natCast {n : Nat} (h : n ≤ 65280) : (toReg n).toInt = n :=
  signedReg_toReg (by omega) (by omega)

/-- No marquee text starts right of what a coordinate can name (`10_state.md` R16). -/
theorem mqOffX_le {s : State} (hinv : StateInv s) : s.mqOffX.toInt ≤ 32767 := by
  obtain ⟨-, -, -, -, ⟨-, -, ⟨-, hright⟩, -⟩, -⟩ := hinv
  exact hright

/-- An axis wraps where its offset has passed a threshold (R164). -/
abbrev PassesThreshold (off extent edge : Int) : Prop := off < -extent ∨ edge < off

theorem wrapOffset_eq (off extent edge : Int) :
    wrapOffset off extent edge =
      (if off < -extent then edge else if edge < off then -extent else off,
        decide (PassesThreshold off extent edge)) := by
  rcases wrapOffset_cases off extent edge with ⟨hlo, e⟩ | ⟨hlo, hhi, e⟩ | ⟨hlo, hhi, e⟩
  · simp [e, hlo]
  · simp [e, hhi, not_lt.mpr hlo]
  · simp [e, not_lt.mpr hlo, not_lt.mpr hhi]

/-- What MARQUEE_STEP leaves, in the integers the registers hold; `marqueeStepped_of_exec` ties it to
`exec`. -/
structure MarqueeStepped (s : State) (dx dy : Half) (t : State) : Prop where
  offX : t.mqOffX.toInt =
    (wrapOffset (s.mqOffX.toInt + dx.toInt) s.mqWidth.toInt (canvasW s.cfg)).1
  offY : t.mqOffY.toInt =
    (wrapOffset (s.mqOffY.toInt + dy.toInt) s.mqHeight.toInt (canvasH s.cfg)).1
  rangeX : -s.mqWidth.toInt ≤ t.mqOffX.toInt ∧ t.mqOffX.toInt ≤ canvasW s.cfg
  rangeY : -s.mqHeight.toInt ≤ t.mqOffY.toInt ∧ t.mqOffY.toInt ≤ canvasH s.cfg
  res : t.res =
    if PassesThreshold (s.mqOffX.toInt + dx.toInt) s.mqWidth.toInt (canvasW s.cfg) ∨
        PassesThreshold (s.mqOffY.toInt + dy.toInt) s.mqHeight.toInt (canvasH s.cfg)
    then 1 else 0
  fb : t.fb = marqueeRedraw s.cfg s.fontBase.toNat
    (if t.res = 1 then fbFill s.cfg 0xFF else s.fb) (marqueeText s) dx.toInt dy.toInt
    t.mqOffX.toInt t.mqOffY.toInt
  frame : t = { s with fb := t.fb, res := t.res, mqOffX := t.mqOffX, mqOffY := t.mqOffY }

section

variable {s t : State} {dx dy : Half}

/-- MARQUEE_STEP completes with a font that can be read: every offset it writes fits its register. -/
theorem exists_marqueeStepped (hinv : StateInv s) (font : FontReady s) (dx dy : Half) :
    ∃ t, exec (.marqueeStep dx dy) s = .next t ∧ MarqueeStepped s dx dy t := by
  obtain ⟨hc, -, -, -, ⟨hw, hh, -⟩, -⟩ := hinv
  have hcanvas := canvas_lt hc
  unfold signedReg at hw hh
  rcases hwx : wrapOffset (s.mqOffX.toInt + dx.toInt) s.mqWidth.toInt (canvasW s.cfg) with
    ⟨offX, wrapX⟩
  rcases hwy : wrapOffset (s.mqOffY.toInt + dy.toInt) s.mqHeight.toInt (canvasH s.cfg) with
    ⟨offY, wrapY⟩
  have hrangeX := wrapOffset_range (by omega) hwx
  have hrangeY := wrapOffset_range (by omega) hwy
  have hregX : (toReg offX).toInt = offX := signedReg_toReg (by omega) (by omega)
  have hregY : (toReg offY).toInt = offY := signedReg_toReg (by omega) (by omega)
  have hwrapX := congrArg Prod.snd ((wrapOffset_eq ..).symm.trans hwx)
  have hwrapY := congrArg Prod.snd ((wrapOffset_eq ..).symm.trans hwy)
  have hres : toRes (if wrapX || wrapY then 1 else 0) = 1 ↔ (wrapX || wrapY) = true := by
    cases wrapX || wrapY <;> decide
  refine ⟨_, exec_of_effect (.stepsMarquee font hwx hwy), ?_⟩
  constructor
  case offX => rw [hwx]; exact hregX
  case offY => rw [hwy]; exact hregY
  case rangeX => dsimp only; rwa [hregX]
  case rangeY => dsimp only; rwa [hregY]
  case res =>
    dsimp only at hwrapX hwrapY ⊢
    rw [← hwrapX, ← hwrapY, ← Bool.decide_or, ite_cond_congr (propext decide_eq_true_iff)]
    exact apply_ite toRes _ _ _
  case fb =>
    dsimp only
    rw [hregX, hregY, ite_cond_congr (propext hres)]
    rfl
  case frame => rfl

theorem marqueeStepped_of_exec (hinv : StateInv s) (font : FontReady s)
    (h : exec (.marqueeStep dx dy) s = .next t) : MarqueeStepped s dx dy t := by
  obtain ⟨t', ht', hstep⟩ := exists_marqueeStepped hinv font dx dy
  cases ht'.symm.trans h
  exact hstep

namespace MarqueeStepped

/-- A step that reports no wrap has advanced the offsets and nothing else of them (R162, R163). -/
theorem offsets_of_res_eq_zero (h : MarqueeStepped s dx dy t) (hres : t.res = 0) :
    t.mqOffX.toInt = s.mqOffX.toInt + dx.toInt ∧ t.mqOffY.toInt = s.mqOffY.toInt + dy.toInt := by
  have hinside := h.res.symm.trans hres
  rw [ite_eq_right_iff] at hinside
  have hnone := mt hinside (by decide)
  rw [h.offX, h.offY, wrapOffset_eq, wrapOffset_eq]
  constructor
  · rw [if_neg (by omega), if_neg (by omega)]
  · rw [if_neg (by omega), if_neg (by omega)]

/-- A new offset of 16 bits is the operand it is written as. -/
theorem toInt_offX (h : MarqueeStepped s dx dy t) (hinv : StateInv s)
    (hlo : -32768 ≤ t.mqOffX.toInt) :
    (BitVec.ofInt 16 t.mqOffX.toInt).toInt = t.mqOffX.toInt := by
  have hcanvas := canvas_lt hinv.1
  have hrange := h.rangeX
  exact toInt_toRes hlo (by omega)

theorem toInt_offY (h : MarqueeStepped s dx dy t) (hinv : StateInv s) :
    (BitVec.ofInt 16 t.mqOffY.toInt).toInt = t.mqOffY.toInt := by
  obtain ⟨hc, -, -, -, ⟨-, hheight, -⟩, -⟩ := hinv
  have hcanvas := canvas_lt hc
  have hrange := h.rangeY
  unfold signedReg at hheight
  exact toInt_toRes (by omega) (by omega)

end MarqueeStepped

/-- Any step vector but one pixel sideways redraws the string (R165, case 3). -/
theorem marqueeRedraw_general (h : ¬ ((dx = -1 ∨ dx = 1) ∧ dy = 0)) (c : Config) (base : Nat)
    (fb : Memory) (text : List Byte) (x y : Int) :
    marqueeRedraw c base fb text dx.toInt dy.toInt x y =
      drawStringAt c base fb x y text .normal := by
  have hminus : dx.toInt = -1 ↔ dx = -1 := BitVec.toInt_inj (y := -1#16)
  have hplus : dx.toInt = 1 ↔ dx = 1 := BitVec.toInt_inj (y := 1#16)
  have hzero : dy.toInt = 0 ↔ dy = 0 := BitVec.toInt_inj (y := 0#16)
  simp only [marqueeRedraw, hminus, hplus, hzero]
  rw [if_neg fun hl => h ⟨.inl hl.1, hl.2⟩, if_neg fun hr => h ⟨.inr hr.1, hr.2⟩]

end

end Sys2Proof.Machine

namespace Sys2Proof.Proofs

open Sys2Proof.Machine

/-- Settles O35: the measures of at most 255 characters fit their registers. -/
theorem marqueeBeginStoresMeasuresAndDraws : Obligations.MarqueeBeginStoresMeasuresAndDraws := by
  intro left top text s font htext hlen
  have hfits : 0 + text.length ≤ textSize := by unfold textSize; omega
  have hwidth := marqueeWidth_le s.cfg s.fontBase.toNat text
  have hheight : fontHeight s.cfg s.fontBase.toNat ≤ 255 := fontField_le _ _ _
  refine ⟨_, _, exec_marqueeBegin font left top text, exec_drawString font left top .normal text,
    rfl, textWf_storeText htext text hfits, fun a => ?text, ?length, ?width, ?height,
    toInt_toReg_coord left, toInt_toReg_coord top, rfl⟩
  case text =>
    dsimp only
    rw [textRead_storeText htext text hfits]
    simp
  case length => exact Nat.mod_eq_of_lt (by omega)
  case width => exact toInt_toReg_natCast (by omega)
  case height => exact toInt_toReg_natCast (by omega)

/-- Settles O36, by the two wraps. -/
theorem marqueeStepAdvancesAndWraps : Obligations.MarqueeStepAdvancesAndWraps := by
  intro dx dy s hinv font W H w h x y
  obtain ⟨t, hexec, hstep⟩ := exists_marqueeStepped hinv font dx dy
  refine ⟨t, hexec, ?_, ?_, hstep.res, ⟨hstep.rangeX.1, hstep.rangeX.2, hstep.rangeY⟩,
    hstep.frame⟩
  · rw [hstep.offX, wrapOffset_eq]
  · rw [hstep.offY, wrapOffset_eq]

/-- Settles O37: the third case of the redraw is the string at the new offsets. -/
theorem generalMarqueeStepRedrawsTheString : Obligations.GeneralMarqueeStepRedrawsTheString := by
  intro dx dy s t hinv font hgeneral hexec hleft
  have hstep := marqueeStepped_of_exec hinv font hexec
  have hcanvas : (if t.res = 1 then { s with fb := fbFill s.cfg 0xFF } else s) =
      { s with fb := if t.res = 1 then fbFill s.cfg 0xFF else s.fb } := by split <;> rfl
  have hdraw := exec_drawString
    (fontReady_with_fb font (if t.res = 1 then fbFill s.cfg 0xFF else s.fb))
    (BitVec.ofInt 16 t.mqOffX.toInt) (BitVec.ofInt 16 t.mqOffY.toInt) .normal (marqueeText s)
  refine ⟨_, _, exec_of_paint rfl, (congrArg _ hcanvas).trans hdraw, ?_⟩
  rw [hstep.fb, marqueeRedraw_general hgeneral, hstep.toInt_offX hinv hleft, hstep.toInt_offY hinv]

end Sys2Proof.Proofs

/-! # The entering glyph (`43_marquee.md` R165 to R167) -/

namespace Sys2Proof.Machine

/-! ## The shift and the edge of a one-pixel step -/

/-- The shift of a step by one pixel, to the left or to the right (R166). -/
def shiftOne (left : Bool) (c : Config) (fb : Memory) : Memory :=
  if left then shiftLeft c fb else shiftRight c fb

/-- The edge of `DrawEntering` after that shift (R167). -/
def enteringEdge (left : Bool) (c : Config) : Int := if left then canvasW c else 0

theorem fbWf_shiftOne (left : Bool) (c : Config) (fb : Memory) : fbWf c (shiftOne left c fb) := by
  cases left
  · exact fbWf_shiftRight c fb
  · exact fbWf_shiftLeft c fb

/-- The picture after the shift of a one-pixel step: a pixel shows the one it came from, and the column
that enters is unlit (R168). -/
theorem pixelBit_shiftOne (left : Bool) {c : Config} {fb : Memory} {px py : Nat}
    (hpx : px < canvasW c) (hpy : py < canvasH c) :
    pixelBit c (shiftOne left c fb) px py =
      if left then (if px + 1 < canvasW c then pixelBit c fb (px + 1) py else true)
      else (if 0 < px then pixelBit c fb (px - 1) py else true) := by
  cases left
  · exact pixelBit_shiftRight fb hpx hpy
  · exact pixelBit_shiftLeft fb hpx hpy

theorem enteringEdge_range (left : Bool) (c : Config) :
    0 ≤ enteringEdge left c ∧ enteringEdge left c ≤ canvasW c := by
  cases left <;> simp [enteringEdge]

/-- How far a one-pixel step moves the text. -/
theorem toInt_onePixel (left : Bool) :
    (if left then -1 else 1 : Half).toInt = if left then -1 else 1 := by cases left <;> rfl

/-- A step by one pixel shifts and draws the entering glyph (R165, cases 1 and 2). -/
theorem marqueeRedraw_onePixel (left : Bool) (c : Config) (base : Nat) (fb : Memory)
    (text : List Byte) (x y : Int) :
    marqueeRedraw c base fb text (if left then -1 else 1 : Half).toInt (0 : Half).toInt x y =
      drawEntering c base (shiftOne left c fb) y (enteringEdge left c) x text := by
  rw [toInt_onePixel]
  cases left <;> rfl

/-! ## Which glyph is drawn -/

section

variable {c : Config} {base : Nat} {fb : Memory} {y edge pen : Int}

theorem drawEntering_cons_of_reaches {code : Byte}
    (h : edge ≤ pen + charWidthOf c base (number code)) (rest : List Byte) :
    drawEntering c base fb y edge pen (code :: rest) =
      (drawCharAt c base fb pen y (number code) .normal).1 := if_pos h

theorem drawEntering_cons_of_passes {code : Byte}
    (h : pen + charWidthOf c base (number code) < edge) (rest : List Byte) :
    drawEntering c base fb y edge pen (code :: rest) =
      drawEntering c base fb y edge (pen + charWidthOf c base (number code) + 1) rest :=
  if_neg (Int.not_le.mpr h)

/-- The pen of `DrawEntering` at character `k`, where `w` is the widths and the text starts at `x`. -/
def marqueePen (w : Nat → Nat) (x : Int) (k : Nat) : Int :=
  x + ((List.range k).map fun j => w j + 1).sum

@[simp] theorem marqueePen_zero (w : Nat → Nat) (x : Int) : marqueePen w x 0 = x := by
  simp [marqueePen]

theorem marqueePen_succ (w : Nat → Nat) (x : Int) (k : Nat) :
    marqueePen w x (k + 1) = marqueePen w x k + w k + 1 := by
  simp only [marqueePen, List.range_succ, List.map_append, List.sum_append, List.map_cons,
    List.map_nil, List.sum_singleton]
  push_cast
  ring

/-- The same, counted from the second character. -/
theorem marqueePen_succ_eq_tail (w : Nat → Nat) (x : Int) (k : Nat) :
    marqueePen w x (k + 1) = marqueePen (fun j => w (j + 1)) (x + w 0 + 1) k := by
  induction k with
  | zero => simp [marqueePen_succ]
  | succ k ih => rw [marqueePen_succ, ih, marqueePen_succ]

/-- The pen of the first character that reaches the edge is near the edge. -/
theorem marqueePen_range {w : Nat → Nat} {x : Int} {k : Nat} (hw : w k ≤ 255)
    (hpass : ∀ j < k, marqueePen w x j + w j < edge) (hreach : edge ≤ marqueePen w x k + w k) :
    edge - 255 ≤ marqueePen w x k ∧ marqueePen w x k ≤ max x edge := by
  refine ⟨by omega, ?_⟩
  cases k with
  | zero => simp
  | succ k =>
    have := hpass k (Nat.lt_succ_self k)
    rw [marqueePen_succ]
    omega

/-- The widths of the characters of a text. -/
def textWidths (c : Config) (base : Nat) (text : Nat → Byte) (k : Nat) : Nat :=
  charWidthOf c base (number (text k))

theorem map_range_succ_eq_cons (text : Nat → Byte) (n : Nat) :
    (List.range (n + 1)).map text = text 0 :: (List.range n).map fun k => text (k + 1) := by
  rw [List.range_succ_eq_map, List.map_cons, List.map_map]
  rfl

/-- `DrawEntering` draws the first character that reaches the edge (R167). -/
theorem drawEntering_of_reaches {text : Nat → Byte} {n k : Nat} (hk : k < n)
    (hpass : ∀ j < k,
      marqueePen (textWidths c base text) pen j + textWidths c base text j < edge)
    (hreach : edge ≤ marqueePen (textWidths c base text) pen k + textWidths c base text k) :
    drawEntering c base fb y edge pen ((List.range n).map text) =
      (drawCharAt c base fb (marqueePen (textWidths c base text) pen k) y (number (text k))
        .normal).1 := by
  induction k generalizing text n pen with
  | zero =>
    obtain ⟨n, rfl⟩ := Nat.exists_eq_add_one.mpr hk
    rw [marqueePen_zero] at hreach ⊢
    rw [map_range_succ_eq_cons, drawEntering_cons_of_reaches hreach]
  | succ k ih =>
    obtain ⟨n, rfl⟩ := Nat.exists_eq_add_one.mpr (Nat.zero_lt_of_lt hk)
    have hfirst := hpass 0 k.succ_pos
    rw [marqueePen_zero] at hfirst
    rw [marqueePen_succ_eq_tail] at hreach ⊢
    rw [map_range_succ_eq_cons, drawEntering_cons_of_passes hfirst]
    refine ih (text := fun j => text (j + 1)) (Nat.lt_of_succ_lt_succ hk) (fun j hj => ?_) hreach
    have := hpass (j + 1) (Nat.succ_lt_succ hj)
    rwa [marqueePen_succ_eq_tail] at this

/-- Where no character reaches the edge `DrawEntering` draws nothing (R167). -/
theorem drawEntering_of_passes {text : Nat → Byte} {n : Nat}
    (hpass : ∀ j < n,
      marqueePen (textWidths c base text) pen j + textWidths c base text j < edge) :
    drawEntering c base fb y edge pen ((List.range n).map text) = fb := by
  induction n generalizing text pen with
  | zero => rfl
  | succ n ih =>
    have hfirst := hpass 0 n.succ_pos
    rw [marqueePen_zero] at hfirst
    rw [map_range_succ_eq_cons, drawEntering_cons_of_passes hfirst]
    refine ih (text := fun j => text (j + 1)) fun j hj => ?_
    have := hpass (j + 1) (Nat.succ_lt_succ hj)
    rwa [marqueePen_succ_eq_tail] at this

end

/-! ## What the entering glyph leaves -/

section

variable {c : Config} {base : Nat} {fb : Memory} (hfb : fbWf c fb) {px py : Nat}
  (hpx : px < canvasW c) (hpy : py < canvasH c)

include hfb hpx hpy

/-- The entering glyph leaves every pixel left of the text and every pixel outside the text's rows. -/
theorem pixelBit_drawEntering_of_outside {y edge pen : Int} {text : List Byte}
    (hout : (px : Int) < pen ∨ (py : Int) < y ∨ y + fontHeight c base < py) :
    pixelBit c (drawEntering c base fb y edge pen text) px py = pixelBit c fb px py := by
  induction text generalizing pen with
  | nil => rfl
  | cons code rest ih =>
    rcases le_or_gt edge (pen + charWidthOf c base (number code)) with hreach | hpass
    · rw [drawEntering_cons_of_reaches hreach]
      exact pixelBit_drawCharAt_of_outside hfb hpx hpy (by omega)
    · rw [drawEntering_cons_of_passes hpass]
      exact ih (by omega)

end

/-- A one-pixel step, on the canvas the step shifts: blanked first if the step wrapped. -/
theorem MarqueeStepped.fb_onePixel {left : Bool} {s t : State}
    (h : MarqueeStepped s (if left then -1 else 1) 0 t) :
    t.fb = drawEntering s.cfg s.fontBase.toNat
      (shiftOne left s.cfg (if t.res = 1 then fbFill s.cfg 0xFF else s.fb)) t.mqOffY.toInt
      (enteringEdge left s.cfg) t.mqOffX.toInt (marqueeText s) := by
  rw [h.fb, marqueeRedraw_onePixel]

/-- A one-pixel step that does not wrap shifts the canvas as it was. -/
theorem MarqueeStepped.fb_onePixel_of_res_eq_zero {left : Bool} {s t : State}
    (h : MarqueeStepped s (if left then -1 else 1) 0 t) (hres : t.res = 0) :
    t.fb = drawEntering s.cfg s.fontBase.toNat (shiftOne left s.cfg s.fb) t.mqOffY.toInt
      (enteringEdge left s.cfg) t.mqOffX.toInt (marqueeText s) := by
  rw [h.fb_onePixel, if_neg (by rw [hres]; decide)]

end Sys2Proof.Machine

namespace Sys2Proof.Proofs

open Sys2Proof.Machine

/-- Settles O40: the pen of the drawn glyph is at most 255 pixels left of the edge and on no side beyond the
canvas, so it fits 16 bits. -/
theorem enteringGlyphIsDrawnWhole : Obligations.EnteringGlyphIsDrawnWhole := by
  intro left s t hinv font hexec w pen edge canvas shifted
  have hstep := marqueeStepped_of_exec hinv font hexec
  have hcanvas := canvas_lt hinv.1
  have hedge : 0 ≤ edge ∧ edge ≤ canvasW s.cfg := enteringEdge_range left s.cfg
  have hX := hstep.rangeX
  refine ⟨fun k hk hpass hreach => ⟨_, exec_drawChar (fontReady_with_fb font shifted) _ _ _ _, ?_⟩,
    fun hpass => hstep.fb_onePixel.trans (drawEntering_of_passes hpass)⟩
  have hw : w k ≤ 255 := charWidthOf_le _ _ _
  have hrange : edge - 255 ≤ pen k ∧ pen k ≤ max t.mqOffX.toInt edge :=
    marqueePen_range hw hpass hreach
  have hpen : (BitVec.ofInt 16 (pen k)).toInt = pen k :=
    toInt_toRes (by omega) (by omega)
  dsimp only
  rw [hpen, hstep.toInt_offY hinv]
  exact hstep.fb_onePixel.trans (drawEntering_of_reaches hk hpass hreach)

/-- Settles O39: the shift moves every pixel, and the entering glyph keeps to the rows of the text. -/
theorem onePixelStepMovesThePicture : Obligations.OnePixelStepMovesThePicture := by
  intro left s t hinv font hexec hres px py hpx hpy hout
  have hstep := marqueeStepped_of_exec hinv font hexec
  have hshifted : pixelBit s.cfg t.fb px py = pixelBit s.cfg (shiftOne left s.cfg s.fb) px py := by
    rw [hstep.fb_onePixel_of_res_eq_zero hres]
    rcases hout with hempty | hrows
    · have htext : marqueeText s = [] := by simp [marqueeText, hempty, number]
      rw [htext, drawEntering]
    · exact pixelBit_drawEntering_of_outside (fbWf_shiftOne left s.cfg s.fb) hpx hpy (.inr hrows)
  simp only [lit_eq_not_pixelBit, hshifted, pixelBit_shiftOne left hpx hpy]
  cases left
  · by_cases hedge : 0 < px <;> simp [hedge]
  · by_cases hedge : px + 1 < canvasW s.cfg <;> simp [hedge]

end Sys2Proof.Proofs

/-! # The picture of a text (`42_font.md` R135 to R141) -/

namespace Sys2Proof.Machine

/-- The bit that a character drawn in NORMAL mode on a blank canvas leaves in its column `dx` and its row
`dy`, both counted from its top left pixel: 0 where the font has a glyph with a set bit there, 1 everywhere
else. `pixelBit_drawCharAt_normal` ties it to `drawCharAt`. -/
def charBit (c : Config) (base : Nat) (code : Byte) (dx dy : Int) : Bool :=
  decide ¬ ((number code ≠ spaceCode ∧ supported c base (number code) = true) ∧
    (0 ≤ dx ∧ dx < charWidthOf c base (number code) ∧ 0 ≤ dy) ∧
    glyphBitAt c base (number code - fontFirst c base) dx.toNat dy.toNat = some true)

/-- The bit that a text drawn in NORMAL mode on a blank canvas leaves at a place counted from its first
pixel: that of the character whose columns, with its gap column, hold the place.
`pixelBit_drawStringAt_normal` ties it to `drawStringAt`. -/
def textBit (c : Config) (base : Nat) : List Byte → Int → Int → Bool
  | [], _, _ => true
  | code :: rest, dx, dy =>
    if dx ≤ charWidthOf c base (number code) then charBit c base code dx dy
    else textBit c base rest (dx - (charWidthOf c base (number code) + 1)) dy

section

variable {c : Config} {base : Nat} {code : Byte} {dx dy : Int}

theorem charBit_of_not_glyph
    (h : ¬ (number code ≠ spaceCode ∧ supported c base (number code) = true)) :
    charBit c base code dx dy = true := decide_eq_true fun hink => h hink.1

/-- A character leaves nothing but unlit pixels outside its columns and above its first row. -/
theorem charBit_of_outside (h : dx < 0 ∨ (charWidthOf c base (number code) : Int) ≤ dx ∨ dy < 0) :
    charBit c base code dx dy = true := decide_eq_true fun ⟨_, hink, _⟩ => by omega

theorem charBit_of_glyph (hcode : number code ≠ spaceCode ∧ supported c base (number code) = true)
    (hin : 0 ≤ dx ∧ dx < charWidthOf c base (number code) ∧ 0 ≤ dy) :
    charBit c base code dx dy =
      decide (glyphBitAt c base (number code - fontFirst c base) dx.toNat dy.toNat ≠ some true) := by
  simp only [charBit, hcode, hin, true_and, and_self, ne_eq, not_false_eq_true]

theorem textBit_cons_of_le (h : dx ≤ charWidthOf c base (number code)) (rest : List Byte) :
    textBit c base (code :: rest) dx dy = charBit c base code dx dy := if_pos h

theorem textBit_cons_of_gt (h : (charWidthOf c base (number code) : Int) < dx)
    (rest : List Byte) :
    textBit c base (code :: rest) dx dy =
      textBit c base rest (dx - (charWidthOf c base (number code) + 1)) dy :=
  if_neg (Int.not_le.mpr h)

/-- A text leaves nothing but unlit pixels left of its first column and above its first row. -/
theorem textBit_of_neg {text : List Byte} (h : dx < 0 ∨ dy < 0) :
    textBit c base text dx dy = true := by
  induction text generalizing dx with
  | nil => rfl
  | cons code rest ih =>
    rcases le_or_gt dx (charWidthOf c base (number code)) with hle | hgt
    · rw [textBit_cons_of_le hle, charBit_of_outside (by omega)]
    · rw [textBit_cons_of_gt hgt, ih (by omega)]

end

/-! ## Drawing on a pixel that is blank or holds the picture already -/

section

variable {c : Config} {base : Nat} {fb : Memory} (hfb : fbWf c fb) {px py : Nat}
  (hpx : px < canvasW c) (hpy : py < canvasH c) {y : Int}

include hfb hpx hpy

/-- A space leaves an unlit pixel unlit. -/
theorem pixelBit_spaceBox_of_unlit {lo hi : Int} (h : pixelBit c fb px py = true) :
    pixelBit c (drawPoints c .inverse fb (filledBoxPoints lo y hi (y + fontHeight c base))) px py =
      true := by
  rw [pixelBit_drawPoints hfb _ hpx hpy, h]
  exact Function.iterate_fixed rfl _

/-- A character drawn in NORMAL mode over a pixel that is unlit or has the character's bit leaves the
character's bit, wherever the character is. -/
theorem pixelBit_drawCharAt_normal {pen : Int} {code : Byte}
    (hold : pixelBit c fb px py = true ∨
      pixelBit c fb px py = charBit c base code (px - pen) (py - y)) :
    pixelBit c (drawCharAt c base fb pen y (number code) .normal).1 px py =
      charBit c base code (px - pen) (py - y) := by
  have hkeep : charBit c base code (px - pen) (py - y) = true →
      pixelBit c fb px py = charBit c base code (px - pen) (py - y) :=
    fun hblank => hold.elim (fun h => h.trans hblank.symm) id
  rcases drawCharAt_cases c base fb pen y (number code) .normal with
    ⟨hoff, e⟩ | ⟨-, hspace, e⟩ | ⟨-, -, hcode, e⟩ | ⟨-, hspace, hcode, e⟩
  · rw [e]
    exact hkeep (charBit_of_outside (by omega))
  · have hblank : charBit c base code (px - pen) (py - y) = true :=
      charBit_of_not_glyph fun h => h.1 hspace
    rw [e, hblank]
    exact pixelBit_spaceBox_of_unlit hfb hpx hpy ((hkeep hblank).trans hblank)
  · rw [e]
    exact hkeep (charBit_of_not_glyph fun h => by simp [hcode] at h)
  · have hwidth := charWidthOf_of_supported hspace hcode
    rw [e]
    dsimp only
    rw [pixelBit_plotAll_glyphDots hfb hpx hpy]
    split
    case isTrue hbox =>
      have hglyph := charBit_of_glyph (dx := px - pen) (dy := py - y) ⟨hspace, hcode⟩ (by omega)
      split
      case h_1 v hbit => rw [hglyph, hbit]; cases v <;> rfl
      case h_2 hbit => exact hkeep (by rw [hglyph, hbit]; rfl)
    case isFalse hbox => exact hkeep (charBit_of_outside (by omega))

/-- A blank column leaves an unlit pixel unlit. -/
theorem pixelBit_blankColumn_of_unlit {x : Int} (h : pixelBit c fb px py = true) :
    pixelBit c (blankColumn c base fb x y) px py = true := by
  rw [pixelBit_blankColumn hfb hpx hpy, h, ite_self]

/-- One character of a string, with its gap column, over an unlit pixel. -/
theorem pixelBit_drawChars_singleton_normal {pen : Int} {code : Byte} (hpen : pen < canvasW c)
    (hy : y < canvasH c) (hw : charWidthOf c base (number code) ≠ 0)
    (hblank : pixelBit c fb px py = true) :
    pixelBit c (drawChars c base y .normal [code] fb pen) px py =
      charBit c base code (px - pen) (py - y) := by
  rw [drawChars_singleton_of_width_ne_zero hpen hy hw,
    pixelBit_blankColumn (fbWf_drawCharAt hfb _ _ _ _ _) hpx hpy,
    pixelBit_drawCharAt_normal hfb hpx hpy (.inl hblank)]
  split
  case isTrue hgap => exact (charBit_of_outside (by omega)).symm
  case isFalse => rfl

/-- The characters of a string over an unlit pixel. -/
theorem pixelBit_drawChars_normal {text : List Byte} {pen : Int} (hpen : pen < canvasW c)
    (hy : y < canvasH c) (hw : ∀ code ∈ text, charWidthOf c base (number code) ≠ 0)
    (hblank : pixelBit c fb px py = true) :
    pixelBit c (drawChars c base y .normal text fb pen) px py =
      textBit c base text (px - pen) (py - y) := by
  induction text generalizing fb pen with
  | nil => exact hblank
  | cons code rest ih =>
    have hcode := hw code List.mem_cons_self
    have hadvance := charAdvance_of_width_ne_zero hcode
    have hfirst := pixelBit_drawChars_singleton_normal hfb hpx hpy hpen hy hcode hblank
    have hwf := fbWf_drawChars base y .normal [code] hfb pen
    rw [drawChars_cons_of_onCanvas hpen hy, hadvance]
    rcases le_or_gt (px - pen) (charWidthOf c base (number code) : Int) with hle | hgt
    · rw [textBit_cons_of_le hle, ← hfirst]
      split
      case isTrue => rfl
      case isFalse hnext =>
        exact pixelBit_drawChars_of_outside hpx hpy (by omega) hy hwf (.inl (by omega))
    · rw [if_neg (by omega), textBit_cons_of_gt hgt,
        ih hwf (by omega) (fun b hb => hw b (List.mem_cons_of_mem _ hb))
          (hfirst.trans (charBit_of_outside (by omega)))]
      congr 1
      push_cast
      ring

/-- A string drawn in NORMAL mode over an unlit pixel leaves the text's bit, wherever the string is. -/
theorem pixelBit_drawStringAt_normal {text : List Byte} {x : Int}
    (hw : ∀ code ∈ text, charWidthOf c base (number code) ≠ 0)
    (hblank : pixelBit c fb px py = true) :
    pixelBit c (drawStringAt c base fb x y text .normal) px py =
      textBit c base text (px - x) (py - y) := by
  by_cases hoff : (canvasW c : Int) ≤ x ∨ (canvasH c : Int) ≤ y
  · rw [drawStringAt_off hoff, hblank, textBit_of_neg (by omega)]
  · rw [drawStringAt_on (by omega) (by omega)]
    exact pixelBit_drawChars_normal (fbWf_blankColumn hfb base _ y) hpx hpy (by omega) (by omega) hw
      (pixelBit_blankColumn_of_unlit hfb hpx hpy hblank)

/-- The entering glyph completes the picture of the text at a pixel that is unlit or has the text's bit
already, if it has the bit or stands beside the edge. -/
theorem pixelBit_drawEntering_normal {edge pen : Int} {text : List Byte}
    (hpixel : pixelBit c fb px py = textBit c base text (px - pen) (py - y) ∨
      pixelBit c fb px py = true ∧ edge - 1 ≤ px ∧ px ≤ edge) :
    pixelBit c (drawEntering c base fb y edge pen text) px py =
      textBit c base text (px - pen) (py - y) := by
  induction text generalizing pen with
  | nil => exact hpixel.elim id And.left
  | cons code rest ih =>
    rcases le_or_gt (px - pen) (charWidthOf c base (number code) : Int) with hle | hgt
    · rw [textBit_cons_of_le hle] at hpixel ⊢
      rcases le_or_gt edge (pen + charWidthOf c base (number code)) with hreach | hpass
      · rw [drawEntering_cons_of_reaches hreach]
        exact pixelBit_drawCharAt_normal hfb hpx hpy (hpixel.symm.imp And.left id)
      · rw [drawEntering_cons_of_passes hpass,
          pixelBit_drawEntering_of_outside hfb hpx hpy (.inl (by omega))]
        rcases hpixel with hdrawn | ⟨hblank, hedge⟩
        · exact hdrawn
        · rw [hblank, charBit_of_outside (by omega)]
    · have hplace : (px - pen - (charWidthOf c base (number code) + 1) : Int) =
          px - (pen + charWidthOf c base (number code) + 1) := by ring
      rw [textBit_cons_of_gt hgt, hplace] at hpixel ⊢
      rcases le_or_gt edge (pen + charWidthOf c base (number code)) with hreach | hpass
      · rw [drawEntering_cons_of_reaches hreach,
          pixelBit_drawCharAt_of_outside hfb hpx hpy (by omega)]
        exact hpixel.resolve_right (by omega)
      · rw [drawEntering_cons_of_passes hpass]
        exact ih hpixel

end

/-! ## The fast path (`43_marquee.md` R169) -/

/-- The canvas shows a text at `(x, y)` and nothing else. -/
def ShowsText (c : Config) (base : Nat) (text : List Byte) (x y : Int) (fb : Memory) : Prop :=
  ∀ px py : Nat, px < canvasW c → py < canvasH c →
    pixelBit c fb px py = textBit c base text (px - x) (py - y)

/-- A canvas that shows a text and nothing else is determined. -/
theorem fb_ext_of_showsText {c : Config} {base : Nat} {text : List Byte} {x y : Int}
    {fb fb' : Memory} (hfb : fbWf c fb) (hfb' : fbWf c fb') (h : ShowsText c base text x y fb)
    (h' : ShowsText c base text x y fb') : fb = fb' :=
  fb_ext_of_pixelBit hfb hfb' fun px py hpx hpy =>
    (h px py hpx hpy).trans (h' px py hpx hpy).symm

/-- Every pixel of the blank canvas is unlit. -/
theorem pixelBit_fbFill_blank {c : Config} {px py : Nat} (hpx : px < canvasW c)
    (hpy : py < canvasH c) : pixelBit c (fbFill c 0xFF) px py = true := by
  have hbits : ∀ j < 8, (0xFF#8).getLsbD j = true := by decide
  rw [pixelBit, fbRead_fbFill, if_pos (byteIdx_lt hpx hpy)]
  exact hbits _ (by omega)

/-- CLEAR and then DRAW_STRING in NORMAL mode show the string and nothing else. -/
theorem showsText_of_exec {s blank u : State} {x y : Half} {text : List Byte} (font : FontReady s)
    (hw : ∀ code ∈ text, charWidthOf s.cfg s.fontBase.toNat (number code) ≠ 0)
    (hclear : exec (.clear true) s = .next blank)
    (hdraw : exec (.drawString x y .normal text) blank = .next u) :
    fbWf s.cfg u.fb ∧ ShowsText s.cfg s.fontBase.toNat text x.toInt y.toInt u.fb := by
  have hblank := fbWf_fbFill s.cfg 0xFF
  cases hclear
  have hfont := fontReady_with_fb font (fbFill s.cfg 0xFF)
  cases (exec_drawString hfont x y .normal text).symm.trans hdraw
  exact ⟨fbWf_drawStringAt hblank _ _ _ _ _, fun px py hpx hpy =>
    pixelBit_drawStringAt_normal hblank hpx hpy hw (pixelBit_fbFill_blank hpx hpy)⟩

/-- The shift and the entering glyph move the text by one column: the shift moves every column but the one
that enters, and the entering glyph completes that one. -/
theorem showsText_drawEntering {c : Config} {base : Nat} {text : List Byte} {x y : Int}
    {fb : Memory} (left : Bool) (h : ShowsText c base text x y fb) :
    ShowsText c base text (x + if left then -1 else 1) y
      (drawEntering c base (shiftOne left c fb) y (enteringEdge left c)
        (x + if left then -1 else 1) text) := by
  intro px py hpx hpy
  refine pixelBit_drawEntering_normal (fbWf_shiftOne left c fb) hpx hpy ?_
  rw [pixelBit_shiftOne left hpx hpy]
  cases left
  case false =>
    by_cases hedge : 0 < px
    · left
      have hfrom := h (px - 1) py (by omega) hpy
      rw [show ((px - 1 : Nat) : Int) - x = px - (x + 1) by omega] at hfrom
      simpa [hedge] using hfrom
    · right
      simp [enteringEdge]
      omega
  case true =>
    by_cases hedge : px + 1 < canvasW c
    · left
      have hfrom := h (px + 1) py hedge hpy
      rw [show ((px + 1 : Nat) : Int) - x = px - (x + -1) by omega] at hfrom
      simpa [hedge] using hfrom
    · right
      simp [hedge, enteringEdge]
      omega

end Sys2Proof.Machine

namespace Sys2Proof.Proofs

open Sys2Proof.Machine

/-- Settles O41: both canvases show the text at the new offsets, and the pixels determine the
framebuffer. -/
theorem fastPathAgreesWithRedraw : Obligations.FastPathAgreesWithRedraw := by
  intro left s t blank u v hinv font text hwidths hleft hclear hu hcanvas hexec hres hv
  have hstep := marqueeStepped_of_exec hinv font hexec
  have hw : ∀ code ∈ text, charWidthOf s.cfg s.fontBase.toNat (number code) ≠ 0 :=
    fun code hcode => Nat.ne_of_gt (hwidths code hcode)
  obtain ⟨hoffX, hoffY⟩ := hstep.offsets_of_res_eq_zero hres
  rw [toInt_onePixel] at hoffX
  rw [show (0 : Half).toInt = 0 from rfl, add_zero] at hoffY
  obtain ⟨-, hbefore⟩ := showsText_of_exec font hw hclear hu
  obtain ⟨hwf, hredraw⟩ := showsText_of_exec font hw hclear hv
  have hright := mqOffX_le hinv
  have hnewX : -32768 ≤ t.mqOffX.toInt := by rw [hoffX]; split <;> omega
  have hnewY := hstep.toInt_offY hinv
  have holdX : (BitVec.ofInt 16 s.mqOffX.toInt).toInt = s.mqOffX.toInt :=
    toInt_toRes (by omega) (by omega)
  rw [holdX, ← hoffY, hnewY, ← hcanvas] at hbefore
  rw [hstep.toInt_offX hinv hnewX, hnewY] at hredraw
  have hfast := showsText_drawEntering left hbefore
  rw [← hoffX] at hfast
  rw [hstep.fb_onePixel_of_res_eq_zero hres]
  exact fb_ext_of_showsText (fbWf_drawEntering (fbWf_shiftOne left _ _) _ _ _ _ _) hwf hfast hredraw

end Sys2Proof.Proofs

/-! # Scan-out (`44_scan.md` R182 to R187) -/

namespace Sys2Proof.Machine

/-! ## One SCAN_STEP (R182, R183) -/

/-- The transfer units of a row group, with the offsets of the three further sub-rows as numbers of tiles
(R184). -/
theorem transferUnits_eq (c : Config) (fb : Memory) (p : Nat) :
    transferUnits c fb p = (List.range (4 * tiles c)).map fun i =>
      .xfer (fbRead fb (4 * tiles c * p + i + 48 * tiles c))
        (fbRead fb (4 * tiles c * p + i + 32 * tiles c))
        (fbRead fb (4 * tiles c * p + i + 16 * tiles c))
        (fbRead fb (4 * tiles c * p + i)) := by
  have row1 : subRow c 1 = 16 * tiles c := by unfold subRow; omega
  have row2 : subRow c 2 = 32 * tiles c := by unfold subRow; omega
  have row3 : subRow c 3 = 48 * tiles c := by unfold subRow; omega
  simp only [transferUnits, transferUnit, row1, row2, row3, rowBytes]

theorem length_scanEvents (s : State) : (scanEvents s).length = 4 * tiles s.cfg + 5 := by
  simp [scanEvents, transferUnits, rowBytes]

section

variable {s : State} {level : Bool} {more : List Bool}

theorem serReadyNow_of_cons (h : s.serReady = level :: more) : serReadyNow s = level := by
  simp [serReadyNow, h]

theorem serReadyNow_of_nil (h : s.serReady = []) :
    serReadyNow s = Config.serReadyBeyond s.serSamples := by
  simp [serReadyNow, h]

/-- A sample of a level the run does not give takes nothing from the run's list. -/
theorem afterSample_of_nil (h : s.serReady = []) :
    afterSample s = { s with serSamples := s.serSamples + 1 } := by
  simp [afterSample, h]

end

/-! ## SCAN_STEPs in a row (R187) -/

/-- The next `n` samples of `ser_ready` are 1, where SCAN_STEP takes one (R182). -/
def ReadyFor (n : Nat) (s : State) : Prop :=
  s.cfg.scanGated = true → ∀ k, k < n →
    s.serReady.getD k (Config.serReadyBeyond (s.serSamples + k)) = true

/-- SCAN_STEP runs in `s` and leaves `t`: what the SCAN_STEPs after it depend on. -/
structure ScanStepRuns (s t : State) : Prop where
  exec_eq : exec .scanStep s = .next t
  scanPhase_eq : t.scanPhase = s.scanPhase + 1
  rowSel_eq : t.rowSel = s.scanPhase
  cfg_eq : t.cfg = s.cfg
  fb_eq : t.fb = s.fb
  out_eq : t.out = s.out ++ scanEvents s

theorem ReadyFor.serReadyNow_eq {n : Nat} {s : State} (h : ReadyFor (n + 1) s)
    (gate : s.cfg.scanGated = true) : serReadyNow s = true := by
  simpa [serReadyNow, List.headD_eq_head?_getD, List.head?_eq_getElem?] using
    h gate 0 n.succ_pos

/-- The first of `n + 1` SCAN_STEPs that find the link ready runs, and leaves it ready for the others. -/
theorem ReadyFor.exists_scanStepRuns {n : Nat} {s : State} (h : ReadyFor (n + 1) s) :
    ∃ t, ScanStepRuns s t ∧ ReadyFor n t := by
  cases gate : s.cfg.scanGated with
  | false =>
    exact ⟨_, ⟨exec_of_effect (.scansUngated gate), rfl, rfl, rfl, rfl, rfl⟩,
      fun hgate => absurd (gate.symm.trans hgate) Bool.false_ne_true⟩
  | true =>
    refine ⟨_, ⟨exec_of_effect (.scansReady gate (h.serReadyNow_eq gate)), rfl, rfl, rfl, rfl, rfl⟩,
      fun _ k hk => ?_⟩
    have hnext := h gate (k + 1) (by omega)
    rw [show s.serSamples + (k + 1) = s.serSamples + 1 + k by omega] at hnext
    simpa using hnext

/-! ## The bytes a row group sends (R184, R187) -/

/-- The bytes of framebuffer row `k` (`20_memory.md` R42). -/
def rowContents (c : Config) (fb : Memory) (k : Nat) : List Byte :=
  (List.range (rowBytes c)).map fun i => fbRead fb (rowBytes c * k + i)

/-- The framebuffer rows of row group `p`, in the order a transfer unit takes them (R184). -/
def groupRows (p : BitVec 2) : List Nat := [p.toNat + 12, p.toNat + 8, p.toNat + 4, p.toNat]

theorem bytesSent_append (es fs : List Event) :
    bytesSent (es ++ fs) = bytesSent es ++ bytesSent fs := List.flatMap_append

/-- Consecutive blocks of `m` numbers are the numbers below the end of the last. -/
theorem flatMap_blocks_eq_map_range {α : Type} (f : Nat → α) (m n : Nat) :
    ((List.range n).flatMap fun k => (List.range m).map fun i => f (m * k + i)) =
      (List.range (m * n)).map f := by
  induction n with
  | zero => rfl
  | succ n ih =>
    rw [List.range_succ, List.flatMap_append, ih, Nat.mul_succ, List.range_add, List.map_append]
    simp [Function.comp_def]

/-- The sixteen rows are the framebuffer. -/
theorem flatMap_rowContents (c : Config) (fb : Memory) :
    (List.range 16).flatMap (rowContents c fb) = (List.range (fbSize c)).map (fbRead fb) := by
  unfold rowContents
  rw [flatMap_blocks_eq_map_range, show rowBytes c * 16 = fbSize c by unfold rowBytes fbSize; omega]

/-- The four groups from any phase on are the sixteen rows, each once (R187). -/
theorem groupRows_perm (p : BitVec 2) :
    (groupRows p ++ groupRows (p + 1) ++ groupRows (p + 2) ++ groupRows (p + 3)).Perm
      (List.range 16) := by
  revert p
  decide

/-- Reading several rows column by column gives what reading them row by row gives, in another order. -/
theorem flatMap_map_perm_swap {α β γ : Type} (f : α → β → γ) (columns : List β) (rows : List α) :
    (columns.flatMap fun i => rows.map fun k => f k i).Perm
      (rows.flatMap fun k => columns.map (f k)) := by
  rw [← Multiset.coe_eq_coe]
  simpa using Multiset.bind_map_comm (columns : Multiset β) (rows : Multiset α)
    (f := fun i k => f k i)

/-- The transfer unit of column `i` holds the byte of that column of each row of the group (R184). -/
theorem bytesSent_transferUnits (c : Config) (fb : Memory) (p : BitVec 2) :
    bytesSent (transferUnits c fb p.toNat) =
      (List.range (rowBytes c)).flatMap fun i =>
        (groupRows p).map fun k => fbRead fb (rowBytes c * k + i) := by
  have hrow (i j : Nat) :
      rowBytes c * (p.toNat + 4 * j) + i = rowBytes c * p.toNat + i + subRow c j := by
    unfold rowBytes subRow
    ring
  simp only [bytesSent, transferUnits, List.flatMap_map, transferUnit, groupRows, List.map_cons,
    List.map_nil, ← hrow]

/-- A SCAN_STEP that runs sends the four rows of its group, a column of the four at a time (R183, R184). -/
theorem bytesSent_scanEvents (s : State) :
    (bytesSent (scanEvents s)).Perm ((groupRows s.scanPhase).flatMap (rowContents s.cfg s.fb)) := by
  have hlines : bytesSent
      [.blank true, .latch true, .latch false, .rowSel s.scanPhase, .blank false] = [] := rfl
  rw [scanEvents, bytesSent_append, hlines, List.append_nil, bytesSent_transferUnits]
  exact flatMap_map_perm_swap (fun k i => fbRead s.fb (rowBytes s.cfg * k + i)) _ _

end Sys2Proof.Machine

namespace Sys2Proof.Proofs

open Sys2Proof.Machine

/-- Settles O43: the effect of a SCAN_STEP that runs, with the transfer units written out. -/
theorem scanStepSendsARowGroup : Obligations.ScanStepSendsARowGroup := by
  intro s T p FB off events
  have hevents : scanEvents s = events := by
    unfold scanEvents
    rw [transferUnits_eq]
    rfl
  refine ⟨fun gate => ?_, fun more gate hready => ?_, ?_⟩
  · rw [← hevents]
    exact exec_of_effect (.scansUngated gate)
  · have hexec := exec_of_effect (.scansReady gate (serReadyNow_of_cons hready))
    rwa [hevents, hready] at hexec
  · rw [← hevents]
    exact length_scanEvents s

/-- Settles O44: the effect of a skipped SCAN_STEP, and of one that runs after a free level. -/
theorem closedGateSkipsTheScanStep : Obligations.ClosedGateSkipsTheScanStep := by
  intro s gate
  refine ⟨fun more hready => ?_, fun hnil => ⟨fun hfree => ?_, fun hfree => ?_⟩⟩
  · have hexec := exec_of_effect (.skipsScan gate (serReadyNow_of_cons hready))
    rwa [afterSample, hready] at hexec
  · rw [← afterSample_of_nil hnil]
    exact exec_of_effect (.skipsScan gate ((serReadyNow_of_nil hnil).trans hfree))
  · have hlisted := exec_of_effect (s := { s with serReady := [true] })
      (.scansReady gate (serReadyNow_of_cons rfl))
    have hexec := exec_of_effect (.scansReady gate ((serReadyNow_of_nil hnil).trans hfree))
    rw [hnil] at hexec
    exact hexec.trans hlisted.symm

/-- Settles O45: four SCAN_STEPs that run send the rows of four consecutive groups, which are the rows of
the framebuffer in another order. -/
theorem fourScanStepsSendEveryByteOnce : Obligations.FourScanStepsSendEveryByteOnce := by
  intro s hready
  obtain ⟨s1, h1, hready1⟩ := ReadyFor.exists_scanStepRuns (n := 3) hready
  obtain ⟨s2, h2, hready2⟩ := hready1.exists_scanStepRuns
  obtain ⟨s3, h3, hready3⟩ := hready2.exists_scanStepRuns
  obtain ⟨s4, h4, -⟩ := hready3.exists_scanStepRuns
  have hphase2 : s2.scanPhase = s.scanPhase + 2 := by rw [h2.scanPhase_eq, h1.scanPhase_eq]; bv_omega
  have hphase3 : s3.scanPhase = s.scanPhase + 3 := by rw [h3.scanPhase_eq, hphase2]; bv_omega
  have hphase4 : s4.scanPhase = s.scanPhase := by rw [h4.scanPhase_eq, hphase3]; bv_omega
  have hcfg2 : s2.cfg = s.cfg := h2.cfg_eq.trans h1.cfg_eq
  have hcfg3 : s3.cfg = s.cfg := h3.cfg_eq.trans hcfg2
  have hfb2 : s2.fb = s.fb := h2.fb_eq.trans h1.fb_eq
  have hfb3 : s3.fb = s.fb := h3.fb_eq.trans hfb2
  refine ⟨s1, s2, s3, s4, scanEvents s ++ scanEvents s1 ++ scanEvents s2 ++ scanEvents s3,
    h1.exec_eq, h2.exec_eq, h3.exec_eq, h4.exec_eq, h1.rowSel_eq, h2.rowSel_eq.trans h1.scanPhase_eq,
    h3.rowSel_eq.trans hphase2, h4.rowSel_eq.trans hphase3, hphase4, h4.fb_eq.trans hfb3, ?_, ?_⟩
  · simp only [h4.out_eq, h3.out_eq, h2.out_eq, h1.out_eq, List.append_assoc]
  · have hsent := (((bytesSent_scanEvents s).append (bytesSent_scanEvents s1)).append
      (bytesSent_scanEvents s2)).append (bytesSent_scanEvents s3)
    rw [h1.scanPhase_eq, hphase2, hphase3, h1.cfg_eq, hcfg2, hcfg3, h1.fb_eq, hfb2, hfb3] at hsent
    simp only [← bytesSent_append, ← List.flatMap_append] at hsent
    rw [← flatMap_rowContents]
    exact hsent.trans ((groupRows_perm s.scanPhase).flatMap_right _)

end Sys2Proof.Proofs

/-! # Faults are next states (`60_exceptions.md` R201 to R204) -/

namespace Sys2Proof.Machine

/-- A stream that ends before a packet or inside one takes the next reset input
(`70_reset_and_hazards.md` R221). -/
theorem step_of_reset {s : State} (hc : s.cfg.wellFormed = true) (h : decode s.input = .incomplete)
    {next : List Byte} {later : List (List Byte)} (hreset : s.afterReset = next :: later) :
    step s = .next (takeReset next later s) := by
  simp [step, hc, h, hreset]

/-- A good state has no selected font outside `FONT` (`42_font.md` R131). -/
theorem not_readsUnreadableFont {s : State} (hfont : FontOk s) (i : Instr) :
    ¬ ReadsUnreadableFont i s := by
  rintro ⟨-, hvalid, hout⟩
  rw [FontOk, if_pos hvalid, hout] at hfont
  exact Bool.false_ne_true hfont

/-- Every command completes in a good state. -/
theorem exists_exec_eq_next {s : State} (hfont : FontOk s) (i : Instr) :
    ∃ t, exec i s = .next t := by
  rcases exec_cases i s with ⟨hstops, -⟩ | ⟨-, hcompletes⟩
  · exact absurd hstops (not_readsUnreadableFont hfont i)
  · exact hcompletes

/-- Progress: a good state has a next state, whatever is presented. -/
theorem exists_step_eq_next {s : State} (hinv : StateInv s) : ∃ t, step s = .next t := by
  obtain ⟨hc, -, -, hfont, -⟩ := hinv
  cases hdecode : decode s.input with
  | incomplete =>
    cases hreset : s.afterReset with
    | nil => exact ⟨_, step_of_incomplete hc hdecode hreset⟩
    | cons next later => exact ⟨_, step_of_reset hc hdecode hreset⟩
  | illegalOpcode rest => exact ⟨_, step_of_illegalOpcode hc hdecode⟩
  | reservedOperand rest => exact ⟨_, step_of_reservedOperand hc hdecode⟩
  | instr i rest =>
    rw [step_of_instr hc hdecode]
    exact exists_exec_eq_next (s := { s with input := rest }) hfont i

/-- A run goes on from the state its first step leaves. -/
theorem run_succ_of_step {s t : State} (h : step s = .next t) (n : Nat) :
    Host.Core.run Sys2Proof.core (n + 1) s = Host.Core.run Sys2Proof.core n t := by
  have hcore : Sys2Proof.core.step s = .next t := h
  simp only [Host.Core.run, hcore]

/-- A predicate with progress and preservation holds only of states whose run never stops. -/
theorem neverStops_of_progress {P : State → Prop} (progress : ∀ s, P s → ∃ t, step s = .next t)
    (preservation : ∀ s t, P s → step s = .next t → P t) {s : State} (hs : P s) :
    NeverStops s := by
  intro n
  induction n generalizing s with
  | zero => exact ⟨s, rfl⟩
  | succ n ih =>
    obtain ⟨t, hstep⟩ := progress s hs
    rw [run_succ_of_step hstep]
    exact ih (preservation s t hs hstep)

end Sys2Proof.Machine

namespace Sys2Proof.Proofs

open Sys2Proof.Machine

/-- Settles O48: the invariant gives every step a next state, and every step keeps it. -/
theorem goodStatesNeverStop : Obligations.GoodStatesNeverStop :=
  fun _ hinv => neverStops_of_progress (fun _ => exists_step_eq_next) stepKeepsTheInvariant hinv

/-- Settles O52: an effect that makes `ERR` change is the recording of a fault, which writes `ERR` alone. -/
theorem faultingCommandChangesOnlyErr : Obligations.FaultingCommandChangesOnlyErr := by
  intro i s t hexec herr
  obtain hsame | ⟨f, rfl⟩ := (effect_of_exec hexec).err_cases
  · exact absurd hsame herr
  · rfl

/-- Settles O29: the recorded fault is `NoFont`, whose code is 3. -/
theorem noFontIsRecorded : Obligations.NoFontIsRecorded :=
  fun _ _ reads unselected => exec_of_noFont reads unselected

end Sys2Proof.Proofs

/-! # The state after reset and the reset input (`70_reset_and_hazards.md` R220, R221) -/

namespace Sys2Proof.Machine

/-- Every pixel of the canvas is unlit after reset. -/
theorem fbRead_resetWith (c : Config) (a : Nat) : fbRead (State.resetWith c).fb a = 0xFF := by
  rw [resetWith_fb, fbRead, Memory.read_nil, fbBlank]

theorem textRead_resetWith (c : Config) (a : Nat) :
    textRead (State.resetWith c).mqText a = 0x00 := by
  rw [resetWith_mqText, textRead, Memory.read_nil, textBlank]

/-- What the reset input leaves is the table of the state after reset, but for the environment's part:
the bytes and the resets still to come, and the levels of `ser_ready`. -/
theorem takeReset_eq (next : List Byte) (later : List (List Byte)) (s : State) :
    takeReset next later s = { State.resetWith s.cfg with
      input := next, afterReset := later, serReady := s.serReady, serSamples := s.serSamples } := rfl

end Sys2Proof.Machine

namespace Sys2Proof.Proofs

open Sys2Proof.Machine

/-- Settles O8: the two memories are read through their empty cell lists, and each other row of the table
is the law of its element. -/
theorem resetStateIsTheTable : Obligations.ResetStateIsTheTable := fun c =>
  ⟨fun a _ => fbRead_resetWith c a, fun a _ => textRead_resetWith c a,
    resetWith_mqLen c, resetWith_mqWidth c, resetWith_mqHeight c, resetWith_mqOffX c,
    resetWith_mqOffY c, resetWith_fontBase c, resetWith_fontValid c, resetWith_scanPhase c,
    resetWith_blank c, resetWith_latch c, resetWith_rowSel c, resetWith_res c, resetWith_err c,
    resetWith_out c, resetWith_input c, resetWith_cfg c⟩

/-- Settles O9: a stream that ends inside a packet is one the decoder finds incomplete, so the step takes
the reset input, whatever part of the packet has arrived. -/
theorem resetInputDiscardsPartialPacket : Obligations.ResetInputDiscardsPartialPacket := by
  intro s next later hc hends hreset
  have hdecode : decode s.input = .incomplete := decode_eq_incomplete_iff.mpr hends
  rw [step_of_reset hc hdecode hreset, takeReset_eq]

end Sys2Proof.Proofs
